-- ==== Sys2Proof/Word.lean ====
section
/-!
DEFINITION. The widths of the core's data (spec/00_scope.md R11, R13, R14): a header, an operand
slot, an element of the reference numerics' type `F`, and the registers of a stated width.
-/

namespace Sys2Proof

/-- The 16-bit header `HDR` of a command frame (R81). -/
abbrev Header := BitVec 16

/-- One 64-bit operand slot of a command frame (R81). -/
abbrev Slot := BitVec 64

/-- The type `F` of the reference numerics (R14), a binary64 value held as its interchange pattern. A
definition that takes the numerics record as an argument has a type variable of this name in its place
(R13). -/
abbrev F := BitVec 64

/-- An `s32`: an integer in -2^31..2^31-1 held in two's complement (R11). -/
abbrev S32 := BitVec 32

/-- A `u16`: an integer in 0..65535 (R11). -/
abbrev U16 := BitVec 16

end Sys2Proof
end

