-- ==== Sys2Proof/Config.lean ====
section
/-!
DEFINITION. What an implementation of the core fixes: the parameters of spec/00_scope.md R9 (their
types; the values R9 gives stand in Machine/Parameters.lean), the numerics record R13 among them, and the
five free values the spec leaves open (opaque constants, which no proof can see into).
-/

namespace Sys2Proof

/-- The operations of the numerics record `NUM` (R13) that can make a NaN. -/
inductive NumOp where
  | add | sub | mul | div | sqrt
  deriving DecidableEq, Repr

/-- FREE VALUE (log 2). `NUM.sin` (R13, R14): "the model assumes nothing of `NUM.sin` except that it
is a total function of its operand". -/
opaque Config.sine : F → F

/-- FREE VALUE (log 3). The pattern from which the NaN result of an operation on the given operands
is made. The spec gives NaN results (R14) and no pattern for them; `Binary64.nan` makes any pattern
into a NaN. -/
opaque Config.nanPattern : NumOp → F → F → F

/-- FREE VALUE (log 24). `VALUE` of an `IN.SOLVE` whose result does not fit an s32. R197 shows that it fits
at R9's shifts and bias; R84 and R190 do not say what `VALUE` is where another setting lets it not fit. -/
opaque Config.wideResult : Int → BitVec 64

/-- FREE VALUE (log 25). `NUM.toRat` of an infinity or a NaN in the reference instance: R13 gives `toRat` for a
finite `F` only. -/
opaque Config.nonFiniteRat : F → Rat

/-- A decimal literal of the spec, `mantissa / 10^places` exactly (the argument of `NUM.ofLit`, R13). The
mantissa is an integer, so `-0.0` is the literal `0.0`: DESIGN CHOICE, unsafe (log 23); R13 does not say
which zero a literal `-0.0` is. -/
structure Lit where
  mantissa : Int
  places : Nat
  deriving DecidableEq, Repr

/-- The two settings of `ORDER_ROUND` (R9, R138). -/
inductive OrderRound where
  | nearestEvenTiesUp
  | nearestIntThenUpToEven
  deriving DecidableEq, Repr

/-- What the numerics record `NUM` provides over its type `F` (R13). -/
structure NumOps (F : Type) where
  /-- `F.zero`, positive zero. -/
  zero : F
  /-- `F.one`. -/
  one : F
  /-- `F.pi`. -/
  pi : F
  ofInt : Int → F
  ofLit : Lit → F
  add : F → F → F
  sub : F → F → F
  mul : F → F → F
  div : F → F → F
  sqrt : F → F
  sin : F → F
  abs : F → F
  lt : F → F → Bool
  le : F → F → Bool
  ge : F → F → Bool
  eq : F → F → Bool
  isFinite : F → Bool
  /-- The exact rational value of a finite `F`. R13 says nothing of any other value: there it is whatever the
  NUM at hand gives, in the reference instance a free value (log 25). -/
  toRat : F → Rat
  bits : F → BitVec 64
  ofBits : BitVec 64 → F

/-- FREE VALUE (log 12). What stands for `I0(x)` where the loop of R110 never ends: R112 (d) says that it need
not, and the spec gives no value there. It is a function of the magnitude of `x`, as R112 (b) has it. -/
opaque Config.endlessSeries {F : Type} [Inhabited F] (N : NumOps F) (magnitude : F) : F

/-- The numerics record `NUM` (R9, R13): the type `F`, and what it provides. -/
structure Num where
  /-- The type `F`. -/
  F : Type
  /-- Whether two values of `F` are the same one: the MODEL's own, so that a state is plain data (log 1). -/
  decEq : DecidableEq F
  ops : NumOps F

/-- The implementation parameters of R9, but for `NUM` and the contents of the transfer tables (data of
`State`). `PHASE_ONE` and `I0_TOL` are no parameters (R10). -/
structure Settings where
  /-- `ACC_W`: the width of `ACC` and `CPS`, at most the 32 bits of their registers (R29, R30, log 21). -/
  accW : Nat
  /-- `RING_HALF`, written `H`: half of the history buffer's capacity. -/
  ringHalf : Nat
  /-- `A_DB`: the target stopband attenuation. -/
  aDb : Lit
  /-- `BETA_K` of the Kaiser beta formula. -/
  betaK : Lit
  /-- `BETA_A0` of the Kaiser beta formula. -/
  betaA0 : Lit
  /-- `ORD_A0` of the filter-order formula. -/
  ordA0 : Lit
  /-- `ORD_K` of the filter-order formula. -/
  ordK : Lit
  /-- `ORDER_ROUND`: how the real-valued order becomes an even integer. -/
  orderRound : OrderRound
  /-- `RES_ERR_K` of the phase-resolution formula. -/
  resErrK : Lit
  /-- `SINC_EPS`: below this magnitude the sinc argument counts as 0. -/
  sincEps : Lit
  /-- `NRS`: number of Resampler units of the reset state. -/
  nrs : Nat
  /-- `NIN`: number of Integrator units of the reset state. -/
  nin : Nat
  /-- `NTT`: number of transfer tables of the reset state. -/
  ntt : Nat
  /-- `FC_SCALE_LOG2`: binary scale of `IN.SETFC`. -/
  fcScaleLog2 : Nat
  /-- `SH_CUR`: right shift of the difference of squares. -/
  shCur : Nat
  /-- `SH_IDX`: right shift of the charge in the table index. -/
  shIdx : Nat
  /-- `SH_OUT`: right shift of the charge in the result. -/
  shOut : Nat
  /-- `IDX_BIAS`: added to the shifted charge to form the table index. -/
  idxBias : Int
  /-- `M_DEFAULT`: the multiplier of Integrator construction. -/
  mDefault : Lit
  deriving DecidableEq, Repr

/-- The parameters of R9 over a type `F`: the settings, and what `NUM` provides. -/
structure Params (F : Type) extends Settings where
  num : NumOps F

end Sys2Proof
end

