-- ==== Sys2Proof/Machine/Binary64.lean ====
section
/-!
DEFINITION. The reference instance of the numerics record `NUM` (spec/00_scope.md R13, R14): IEEE 754
binary64, every operation rounded once to nearest, ties to even, no operation fused with another.

A finite value is `units w * 2^(-1074)` exactly, an integer number of the smallest subnormal; every
operation computes the exact result as a ratio of integers in that unit and rounds it once
(`roundMag`). What IEEE 754 says of infinities, signed zeros and overflow, and R14 leaves to that
standard, is log 26; the pattern of a NaN result is a free value (log 3), and so
is the rational value of what is not finite (log 25).
-/

namespace Sys2Proof.Machine.Binary64

/-- The sign bit. -/
def sign (w : F) : Bool := w.msb

/-- The 11-bit exponent field. -/
def expField (w : F) : Nat := w.toNat / 2 ^ 52 % 2 ^ 11

/-- The 52-bit fraction field. -/
def fracField (w : F) : Nat := w.toNat % 2 ^ 52

/-- The exponent and fraction fields together: the magnitude's pattern. -/
def magField (w : F) : Nat := w.toNat % 2 ^ 63

/-- `NUM.isFinite` (R13). -/
def isFinite (w : F) : Bool := expField w != 2047

def isNaN (w : F) : Bool := expField w == 2047 && fracField w != 0

def isInf (w : F) : Bool := expField w == 2047 && fracField w == 0

def isZero (w : F) : Bool := magField w == 0

/-- The magnitude of a finite value in units of 2^(-1074). -/
def magUnits (w : F) : Nat :=
  if expField w = 0 then fracField w else (2 ^ 52 + fracField w) * 2 ^ (expField w - 1)

/-- A finite value in units of 2^(-1074), exactly. -/
def units (w : F) : Int := if sign w then -(magUnits w : Int) else magUnits w

/-- `NUM.toRat` (R13): the exact rational value of a finite `F`. R13 does not say what it is of an infinity or
a NaN: DESIGN CHOICE, safe (log 25), a free value. -/
@[irreducible] def toRat (w : F) : Rat :=
  if isFinite w then mkRat (units w) (2 ^ 1074) else Config.nonFiniteRat w

/-- The pattern with the given sign bit and magnitude pattern. -/
def pack (neg : Bool) (mag : Nat) : F := BitVec.ofNat 64 (if neg then 2 ^ 63 + mag else mag)

/-- The magnitude pattern of +infinity. -/
def infMag : Nat := 2047 * 2 ^ 52

/-- The quotient `n / d`, rounded to an integer: to nearest, ties to even. -/
def roundHalfEven (n d : Nat) : Nat :=
  let m := n / d
  let r := n % d
  if d < 2 * r ∨ (2 * r = d ∧ m % 2 = 1) then m + 1 else m

/-- The magnitude `n / d` (in units of 2^(-1074), `d > 0`) rounded to the nearest binary64
magnitude, ties to even, as a pattern. `sh` is the exponent of the rounding quantum: a magnitude
pattern is `sh * 2^52` plus the rounded multiple of `2^sh`, also where the rounding carries into the
next binade, and the largest pattern is infinity's. -/
@[irreducible] def roundMag (n d : Nat) : Nat :=
  let sh := Nat.log2 (n / d) - 52
  min (sh * 2 ^ 52 + roundHalfEven n (d * 2 ^ sh)) infMag

/-- A NaN made from any pattern: exponent field all ones, fraction not 0. -/
def toNaN (p : F) : F :=
  if fracField p = 0 then p ||| 0x7FF8000000000000 else p ||| 0x7FF0000000000000

/-- The NaN result of an operation: a NaN of which nothing else is known (log 3). -/
def nan (op : NumOp) (a b : F) : F := toNaN (Config.nanPattern op a b)

/-- `F.zero`: positive zero (R13). -/
def zero : F := 0x0000000000000000

/-- `F.one` (R13). -/
def one : F := 0x3FF0000000000000

/-- `F.pi` (R14). -/
def pi : F := 0x400921FB54442D18

/-- `NUM.ofInt` (R13): the nearest value, ties to even. -/
def ofInt (z : Int) : F := pack (z < 0) (roundMag (z.natAbs * 2 ^ 1074) 1)

/-- `NUM.ofLit` (R13): the nearest value to a decimal literal, ties to even. Which zero a literal becomes
is not said there. DESIGN CHOICE, unsafe (log 23): a literal equal to 0, `-0.0` too, becomes positive zero,
and a negative literal too small for any other value becomes negative zero. -/
def ofLit (l : Lit) : F :=
  pack (l.mantissa < 0) (roundMag (l.mantissa.natAbs * 2 ^ 1074) (10 ^ l.places))

/-- An exact sum in units, rounded; `zneg` is the sign of an exact zero sum. -/
def roundSum (zneg : Bool) (z : Int) : F :=
  if z = 0 then pack zneg 0 else pack (z < 0) (roundMag z.natAbs 1)

/-- `NUM.add` (R13, R14). -/
def add (a b : F) : F :=
  if isNaN a || isNaN b then nan .add a b
  else if isInf a then (if isInf b && sign a != sign b then nan .add a b else a)
  else if isInf b then b
  else roundSum (sign a && sign b) (units a + units b)

/-- `NUM.sub` (R13, R14). -/
def sub (a b : F) : F :=
  if isNaN a || isNaN b then nan .sub a b
  else if isInf a then (if isInf b && sign a == sign b then nan .sub a b else a)
  else if isInf b then pack (!sign b) infMag
  else roundSum (sign a && !sign b) (units a - units b)

/-- `NUM.mul` (R13, R14). -/
def mul (a b : F) : F :=
  if isNaN a || isNaN b then nan .mul a b
  else if isInf a || isInf b then
    if isZero a || isZero b then nan .mul a b else pack (sign a != sign b) infMag
  else pack (sign a != sign b) (roundMag (magUnits a * magUnits b) (2 ^ 1074))

/-- `NUM.div` (R13, R14). -/
def div (a b : F) : F :=
  if isNaN a || isNaN b then nan .div a b
  else if isInf a then (if isInf b then nan .div a b else pack (sign a != sign b) infMag)
  else if isInf b then pack (sign a != sign b) 0
  else if isZero b then (if isZero a then nan .div a b else pack (sign a != sign b) infMag)
  else pack (sign a != sign b) (roundMag (magUnits a * 2 ^ 1074) (magUnits b))

/-- The binary digits of the integer square root from bit `k - 1` down. -/
def isqrtFrom (n : Nat) : Nat → Nat → Nat
  | 0, r => r
  | k + 1, r => isqrtFrom n k (if (r + 2 ^ k) * (r + 2 ^ k) ≤ n then r + 2 ^ k else r)

/-- The integer square root, `isqrt n ^ 2 ≤ n < (isqrt n + 1) ^ 2`. -/
def isqrt (n : Nat) : Nat := isqrtFrom n (Nat.log2 n / 2 + 1) 0

/-- The magnitude of the square root of `m * 2^e` units (`e` even), rounded once. The root is taken
to 54 binary places below the unit of `m`; where it is not exact it lies strictly between two
neighbours there, and half of that step stands for it, which no rounding boundary separates from it. -/
def sqrtMag (m e : Nat) : Nat :=
  let r := isqrt (m * 2 ^ 108)
  let twice := if r * r = m * 2 ^ 108 then 2 * r else 2 * r + 1
  roundMag (twice * 2 ^ (e / 2)) (2 ^ 55)

/-- `NUM.sqrt` (R13, R14): correctly rounded. The operand is `m * 2^x` units; the root in units is
the root of `m * 2^(x + 1074)`. -/
def sqrt (a : F) : F :=
  if isNaN a then nan .sqrt a a
  else if isZero a then a
  else if sign a then nan .sqrt a a
  else if isInf a then a
  else
    let m := if expField a = 0 then fracField a else 2 ^ 52 + fracField a
    let x := (expField a - 1) + 1074
    if x % 2 = 0 then pack false (sqrtMag m x) else pack false (sqrtMag (2 * m) (x - 1))

/-- `NUM.abs` (R13). -/
def abs (a : F) : F := pack false (magField a)

/-- A non-NaN value's place in the order of binary64: the two zeros have the same. -/
def rank (w : F) : Int := if sign w then -(magField w : Int) else magField w

/-- `NUM.lt` (R13): false when an operand is a NaN (R14). -/
def lt (a b : F) : Bool := !isNaN a && !isNaN b && decide (rank a < rank b)

/-- `NUM.le` (R13): false when an operand is a NaN (R14). -/
def le (a b : F) : Bool := !isNaN a && !isNaN b && decide (rank a ≤ rank b)

/-- `NUM.ge` (R13): false when an operand is a NaN (R14). -/
def ge (a b : F) : Bool := le b a

/-- `NUM.eq` (R13): false when an operand is a NaN (R14). -/
def eq (a b : F) : Bool := !isNaN a && !isNaN b && decide (rank a = rank b)

/-- `NUM.sin` (R13, R14): a free value (log 2). -/
def sin (a : F) : F := Config.sine a

/-- `NUM.bits` (R13): the interchange encoding. -/
def bits (a : F) : BitVec 64 := a

/-- `NUM.ofBits` (R13): every pattern decodes (R83). -/
def ofBits (w : BitVec 64) : F := w

/-- What the reference instance of the numerics record provides (R9, R14). -/
def ops : NumOps F :=
  { zero, one, pi, ofInt, ofLit, add, sub, mul, div, sqrt, sin, abs, lt, le, ge, eq, isFinite, toRat, bits,
    ofBits }

/-- The reference instance of the numerics record (R9, R14). -/
def num : Num := { F := Sys2Proof.F, decEq := inferInstance, ops := ops }

end Sys2Proof.Machine.Binary64
end

