-- ==== Sys2Proof/Machine/Parameters.lean ====
section
/-!
DEFINITION. The values of the implementation parameters that spec/00_scope.md R9 fixes (log 21), and
the two literals that are no parameters (R10).
-/

namespace Sys2Proof.Machine

/-- The values of R9's table. `nrs`, `nin` and `ntt` are OPEN there: 256, the largest, is the model's
choice for the reset state (log 4). -/
def params : Params F where
  num := Binary64.ops
  accW := 32
  ringHalf := 2048
  aDb := ⟨9632959861247399, 14⟩
  betaK := ⟨1102, 4⟩
  betaA0 := ⟨87, 1⟩
  ordA0 := ⟨795, 2⟩
  ordK := ⟨2285, 3⟩
  orderRound := .nearestEvenTiesUp
  resErrK := ⟨1234, 3⟩
  sincEps := ⟨1, 8⟩
  nrs := 256
  nin := 256
  ntt := 256
  fcScaleLog2 := 13
  shCur := 15
  shIdx := 15
  shOut := 14
  idxBias := 32768
  mDefault := ⟨15, 1⟩

/-- `PHASE_ONE` (R9, R10): one input-sample period in accumulator units. -/
def phaseOne : Int := 1024

/-- `I0_TOL` (R9, R10): the relative tolerance that ends the I0 series. -/
def i0Tol : Lit := ⟨1, 6⟩

/-- The first value that the signed `ACC_W`-bit registers `CPS` and `ACC` do not hold (R9, R29, R30). -/
def accLimit {F : Type} (P : Params F) : Int := 2 ^ (min P.accW 32 - 1)

end Sys2Proof.Machine
end

