-- ==== Sys2Proof/Machine/Numeric.lean ====
section
/-!
DEFINITION. The numeric primitives of spec/40_numeric_primitives.md: the Bessel/Kaiser helper, the
convolution primitive and the quantizer, over the type `F` and the
operations `N` of a numerics record (spec/00_scope.md R9, R13). All
arithmetic on `F` is `NUM` arithmetic, one rounding per operation, in the order the rules write it (R13).
-/

namespace Sys2Proof.Machine

variable {F : Type}

/-- One pass of the body of R110's loop: the new sum, term and n. -/
def besselBody (N : NumOps F) (halfx sum term n : F) : F × F × F :=
  let t := N.div halfx n
  let term := N.mul term (N.mul t t)
  (N.add sum term, term, N.add n N.one)

/-- The test that ends R110's loop, made after the addition (R111). -/
def besselDone (N : NumOps F) (sum term : F) : Bool := N.lt term (N.mul (N.ofLit i0Tol) sum)

/-- R110's loop, the body first and the test after it, for as many passes as it takes; `none` where it never
ends. -/
def besselSeries (N : NumOps F) (halfx : F) (before : F × F × F) : Option F :=
  let after := besselBody N halfx before.1 before.2.1 before.2.2
  if besselDone N after.1 after.2.1 then some after.1 else besselSeries N halfx after
partial_fixpoint

/-- R110's loop with its first `fuel` passes unrolled, which Lean's kernel can evaluate. What it gives does not
depend on `fuel` (`besselLoop_eq_series`). -/
def besselLoop (N : NumOps F) (halfx : F) : Nat → F × F × F → Option F
  | 0, before => besselSeries N halfx before
  | fuel + 1, before =>
    let after := besselBody N halfx before.1 before.2.1 before.2.2
    if besselDone N after.1 after.2.1 then some after.1 else besselLoop N halfx fuel after

/-- How many passes are unrolled: more than the core makes under the reference numerics and R9's constants of
beta (R112 (c)). It bounds nothing. -/
def besselFuel : Nat := 64

/-- `I0(x)` (R110): the 0th-order modified Bessel function of the first kind, by its power series. DESIGN
CHOICE, unsafe (log 12), where the loop never ends: a free value, the same for `x` and `-x` (R112 (b)). -/
def i0 (N : NumOps F) (x : F) : F :=
  (besselLoop N (N.div x (N.ofInt 2)) besselFuel (N.one, N.one, N.one)).getD
    (@Config.endlessSeries F ⟨N.zero⟩ N (N.abs x))

/-- `sinc(w)` (R115). -/
def sinc (P : Params F) (w : F) : F :=
  if P.num.ge (P.num.abs w) (P.num.ofLit P.sincEps) then P.num.div (P.num.sin w) w else P.num.one

/-- `kaiser(beta, I0beta, xt)` (R116). -/
def kaiser (N : NumOps F) (beta i0beta xt : F) : F :=
  if N.lt (N.abs xt) N.one then
    N.div (i0 N (N.mul beta (N.sqrt (N.sub N.one (N.mul xt xt))))) i0beta
  else N.zero

/-- `convolve(a, b)` (R118): ascending index, one rounded multiply and one rounded add per tap, from
`F.zero`. -/
def convolve (N : NumOps F) (a b : List F) : F :=
  (a.zip b).foldl (fun acc p => N.add acc (N.mul p.1 p.2)) N.zero

/-- `quant16(t)` (R121): to nearest, ties upward, on the exact value; `none` is "reject". -/
def quant16 (N : NumOps F) (t : F) : Option U16 :=
  if N.isFinite t then
    let q := (N.toRat t + 1 / 2).floor
    if 0 ≤ q ∧ q ≤ 65535 then some (BitVec.ofInt 16 q) else none
  else none

end Sys2Proof.Machine
end

