-- ==== Sys2Proof/Machine/Operands.lean ====
section
/-!
DEFINITION. The fields of a header (spec/30_encoding.md R81) and the three kinds of operand slot
(R83), each with the slot that encodes it.
-/

namespace Sys2Proof.Machine

/-- A field of a `w`-bit vector: `v` with its bit 0 at bit `lo`, the other bits 0 (R11). -/
def fieldAt {k : Nat} (w lo : Nat) (v : BitVec k) : BitVec w := v.setWidth w <<< lo

/-- `HDR[15:8]`, that is CLASS and OP (R81, R82). -/
def headerOpcode (h : Header) : BitVec 8 := h.extractLsb' 8 8

/-- `HDR[7:0]`, the UNIT field (R81). -/
def headerUnit (h : Header) : Nat := (h.extractLsb' 0 8).toNat

/-- The header with the given `HDR[15:8]` and unit index (R81). -/
def header (opcode : BitVec 8) (unit : Nat) : Header :=
  fieldAt 16 8 opcode ||| fieldAt 16 0 (BitVec.ofNat 8 unit)

/-- A `real` slot: `NUM.ofBits(W)`; every pattern decodes (R83). -/
def realOf {F : Type} (N : NumOps F) (w : Slot) : F := N.ofBits w

/-- The slot of a value of `F` as a `real` operand. -/
def realSlot {F : Type} (N : NumOps F) (x : F) : Slot := N.bits x

/-- An `s32` slot: `sext_32(W[31:0])`; `W[63:32]` is ignored (R83, R87). -/
def s32Of (w : Slot) : Int := (w.extractLsb' 0 32).toInt

/-- The slot of an `s32` operand; the ignored bits are 0 (R93's example). -/
def s32Slot (v : Int) : Slot := (BitVec.ofInt 32 v).setWidth 64

/-- A `tsel` slot: `zext_8(W[7:0])`; `W[63:8]` is ignored (R83, R87). -/
def tselOf (w : Slot) : Nat := (w.extractLsb' 0 8).toNat

/-- The slot of a `tsel` operand; the ignored bits are 0. -/
def tselSlot (k : Nat) : Slot := BitVec.ofNat 64 k

end Sys2Proof.Machine
end

