-- ==== Sys2Proof/Syntax.lean ====
section
/-!
DEFINITION. The commands of the core (spec/30_encoding.md R80, R81, R84): one constructor for each of
the eight rows of spec/opcode_table.json, with the operands of R83, and the command frame.
-/

namespace Sys2Proof

/-- A command (R84). `unit` is the header's UNIT field; a `real` operand is its slot's pattern,
which the command reads by `NUM.ofBits`; a `tsel` operand is an index, an `s32` operand an integer (R83). -/
inductive Instr where
  /-- `RS.CONFIG u, fclk, fs, fpass` (R130). -/
  | rsConfig (unit : Nat) (fclk fs fpass : Slot)
  /-- `RS.INPUT u, x` (R160). -/
  | rsInput (unit : Nat) (x : Slot)
  /-- `RS.OUTPUT u` (R172). -/
  | rsOutput (unit : Nat)
  /-- `RS.RESET u` (R174). -/
  | rsReset (unit : Nat)
  /-- `IN.CONFIG n, k, vdc, vth, nkp, vmin, n16` (R180). -/
  | inConfig (unit : Nat) (k : Nat) (vdc vth nkp vmin n16 : Slot)
  /-- `IN.SETFC n, wl` (R186). -/
  | inSetfc (unit : Nat) (wl : Slot)
  /-- `IN.SETV n, m` (R188). -/
  | inSetv (unit : Nat) (m : Slot)
  /-- `IN.SOLVE n, vi` (R190). -/
  | inSolve (unit : Nat) (vi : Int)
  deriving DecidableEq, Repr

/-- A command frame (R81): the header and the operand slots `W0, W1, …`. -/
structure Frame where
  hdr : Header
  slots : List Slot
  deriving DecidableEq, Repr

end Sys2Proof
end

