-- ==== Sys2Proof/Machine/State.lean ====
section
/-!
DEFINITION. The machine's state (spec/10_state.md R20 to R56) as plain data, the reasons a step can
stop, and the state after hardware reset (spec/70_reset_and_hazards.md R240, R241).
-/

namespace Sys2Proof.Machine

/-- An element memory (R60) of elements of a type `α`: the elements that are not `default`, by strictly
rising index; an index not listed reads `default`, which is 0 for a bit vector (logs 5 and 17).
`Memory.wf` says the form holds. -/
abbrev Memory (α : Type) := List (Nat × α)

/-- A key of `CACHE` (R24, R142): filter length, phase resolution, bit pattern of the clock ratio. -/
structure FilterKey where
  len : Int
  res : Int
  rbits : BitVec 64
  deriving DecidableEq, Repr

/-- A filter table (R24): rows by fractional phase, columns by tap. -/
abbrev FilterTable (F : Type) := List (List F)

/-- `CACHE` (R24): a finite map, held by strictly rising key (log 16). -/
abbrev Cache (F : Type) := List (FilterKey × FilterTable F)

/-- A Resampler unit (R26 to R37), over the type `F` of `NUM` (R13). -/
structure RsUnit (F : Type) where
  /-- `RS.CFGV`, 1 bit (R26). -/
  cfgv : Bool
  /-- `RS.READY`, 1 bit (R35). -/
  ready : Bool
  /-- `RS.ERR`, 4 bits (R36). -/
  err : BitVec 4
  /-- `HIST`, `2*H` elements of `F` (R27). -/
  hist : Memory F
  /-- `CUR`, an integer in 0..H-1 (R28). -/
  cur : Nat
  /-- `CPS`, an s32 (R29). -/
  cps : S32
  /-- `ACC`, an s32 (R30). -/
  acc : S32
  /-- `OUT`, one `F` (R31). -/
  out : F
  /-- `L`, an integer: the filter length (R32). -/
  len : Int
  /-- `RES`, an integer (R33). -/
  res : Int
  /-- `RBITS`, a u64 (R34). -/
  rbits : BitVec 64
  deriving DecidableEq, Repr

/-- An Integrator unit (R40 to R49), over the type `F` of `NUM` (R13). -/
structure InUnit (F : Type) where
  /-- `IN.CFGV`, 1 bit (R40). -/
  cfgv : Bool
  /-- `IN.NDACV`, 1 bit (R45). -/
  ndacv : Bool
  /-- `IN.ERR`, 4 bits (R48). -/
  err : BitVec 4
  /-- `VC`, an s32 (R41). -/
  vc : S32
  /-- `VX`, an s32 (R42). -/
  vx : S32
  /-- `NVGT`, a u16 (R43). -/
  nvgt : U16
  /-- `NDAC`, a u16 (R44). -/
  ndac : U16
  /-- `VDC` (R46). -/
  vdc : F
  /-- `VTH` (R46). -/
  vth : F
  /-- `NKP` (R46). -/
  nkp : F
  /-- `VMIN` (R46). -/
  vmin : F
  /-- `N16` (R46). -/
  n16 : F
  /-- `TTSEL`, an integer in 0..NTT-1 (R47). -/
  ttsel : Nat
  deriving DecidableEq, Repr

/-- What the host does to the core (R80, R240). -/
inductive HostEvent where
  /-- It presents a command frame (R80). -/
  | frame (f : Frame)
  /-- It asserts the hardware reset (R240). -/
  | hardwareReset
  deriving DecidableEq, Repr

/-- The core's state (R20), the response port (R88, log 8) and the host's events to come (log 7), over the
type `F` of `NUM` (R13). -/
structure State.Over (F : Type) where
  /-- `FAULTREG`, 16 bits (R22). -/
  faultReg : BitVec 16
  /-- `CACHE` (R24). -/
  cache : Cache F
  /-- `TT[k]`, the transfer tables (R25); `NTT` is their number (D33). -/
  tt : List (Memory U16)
  /-- The Resampler units; `NRS` is their number (R20, D34). -/
  rs : List (RsUnit F)
  /-- The Integrator units; `NIN` is their number (R20, D34). -/
  ins : List (InUnit F)
  /-- `RSP`, the response to the last command (R88); none before the first (log 8). -/
  rsp : Option (BitVec 128)
  /-- The host's events that the core has not taken yet, the next one first (log 7). -/
  events : List HostEvent
  deriving DecidableEq, Repr

/-- The core's state over the reference numerics, the `NUM` that R9 fixes (R14). -/
abbrev State := State.Over F

/-- Why the model stops although the command is one (log 15). Every one is raised by a command that
finds the state as no run from reset leaves it (Safety.lean's invariant excludes it), where the spec
says the access is never made. Safe: nothing is claimed of the hardware there. -/
inductive Fault where
  /-- `RS.INPUT`: the cursor or the window is outside `HIST` (R66: "No index outside 0..2*H-1 is ever
  formed"). Safe. -/
  | historyIndex
  /-- `RS.INPUT`: `CACHE` has no entry at the unit's key, or the entry has no such row of `L` columns
  (R34, R67). Safe. -/
  | filterTable
  /-- `RS.INPUT`: the phase is negative, or the new accumulator does not fit an s32 (R170). Safe. -/
  | accumulator
  /-- `IN.SOLVE`: the unit's `TTSEL` selects no transfer table (R47). Safe. -/
  | transferTable
  deriving DecidableEq, Repr

/-- Why the model gives no meaning. -/
inductive Refusal where
  /-- Raised by `exec` for an instruction that has no meaning in the model. Safe. -/
  | notModelled (mnemonic : String)
  /-- Raised by `step` when the host presents bits that are no frame: the number of operand slots is
  not the one the header tells (R81, R82; log 11). Safe. -/
  | notAFrame
  deriving DecidableEq, Repr

/-- How a step ends. -/
abbrev Result (F : Type) := Host.Outcome (State.Over F) Fault Refusal

/-- A Resampler unit after hardware reset: the values of R26, R35, R36; the registers whose value R240
leaves unspecified hold 0, those of type `F` its `default` (log 6). -/
def RsUnit.reset {F : Type} [Inhabited F] : RsUnit F where
  cfgv := false
  ready := false
  err := 0
  hist := []
  cur := 0
  cps := 0
  acc := 0
  out := default
  len := 0
  res := 0
  rbits := 0

/-- An Integrator unit after hardware reset: the values of R40, R45, R48; the registers whose value
R240 leaves unspecified hold 0, those of type `F` its `default` (log 6). -/
def InUnit.reset {F : Type} [Inhabited F] : InUnit F where
  cfgv := false
  ndacv := false
  err := 0
  vc := 0
  vx := 0
  nvgt := 0
  ndac := 0
  vdc := default
  vth := default
  nkp := default
  vmin := default
  n16 := default
  ttsel := 0

/-- A core of `nrs` Resamplers, `nin` Integrators and the given transfer tables after hardware reset
(R240, R241): not halted, the cache empty, every unit unconfigured, no response, no event. -/
def State.resetWith {F : Type} [Inhabited F] (nrs nin : Nat) (tables : List (Memory U16)) : State.Over F where
  faultReg := 0
  cache := []
  tt := tables
  rs := List.replicate nrs RsUnit.reset
  ins := List.replicate nin InUnit.reset
  rsp := none
  events := []

/-- The machine right after hardware reset (R240), with the model's unit counts (log 4) and, as
nothing has provided their contents, empty transfer tables (log 5). -/
def State.reset : State :=
  State.resetWith params.nrs params.nin (List.replicate params.ntt [])

end Sys2Proof.Machine
end

