-- ==== Sys2Proof/Machine/Flags.lean ====
section
/-!
DEFINITION. The response and fault codes (spec/60_exceptions.md R211, R219), the status views and
`FAULTREG` (spec/10_state.md R22, R37, R49), the response vector (spec/30_encoding.md R88) and the
range checks of spec/00_scope.md R12.
-/

namespace Sys2Proof.Machine

/-- The response codes (R211); 8..15 are reserved and never produced. -/
inductive RspCode where
  | ok | eArg | eLen | eRatio | eQrange | eUnconfig | eIllegal | eHalted
  deriving DecidableEq, Repr

/-- The number of a response code (R211). -/
def codeBits : RspCode → BitVec 4
  | .ok => 0
  | .eArg => 1
  | .eLen => 2
  | .eRatio => 3
  | .eQrange => 4
  | .eUnconfig => 5
  | .eIllegal => 6
  | .eHalted => 7

/-- The faults of `IN.SOLVE` (R219). -/
inductive FaultCode where
  | subthreshold | index | overflow
  deriving DecidableEq, Repr

/-- The number of a fault, the value of `FCODE` (R219). -/
def faultBits : FaultCode → BitVec 4
  | .subthreshold => 1
  | .index => 2
  | .overflow => 3

/-- `FAULTREG` after a fault of Integrator unit `n` (R22, R220): FUNIT, FCODE, reserved 0, FAULT. -/
def faultRegOf (n : Nat) (c : FaultCode) : BitVec 16 :=
  fieldAt 16 8 (BitVec.ofNat 8 n) ||| fieldAt 16 4 (faultBits c) ||| fieldAt 16 0 1#1

/-- `FAULTREG.FAULT`, bit 0 (R22). -/
def faultFlag (r : BitVec 16) : Bool := r.getLsbD 0

/-- `FAULTREG.FCODE`, bits 7:4 (R22). -/
def faultCodeField (r : BitVec 16) : BitVec 4 := r.extractLsb' 4 4

/-- `FAULTREG.FUNIT`, bits 15:8 (R22). -/
def faultUnitField (r : BitVec 16) : BitVec 8 := r.extractLsb' 8 8

/-- The layout the two status views share (R37, R49): ERR in bits 7:4, a flag in bit 1, CFGV in bit 0,
the other bits 0. -/
def statusView (err : BitVec 4) (flag cfgv : Bool) : BitVec 16 :=
  fieldAt 16 4 err ||| fieldAt 16 1 (BitVec.ofBool flag) ||| fieldAt 16 0 (BitVec.ofBool cfgv)

/-- `RS.STATUS` (R37). -/
def rsStatus {F : Type} (u : RsUnit F) : BitVec 16 := statusView u.err u.ready u.cfgv

/-- `IN.STATUS` (R49). -/
def inStatus {F : Type} (n : InUnit F) : BitVec 16 := statusView n.err n.ndacv n.cfgv

/-- `RSP` (R88). -/
def responseOf (code : RspCode) (ustatus faultReg : BitVec 16) (value : BitVec 64) : BitVec 128 :=
  fieldAt 128 64 value ||| fieldAt 128 32 faultReg ||| fieldAt 128 16 ustatus |||
    fieldAt 128 0 (codeBits code)

/-- `RSP.CODE`, bits 3:0 (R88). -/
def rspCode (r : BitVec 128) : BitVec 4 := r.extractLsb' 0 4

/-- `RSP.USTATUS`, bits 31:16 (R88). -/
def rspStatus (r : BitVec 128) : BitVec 16 := r.extractLsb' 16 16

/-- `RSP.FAULTREG`, bits 47:32 (R88). -/
def rspFaultReg (r : BitVec 128) : BitVec 16 := r.extractLsb' 32 16

/-- `RSP.VALUE`, bits 127:64 (R88). -/
def rspValue (r : BitVec 128) : BitVec 64 := r.extractLsb' 64 64

/-- `fits_s32(v)` (R12). -/
def fitsS32 (v : Int) : Bool := decide (-2 ^ 31 ≤ v) && decide (v ≤ 2 ^ 31 - 1)

/-- An integer that fits the `ACC_W` bits of `CPS` and `ACC` (R9), as their registers hold it (R11, R12: a
register is only ever given a value that fits). -/
def accOf? {F : Type} (P : Params F) (v : Int) : Option S32 :=
  if -accLimit P ≤ v ∧ v ≤ accLimit P - 1 then some (BitVec.ofInt 32 v) else none

/-- `v >> k`, the floor shift (R12). -/
def floorShift (v : Int) (k : Nat) : Int := v / 2 ^ k

end Sys2Proof.Machine
end

