-- ==== Sys2Proof/Machine/Ops.lean ====
section
/-!
DEFINITION. The named operations over memories, the cache and the units: element reads and writes
(spec/20_memory.md), the checks every command makes first (spec/30_encoding.md R90), success, error
response and fault (spec/60_exceptions.md R210, R214, R220), the halted state (R221) and the hardware
reset (spec/70_reset_and_hazards.md R240), which is the only way out of it.
-/

namespace Sys2Proof.Machine

/-! ### Element memories (R15, R60) -/

/-- The element at an index; an index not listed reads `default` (logs 5 and 17). -/
def Memory.read {α : Type} [Inhabited α] : Memory α → Nat → α
  | [], _ => default
  | (a, x) :: rest, i => if i = a then x else Memory.read rest i

/-- The memory with one element written; the canonical form is kept. -/
def Memory.write {α : Type} [Inhabited α] [DecidableEq α] : Memory α → Nat → α → Memory α
  | [], i, v => if v = default then [] else [(i, v)]
  | (a, x) :: rest, i, v =>
    if i < a then (if v = default then (a, x) :: rest else (i, v) :: (a, x) :: rest)
    else if i = a then (if v = default then rest else (i, v) :: rest)
    else (a, x) :: Memory.write rest i v

/-- A memory of `size` elements that all hold `v`. -/
def Memory.fill {α : Type} [Inhabited α] [DecidableEq α] (size : Nat) (v : α) : Memory α :=
  if v = default then [] else (List.range size).map fun i => (i, v)

/-- The canonical form of a memory of `size` elements: indices in range and strictly rising, no
listed element `default`. -/
def Memory.wf {α : Type} [Inhabited α] [DecidableEq α] (size : Nat) : Memory α → Bool
  | [] => true
  | (a, x) :: rest =>
    decide (a < size) && decide (x ≠ default) && rest.all (fun c => decide (a < c.1)) &&
      Memory.wf size rest

/-- `MemRead(M:start, n)` (R15) of a memory of `size` elements; `none` where an index would be outside
it. A length that is not positive reads no element. -/
def Memory.window {α : Type} [Inhabited α] (size : Nat) (m : Memory α) (start n : Int) :
    Option (List α) :=
  if n ≤ 0 then some []
  else if 0 ≤ start ∧ start + n ≤ size then
    some ((List.range n.toNat).map fun j => m.read (start.toNat + j))
  else none

/-! ### The filter-table cache (R24, R142, R146) -/

/-- The order by which `CACHE` is held. -/
def FilterKey.lt (a b : FilterKey) : Bool :=
  decide (a.len < b.len) ||
    (decide (a.len = b.len) &&
      (decide (a.res < b.res) || (decide (a.res = b.res) && decide (a.rbits < b.rbits))))

/-- `CACHE[key]`, where the key is present. -/
def Cache.find? {F : Type} : Cache F → FilterKey → Option (FilterTable F)
  | [], _ => none
  | (k, t) :: rest, key => if key = k then some t else Cache.find? rest key

/-- The cache with an entry inserted at a key that is not present. A present entry stays: a table is
never mutated (R24). -/
def Cache.insert {F : Type} : Cache F → FilterKey → FilterTable F → Cache F
  | [], key, t => [(key, t)]
  | (k, t') :: rest, key, t =>
    if key = k then (k, t') :: rest
    else if key.lt k then (key, t) :: (k, t') :: rest
    else (k, t') :: Cache.insert rest key t

/-- The cache's form: strictly rising keys. -/
def Cache.wf {F : Type} : Cache F → Bool
  | [] => true
  | (k, _) :: rest => rest.all (fun c => k.lt c.1) && Cache.wf rest

/-! ### Responses (R88, R89) -/

variable {F : Type}

/-- The core is halted (R221). -/
def State.Over.halted (s : State.Over F) : Bool := faultFlag s.faultReg

/-- The status of Resampler unit `u`, 0 where there is no such unit (R88, R221). -/
def State.Over.rsStatusAt (s : State.Over F) (u : Nat) : BitVec 16 :=
  match s.rs[u]? with
  | some unit => rsStatus unit
  | none => 0

/-- The status of Integrator unit `n`, 0 where there is no such unit (R88, R221). -/
def State.Over.inStatusAt (s : State.Over F) (n : Nat) : BitVec 16 :=
  match s.ins[n]? with
  | some unit => inStatus unit
  | none => 0

/-- `respond(code, value)` (R89): the response is built from the state after the command's writes;
VALUE is 0 unless the code is OK (R88). -/
def State.Over.respond (s : State.Over F) (code : RspCode) (ustatus : BitVec 16) (value : BitVec 64)
    : State.Over F :=
  { s with rsp := some (responseOf code ustatus s.faultReg (if code = .ok then value else 0)) }

/-- The response E_ILLEGAL to a frame that addresses no unit: status 0, nothing written (R86, R214). -/
def State.Over.answerIllegal (s : State.Over F) : State.Over F := s.respond .eIllegal 0 0

/-- The response E_HALTED in the halted state: nothing is written (R221). -/
def State.Over.answerHalted (s : State.Over F) (ustatus : BitVec 16)
    : State.Over F := s.respond .eHalted ustatus 0

/-! ### The ways a command ends (R210) -/

/-- Resampler unit `u` is `unit` from now on, and the command responds with its status. -/
def State.Over.rsFinish (s : State.Over F) (u : Nat) (unit : RsUnit F) (code : RspCode) (value : BitVec 64) :
    State.Over F :=
  { s with rs := s.rs.set u unit }.respond code (rsStatus unit) value

/-- Integrator unit `n` is `unit` from now on, and the command responds with its status. -/
def State.Over.inFinish (s : State.Over F) (n : Nat) (unit : InUnit F) (code : RspCode) (value : BitVec 64) :
    State.Over F :=
  { s with ins := s.ins.set n unit }.respond code (inStatus unit) value

/-- Success on a Resampler unit (R210 (a)): ERR is written with 0 (R216). -/
def State.Over.rsOk (s : State.Over F) (u : Nat) (unit : RsUnit F) (value : BitVec 64) : State.Over F :=
  s.rsFinish u { unit with err := codeBits .ok } .ok value

/-- Success on an Integrator unit (R210 (a)): ERR is written with 0 (R216). -/
def State.Over.inOk (s : State.Over F) (n : Nat) (unit : InUnit F) (value : BitVec 64) : State.Over F :=
  s.inFinish n { unit with err := codeBits .ok } .ok value

/-- `error <code>` on a Resampler unit (R15, R214): its ERR is written and nothing else. -/
def State.Over.rsError (s : State.Over F) (u : Nat) (unit : RsUnit F) (code : RspCode) : State.Over F :=
  s.rsFinish u { unit with err := codeBits code } code 0

/-- `error <code>` on an Integrator unit (R15, R214): its ERR is written and nothing else. -/
def State.Over.inError (s : State.Over F) (n : Nat) (unit : InUnit F) (code : RspCode) : State.Over F :=
  s.inFinish n { unit with err := codeBits code } code 0

/-- Fault entry, `raise <fault>(n)` (R15, R220): FAULTREG is written and nothing else; the core halts;
the response is E_HALTED with the unit's status and the new FAULTREG. There is no saved state and no
handler. -/
def State.Over.raise (s : State.Over F) (n : Nat) (c : FaultCode) : State.Over F :=
  { s with faultReg := faultRegOf n c }.respond .eHalted (s.inStatusAt n) 0

/-- Hardware reset (R240), the only way out of the halted state: there is no return from a fault
(R226). The transfer tables and the unit counts stay, and so do the host's events to come; no response
is outstanding (log 10). -/
def State.Over.hardwareReset [Inhabited F] (s : State.Over F) : State.Over F :=
  { State.resetWith s.rs.length s.ins.length s.tt with events := s.events }

/-! ### The checks every command makes first (R90, R225) -/

/-- A command to Resampler unit `u`: the halted check, then the unit-range check, then the command. -/
def onRs (u : Nat) (s : State.Over F) (command : RsUnit F → Result F) : Result F :=
  if s.halted then .next (s.answerHalted (s.rsStatusAt u))
  else
    match s.rs[u]? with
    | none => .next s.answerIllegal
    | some unit => command unit

/-- A command to Integrator unit `n`: the halted check, then the unit-range check, then the command. -/
def onIn (n : Nat) (s : State.Over F) (command : InUnit F → Result F) : Result F :=
  if s.halted then .next (s.answerHalted (s.inStatusAt n))
  else
    match s.ins[n]? with
    | none => .next s.answerIllegal
    | some unit => command unit

/-- A frame whose header is illegal (R86, R90): E_HALTED in the halted state, else E_ILLEGAL; no unit,
so status 0, and nothing is written. -/
def illegalFrame (s : State.Over F) : State.Over F :=
  if s.halted then s.answerHalted 0 else s.answerIllegal

end Sys2Proof.Machine
end

