-- ==== Sys2Proof/Machine/Integrator.lean ====
section
/-!
DEFINITION. The Integrator's commands (spec/43_integrator.md): `IN.CONFIG` (R180 to R184), `IN.SETFC`
(R186), `IN.SETV` (R182, R188) and `IN.SOLVE` (R190 to R198). The definitions take the implementation
parameters, over the type `F` of `NUM`; each `exec…` is the command at the values R9 fixes, on its operand
slots.
-/

namespace Sys2Proof.Machine

variable {F : Type}

/-- `gate_quant(vdc, vth, vmin, n16, m)` (R182). -/
def gateQuant (N : NumOps F) (vdc vth vmin n16 m : F) : Except RspCode U16 :=
  if N.isFinite m && N.lt N.one m && N.lt m (N.ofInt 2) then
    match quant16 N (N.mul n16 (N.sub (N.sub (N.mul vdc m) vth) vmin)) with
    | some q => .ok q
    | none => .error .eQrange
  else .error .eArg

/-- `zext` of a u16 to a result value (R84). -/
def zextValue (q : U16) : BitVec 64 := q.setWidth 64

/-! ### IN.CONFIG -/

/-- The checks of `IN.CONFIG` in R180's order (R181), for a core of `ntt` tables: E_ILLEGAL, E_ARG,
E_QRANGE; the quantized gate voltage where all pass. -/
def checkCalibration (P : Params F) (ntt k : Nat) (vdc vth nkp vmin n16 : F) : Except RspCode U16 :=
  if ntt ≤ k then .error .eIllegal
  else if !(P.num.isFinite vdc && P.num.isFinite vth && P.num.isFinite nkp && P.num.isFinite vmin &&
      P.num.isFinite n16) then
    .error .eArg
  else gateQuant P.num vdc vth vmin n16 (P.num.ofLit P.mDefault)

/-- The unit a successful construction leaves (R184). `NDAC` holds no value then (R45) and the
pseudocode does not write it: it keeps its bits, which no command reads while NDACV is 0 (log 14). -/
def constructedIn (unit : InUnit F) (k : Nat) (vdc vth nkp vmin n16 : F) (q : U16) : InUnit F where
  cfgv := true
  ndacv := false
  err := codeBits .ok
  vc := 0
  vx := 0
  nvgt := q
  ndac := unit.ndac
  vdc := vdc
  vth := vth
  nkp := nkp
  vmin := vmin
  n16 := n16
  ttsel := k

/-- `IN.CONFIG n, k, vdc, vth, nkp, vmin, n16` (R180) under parameters `P`. -/
def inConfigWith (P : Params F) (n k : Nat) (vdc vth nkp vmin n16 : F) (s : State.Over F) : Result F :=
  onIn n s fun unit =>
    match checkCalibration P s.tt.length k vdc vth nkp vmin n16 with
    | .error c => .next (s.inError n unit c)
    | .ok q => .next (s.inOk n (constructedIn unit k vdc vth nkp vmin n16 q) (zextValue q))

/-- `IN.CONFIG` (R180). -/
def execInConfig (n k : Nat) (vdc vth nkp vmin n16 : Slot) (s : State) : Result Sys2Proof.F :=
  inConfigWith params n k (realOf params.num vdc) (realOf params.num vth) (realOf params.num nkp)
    (realOf params.num vmin) (realOf params.num n16) s

/-! ### IN.SETFC and IN.SETV -/

/-- The quantized drive factor of `IN.SETFC` (R186): E_ARG, then E_QRANGE. -/
def driveQuant (P : Params F) (nkp wl : F) : Except RspCode U16 :=
  if P.num.isFinite wl then
    match quant16 P.num (P.num.mul (P.num.mul (P.num.ofInt (2 ^ P.fcScaleLog2)) nkp) wl) with
    | some q => .ok q
    | none => .error .eQrange
  else .error .eArg

/-- `IN.SETFC n, wl` (R186) under parameters `P`. -/
def inSetfcWith (P : Params F) (n : Nat) (wl : F) (s : State.Over F) : Result F :=
  onIn n s fun unit =>
    if !unit.cfgv then .next (s.inError n unit .eUnconfig)
    else
      match driveQuant P unit.nkp wl with
      | .error c => .next (s.inError n unit c)
      | .ok q => .next (s.inOk n { unit with ndac := q, ndacv := true } (zextValue q))

/-- `IN.SETFC` (R186). -/
def execInSetfc (n : Nat) (wl : Slot) (s : State) : Result Sys2Proof.F :=
  inSetfcWith params n (realOf params.num wl) s

/-- `IN.SETV n, m` (R188) under parameters `P`. -/
def inSetvWith (P : Params F) (n : Nat) (m : F) (s : State.Over F) : Result F :=
  onIn n s fun unit =>
    if !unit.cfgv then .next (s.inError n unit .eUnconfig)
    else
      match gateQuant P.num unit.vdc unit.vth unit.vmin unit.n16 m with
      | .error c => .next (s.inError n unit c)
      | .ok q => .next (s.inOk n { unit with nvgt := q } (zextValue q))

/-- `IN.SETV` (R188). -/
def execInSetv (n : Nat) (m : Slot) (s : State) : Result Sys2Proof.F :=
  inSetvWith params n (realOf params.num m) s

/-! ### IN.SOLVE -/

/-- `vgst` (R193). -/
def driveStored (unit : InUnit F) : Int := unit.nvgt.toNat - unit.vx.toInt

/-- `vgdt`, clamped to 0 once the input reaches the threshold (R193). -/
def driveInput (unit : InUnit F) (vi : Int) : Int :=
  if vi < unit.nvgt.toNat then unit.nvgt.toNat - vi else 0

/-- `d`, the difference of the squares of the two drive terms, exactly (R194). -/
def driveDifference (unit : InUnit F) (vi : Int) : Int :=
  driveStored unit * driveStored unit - driveInput unit vi * driveInput unit vi

/-- `i`, the drive current (R194): the shift comes before the multiplication. -/
def driveCurrent (P : Params F) (unit : InUnit F) (vi : Int) : Int :=
  unit.ndac.toNat * floorShift (driveDifference unit vi) P.shCur

/-- `vc`, the new charge (R194). -/
def newCharge (P : Params F) (unit : InUnit F) (vi : Int) : Int :=
  unit.vc.toInt + driveCurrent P unit vi

/-- The table index of a charge (R195). -/
def chargeIndex (P : Params F) (vc : Int) : Int := floorShift vc P.shIdx + P.idxBias

/-- The fault an `IN.SOLVE` raises, the first that applies (R198): F_SUBTHRESHOLD, then F_OVERFLOW on
`d`, `i`, `vc`, then F_INDEX; none where the step goes on. -/
def solveFault (P : Params F) (unit : InUnit F) (vi : Int) : Option FaultCode :=
  if ¬ unit.vx.toInt < unit.nvgt.toNat then some .subthreshold
  else if !fitsS32 (driveDifference unit vi) then some .overflow
  else if !fitsS32 (driveCurrent P unit vi) then some .overflow
  else if !fitsS32 (newCharge P unit vi) then some .overflow
  else if ¬ (0 ≤ chargeIndex P (newCharge P unit vi) ∧ chargeIndex P (newCharge P unit vi) ≤ 65535)
    then some .index
  else none

/-- The result of a step: the new working voltage minus a scaled fraction of the new charge (R197). -/
def solveResult (P : Params F) (vx vc : Int) : Int := vx - floorShift vc P.shOut

/-- `sext` of the s32 result of `IN.SOLVE` to a result value (R84, R190). At R9's shifts and bias the result
fits (R197). Where another setting lets it not fit, the spec states no value: DESIGN CHOICE, safe (log 24),
the command completes with a free value. -/
def sextValue (v : Int) : BitVec 64 :=
  if fitsS32 v then (BitVec.ofInt 32 v).signExtend 64 else Config.wideResult v

/-- `IN.SOLVE n, vi` (R190) under parameters `P`. -/
def inSolveWith (P : Params F) (n : Nat) (vi : Int) (s : State.Over F) : Result F :=
  onIn n s fun unit =>
    if !unit.cfgv || !unit.ndacv then .next (s.inError n unit .eUnconfig)
    else
      match solveFault P unit vi with
      | some c => .next (s.raise n c)
      | none =>
        match s.tt[unit.ttsel]? with
        | none => .fault .transferTable
        | some table =>
          let vc := newCharge P unit vi
          let vx : Int := (table.read (chargeIndex P vc).toNat).toNat
          .next (s.inOk n { unit with vc := BitVec.ofInt 32 vc, vx := BitVec.ofInt 32 vx }
            (sextValue (solveResult P vx vc)))

/-- `IN.SOLVE` (R190). -/
def execInSolve (n : Nat) (vi : Int) (s : State) : Result Sys2Proof.F := inSolveWith params n vi s

end Sys2Proof.Machine
end

