-- ==== Sys2Proof/Machine/FilterDesign.lean ====
section
/-!
DEFINITION. Resampler construction's derivations (spec/41_resampler_config.md R131 to R145): the
argument check, the clock ratio, the six design steps and the filter table. The order of evaluation
is that of R130's pseudocode. A definition takes the operations `N` of the numerics record where
it needs no other parameter, else the parameters `P`.
-/

namespace Sys2Proof.Machine

variable {F : Type}

/-- `fpass <= fs/2`, exactly: the domain of R211's E_ARG (`fpass > fs/2`). -/
def passbandInRange (N : NumOps F) (fs fpass : F) : Bool := decide (2 * N.toRat fpass ≤ N.toRat fs)

/-- `check_args` (R131, R211). R131 names conditions without which it fails; the last of them compares with the
rounded half of `fs`, which can be larger than the half for a subnormal `fs` only. DEDUCED, unsafe there (log
13): an `fpass` above the exact half is E_ARG too, by R211. -/
def checkArgs (N : NumOps F) (fclk fs fpass : F) : Bool :=
  N.isFinite fclk && N.isFinite fs && N.isFinite fpass &&
    N.lt N.zero fclk && N.lt N.zero fs && N.lt N.zero fpass && N.le fpass (N.div fs (N.ofInt 2)) &&
    passbandInRange N fs fpass

/-- `R <- fclk / fs` (R132). -/
def clockRatio (N : NumOps F) (fclk fs : F) : F := N.div fclk fs

/-- `ratio_fixed(R)` (R133): `none` is E_RATIO. R133's bound `2^31 - 1024` is the one of the registers'
width, so that `ACC + CPS` fits them. -/
def ratioFixed (P : Params F) (r : F) : Option Int :=
  if !P.num.isFinite r || P.num.lt r P.num.one then none
  else
    let cps := (P.num.toRat r * 1024).floor
    if cps > accLimit P - 1024 then none else some cps

/-- Step 1, the attenuation `A` (R134). -/
def attenuation (P : Params F) : F := P.num.ofLit P.aDb

/-- Step 2, the transition bandwidth `dw` (R135). -/
def transition (N : NumOps F) (fs fpass : F) : F :=
  N.mul (N.mul (N.sub N.one (N.div (N.mul (N.ofInt 2) fpass) fs)) N.pi) (N.ofInt 2)

/-- Step 3, the Kaiser beta (R136). -/
def kaiserBeta (P : Params F) : F :=
  P.num.mul (P.num.ofLit P.betaK) (P.num.sub (attenuation P) (P.num.ofLit P.betaA0))

/-- Step 3, `I0(beta)`, precomputed once (R136). -/
def kaiserI0Beta (P : Params F) : F := i0 P.num (kaiserBeta P)

/-- Step 4a, the real-valued order `xo` (R137). -/
def realOrder (P : Params F) (dw : F) : F :=
  P.num.div (P.num.sub (attenuation P) (P.num.ofLit P.ordA0)) (P.num.mul (P.num.ofLit P.ordK) dw)

/-- Step 4b, `round_order(xo)`, exact (R138). -/
def roundOrder (P : Params F) (xo : F) : Int :=
  match P.orderRound with
  | .nearestEvenTiesUp => 2 * (P.num.toRat xo / 2 + 1 / 2).floor
  | .nearestIntThenUpToEven =>
    let n := (P.num.toRat xo + 1 / 2).floor
    n + n % 2

/-- Step 4c, the length forced odd, from the scaled order `p` (R139). -/
def oddLength (N : NumOps F) (p : F) : Int :=
  let len := (N.toRat p).floor + 1
  if len % 2 = 0 then len + 1 else len

/-- Steps 4a to 4d, the filter length (R137 to R140): `none` is E_LEN. -/
def filterLength (P : Params F) (r dw : F) : Option Int :=
  let xo := realOrder P dw
  if !P.num.isFinite xo then none
  else
    let p := P.num.mul (P.num.ofInt (roundOrder P xo)) r
    if !P.num.isFinite p then none
    else
      let len := oddLength P.num p
      if len ≥ P.ringHalf then none else some len

/-- Step 5, the phase resolution (R141). Under the reference numerics the quotient is finite at R9's
`RES_ERR_K`. Another one can make it an infinity or a NaN, where R13 gives `toRat` no value and R141 no error:
DESIGN CHOICE, safe (log 25), the construction completes with the free value that `toRat` is there. -/
def phaseResolution (P : Params F) (r : F) : Int :=
  (P.num.toRat
    (P.num.div (P.num.sqrt (P.num.mul (P.num.ofLit P.resErrK) (P.num.ofInt 65536))) r)).ceil

/-- The coefficient `T[i][j]` of a table (R143). -/
def coefficient (P : Params F) (len res : Int) (r beta i0beta : F) (i j : Nat) : F :=
  let N := P.num
  let hf := N.ofInt ((len - 1) / 2)
  let scale := N.div N.one r
  let jphase := N.add (N.div (N.ofInt i) (N.ofInt res)) hf
  let x := N.sub (N.ofInt j) jphase
  let xt := N.div x hf
  let k := kaiser N beta i0beta xt
  let wt := N.div (N.mul N.pi x) r
  N.mul (N.mul scale (sinc P wt)) k

/-- `build_table(len, res, R, beta, I0beta)` (R143): `res` rows of `len` columns. -/
def buildTable (P : Params F) (len res : Int) (r beta i0beta : F) : List (List F) :=
  (List.range res.toNat).map fun i =>
    (List.range len.toNat).map fun j => coefficient P len res r beta i0beta i j

end Sys2Proof.Machine
end

