-- ==== Sys2Proof/Machine/Resampler.lean ====
section
/-!
DEFINITION. The Resampler's commands: `RS.CONFIG` (spec/41_resampler_config.md R130, R146, R148),
`RS.INPUT`, `RS.OUTPUT`, `RS.RESET` (spec/42_resampler_stream.md R160 to R174). The definitions take
the implementation parameters, over the type `F` of `NUM`; each `exec…` is the command at the values R9
fixes, on its operand slots.
-/

namespace Sys2Proof.Machine

variable {F : Type}

/-! ### RS.CONFIG -/

/-- What construction derives from its operands (R130). -/
structure Design (F : Type) where
  len : Int
  res : Int
  ratio : F
  cps : Int
  deriving DecidableEq, Repr

/-- The checks and derivations of `RS.CONFIG` in R130's order (R151): E_ARG, E_RATIO, E_LEN. -/
def designFilter (P : Params F) (fclk fs fpass : F) : Except RspCode (Design F) :=
  if !checkArgs P.num fclk fs fpass then .error .eArg
  else
    let r := clockRatio P.num fclk fs
    match ratioFixed P r with
    | none => .error .eRatio
    | some cps =>
      match filterLength P r (transition P.num fs fpass) with
      | none => .error .eLen
      | some len => .ok ⟨len, phaseResolution P r, r, cps⟩

/-- The table of a key (R143, R147): `beta` and `I0beta` are constants of the core (R136). -/
def tableOfKey (P : Params F) (k : FilterKey) : FilterTable F :=
  buildTable P k.len k.res (P.num.ofBits k.rbits) (kaiserBeta P) (kaiserI0Beta P)

/-- The key of a design (R142). -/
def designKey (P : Params F) (d : Design F) : FilterKey := ⟨d.len, d.res, P.num.bits d.ratio⟩

/-- Lookup-or-build (R72, R146): a present entry stays, else the finished table is inserted. -/
def lookupOrBuild (P : Params F) (c : Cache F) (k : FilterKey) : Cache F :=
  match c.find? k with
  | some _ => c
  | none => c.insert k (tableOfKey P k)

/-- The history CONFIG and RS.RESET leave (R148, R174): every element `F.zero`. -/
def silentHistory [Inhabited F] [DecidableEq F] (P : Params F) : Memory F :=
  Memory.fill (2 * P.ringHalf) P.num.zero

/-- The unit a successful construction leaves (R148). -/
def constructedRs [Inhabited F] [DecidableEq F] (P : Params F) (d : Design F) : RsUnit F where
  cfgv := true
  ready := false
  err := codeBits .ok
  hist := silentHistory P
  cur := 0
  cps := BitVec.ofInt 32 d.cps
  acc := 0
  out := P.num.zero
  len := d.len
  res := d.res
  rbits := P.num.bits d.ratio

/-- VALUE of `RS.CONFIG`: `{RES[31:0], L[31:0]}` (R84). -/
def configValue (d : Design F) : BitVec 64 :=
  fieldAt 64 32 (BitVec.ofInt 32 d.res) ||| fieldAt 64 0 (BitVec.ofInt 32 d.len)

/-- `RS.CONFIG u, fclk, fs, fpass` (R130) under parameters `P`. -/
def rsConfigWith [Inhabited F] [DecidableEq F] (P : Params F) (u : Nat) (fclk fs fpass : F)
    (s : State.Over F) : Result F :=
  onRs u s fun unit =>
    match designFilter P fclk fs fpass with
    | .error c => .next (s.rsError u unit c)
    | .ok d =>
      .next ({ s with cache := lookupOrBuild P s.cache (designKey P d) }.rsOk u (constructedRs P d)
        (configValue d))

/-- `RS.CONFIG` (R130). -/
def execRsConfig (u : Nat) (fclk fs fpass : Slot) (s : State) : Result Sys2Proof.F :=
  rsConfigWith params u (realOf params.num fclk) (realOf params.num fs) (realOf params.num fpass) s

/-! ### RS.INPUT -/

/-- The mirrored write of a sample and the advance of the cursor (R65); `none` where the cursor is not
an index of the first half (log 15). -/
def pushSample [Inhabited F] [DecidableEq F] (P : Params F) (unit : RsUnit F) (x : F) : Option (RsUnit F) :=
  if unit.cur < P.ringHalf then
    some { unit with
      hist := (unit.hist.write unit.cur x).write (unit.cur + P.ringHalf) x
      cur := (unit.cur + 1) % P.ringHalf }
  else none

/-- The unit's key (R34). -/
def unitKey (unit : RsUnit F) : FilterKey := ⟨unit.len, unit.res, unit.rbits⟩

/-- `MemRead(T:(row, 0), L)` (R67): the whole row, of `len` columns; of none where `len` is below 1 (log 27). -/
def tableRow (t : FilterTable F) (len row : Int) : Except Fault (List F) :=
  if row < 0 then .error .filterTable
  else
    match t[row.toNat]? with
    | some cols => if cols.length = len.toNat then .ok cols else .error .filterTable
    | none => .error .filterTable

/-- `MemRead(HIST[u]:start, L)` (R66). DEDUCED (log 27): an `L` below 1 reads no element. -/
def historyWindow [Inhabited F] (P : Params F) (unit : RsUnit F) (start : Int) : Except Fault (List F) :=
  match unit.hist.window (2 * P.ringHalf) start unit.len with
  | some xs => .ok xs
  | none => .error .historyIndex

/-- One of `fir`'s two convolutions (R162): a window of the history against a row of the table, the
oldest sample against column 0 (R164). -/
def convolveAt [Inhabited F] (P : Params F) (unit : RsUnit F) (t : FilterTable F) (start row : Int)
    : Except Fault F :=
  match historyWindow P unit start, tableRow t unit.len row with
  | .ok xs, .ok cols => .ok (convolve P.num xs cols)
  | .error f, _ => .error f
  | _, .error f => .error f

/-- The start of the base window, with the advanced cursor (R66). -/
def windowStart (P : Params F) (unit : RsUnit F) : Int := unit.cur - unit.len + P.ringHalf - 1

/-- The interpolation (R165): one subtraction, one multiplication, one addition. -/
def interpolate (N : NumOps F) (v1 v2 : F) (rem : Int) : F :=
  N.add v1 (N.mul (N.div (N.ofInt rem) (N.ofInt 1024)) (N.sub v2 v1))

/-- `fir(u, phase)` (R162 to R165), the phase being the unit's accumulator and the cursor advanced. -/
def fir [Inhabited F] (P : Params F) (cache : Cache F) (unit : RsUnit F) : Except Fault F :=
  if unit.acc.toInt < 0 then .error .accumulator
  else
    match cache.find? (unitKey unit) with
    | none => .error .filterTable
    | some t =>
      let p := unit.acc.toInt * unit.res
      let row := p / 1024
      let start := windowStart P unit
      let wraps := row + 1 = unit.res
      let row2 := if wraps then 0 else row + 1
      let start2 := if wraps then start + 1 else start
      match convolveAt P unit t start row, convolveAt P unit t start2 row2 with
      | .ok v1, .ok v2 => .ok (interpolate P.num v1 v2 (p % 1024))
      | .error f, _ => .error f
      | _, .error f => .error f

/-- An output is due in this input (R160): the accumulator is below one output-period unit. -/
def outputDue (unit : RsUnit F) : Bool := decide (unit.acc.toInt < phaseOne)

/-- The accumulator after an input (R160, R170): the ratio is added when an output was produced, and
1024 is taken away in any case; each result must fit the register (R12). -/
def advanceAcc (P : Params F) (unit : RsUnit F) : Option S32 :=
  if outputDue unit then
    match accOf? P (unit.acc.toInt + unit.cps.toInt) with
    | some a => accOf? P (a.toInt - phaseOne)
    | none => none
  else accOf? P (unit.acc.toInt - phaseOne)

/-- The unit after an input (R160): the sample is stored, and where an output is due it is computed. -/
def inputUnit [Inhabited F] [DecidableEq F] (P : Params F) (cache : Cache F) (unit : RsUnit F) (x : F)
    : Except Fault (RsUnit F) :=
  match pushSample P unit x, advanceAcc P unit with
  | none, _ => .error .historyIndex
  | some _, none => .error .accumulator
  | some pushed, some acc =>
    if outputDue unit then
      match fir P cache pushed with
      | .ok y => .ok { pushed with out := y, ready := true, acc := acc }
      | .error f => .error f
    else .ok { pushed with ready := false, acc := acc }

/-- `RS.INPUT u, x` (R160) under parameters `P`. -/
def rsInputWith [Inhabited F] [DecidableEq F] (P : Params F) (u : Nat) (x : F) (s : State.Over F) : Result F :=
  onRs u s fun unit =>
    if !unit.cfgv then .next (s.rsError u unit .eUnconfig)
    else
      match inputUnit P s.cache unit x with
      | .ok unit' => .next (s.rsOk u unit' 0)
      | .error f => .fault f

/-- `RS.INPUT` (R160). -/
def execRsInput (u : Nat) (x : Slot) (s : State) : Result Sys2Proof.F :=
  rsInputWith params u (realOf params.num x) s

/-! ### RS.OUTPUT and RS.RESET -/

/-- `RS.OUTPUT u` (R172) under parameters `P`: the last produced sample, at any time; READY is not
cleared. -/
def rsOutputWith (P : Params F) (u : Nat) (s : State.Over F) : Result F :=
  onRs u s fun unit =>
    if !unit.cfgv then .next (s.rsError u unit .eUnconfig)
    else .next (s.rsOk u unit (P.num.bits unit.out))

/-- `RS.OUTPUT` (R172). -/
def execRsOutput (u : Nat) (s : State) : Result Sys2Proof.F := rsOutputWith params u s

/-- The unit `RS.RESET` leaves (R174): history, accumulator and READY zeroed, all else kept. -/
def clearedRs [Inhabited F] [DecidableEq F] (P : Params F) (unit : RsUnit F) : RsUnit F :=
  { unit with hist := silentHistory P, acc := 0, ready := false }

/-- `RS.RESET u` (R174) under parameters `P`. -/
def rsResetWith [Inhabited F] [DecidableEq F] (P : Params F) (u : Nat) (s : State.Over F) : Result F :=
  onRs u s fun unit =>
    if !unit.cfgv then .next (s.rsError u unit .eUnconfig)
    else .next (s.rsOk u (clearedRs P unit) 0)

/-- `RS.RESET` (R174). -/
def execRsReset (u : Nat) (s : State) : Result Sys2Proof.F := rsResetWith params u s

end Sys2Proof.Machine
end

