-- ==== Sys2Proof/Machine/Dispatch.lean ====
section
/-!
DEFINITION. The meaning of every command (spec/30_encoding.md R84): one arm per constructor.
-/

namespace Sys2Proof.Machine

def exec (i : Instr) (s : State) : Host.Outcome State Fault Refusal :=
  match i with
  | .rsConfig unit fclk fs fpass => Sys2Proof.Machine.execRsConfig unit fclk fs fpass s
  | .rsInput unit x => Sys2Proof.Machine.execRsInput unit x s
  | .rsOutput unit => Sys2Proof.Machine.execRsOutput unit s
  | .rsReset unit => Sys2Proof.Machine.execRsReset unit s
  | .inConfig unit k vdc vth nkp vmin n16 => Sys2Proof.Machine.execInConfig unit k vdc vth nkp vmin n16 s
  | .inSetfc unit wl => Sys2Proof.Machine.execInSetfc unit wl s
  | .inSetv unit m => Sys2Proof.Machine.execInSetv unit m s
  | .inSolve unit vi => Sys2Proof.Machine.execInSolve unit vi s

end Sys2Proof.Machine
end

