-- ==== Sys2Proof/WellFormed.lean ====
section
/-!
DEFINITION. Which commands a frame can carry (spec/30_encoding.md R81, R83): the unit index fits the
8-bit UNIT field, a table select fits its 8 bits, an `s32` operand fits 32 bits signed. Whether the
core has such a unit or table is no matter of form: the command then responds E_ILLEGAL (R86).
-/

namespace Sys2Proof

/-- The unit index fits `HDR[7:0]` (R81). -/
def unitFits (u : Nat) : Bool := decide (u < 256)

/-- A table select fits `W[7:0]` (R83). -/
def tselFits (k : Nat) : Bool := decide (k < 256)

/-- An `s32` operand is in -2^31..2^31-1 (R11, R83). -/
def s32Fits (v : Int) : Bool := decide (-2 ^ 31 ≤ v) && decide (v ≤ 2 ^ 31 - 1)

/-- A command some frame encodes. -/
def Instr.WellFormed : Instr → Bool
  | .rsConfig u _ _ _ => unitFits u
  | .rsInput u _ => unitFits u
  | .rsOutput u => unitFits u
  | .rsReset u => unitFits u
  | .inConfig u k _ _ _ _ _ => unitFits u && tselFits k
  | .inSetfc u _ => unitFits u
  | .inSetv u _ => unitFits u
  | .inSolve u vi => unitFits u && s32Fits vi

end Sys2Proof
end

