-- ==== Sys2Proof/Decode.lean ====
section
/-!
DEFINITION. The decoder and the encoder of command frames (spec/30_encoding.md R81 to R87, the opcode
map R84), the byte order of a byte-serial transport (spec/20_memory.md R62, D38) and the textual form
of a command (R92).
-/

namespace Sys2Proof

open Machine

/-- Why a frame is no command. -/
inductive DecodeError where
  /-- `HDR[15:8]` is none of the eight defined values (R86): the core responds E_ILLEGAL. -/
  | illegalHeader
  /-- The number of slots is not the header's `n` (R81, R82): these bits are no frame at all. -/
  | notAFrame
  deriving DecidableEq, Repr

/-- The rows of the opcode map (R84). -/
inductive Row where
  | rsConfig | rsInput | rsOutput | rsReset | inConfig | inSetfc | inSetv | inSolve
  deriving DecidableEq, Repr

/-- The `match` value of a row, its `HDR[15:8]` (R84; every row's `mask` is 0xFF00). -/
def opcodeOf : Row → BitVec 8
  | .rsConfig => 0x00
  | .rsInput => 0x01
  | .rsOutput => 0x02
  | .rsReset => 0x03
  | .inConfig => 0x10
  | .inSetfc => 0x11
  | .inSetv => 0x12
  | .inSolve => 0x13

/-- The row a header selects; `none` is an illegal header (R84, R86). -/
def rowOf (h : Header) : Option Row :=
  [Row.rsConfig, .rsInput, .rsOutput, .rsReset, .inConfig, .inSetfc, .inSetv, .inSolve].find?
    fun r => headerOpcode h == opcodeOf r

/-- The number of operand slots of a row (R84). -/
def rowSlots : Row → Nat
  | .rsConfig => 3
  | .rsInput => 1
  | .rsOutput => 0
  | .rsReset => 0
  | .inConfig => 6
  | .inSetfc => 1
  | .inSetv => 1
  | .inSolve => 1

/-- The number `n` of operand slots, from `HDR[15:8]` alone (R82, R84); an undefined value has 0. -/
def slotCount (h : Header) : Nat :=
  match rowOf h with
  | some r => rowSlots r
  | none => 0

/-- Whether `HDR[15:8]` is one of the eight defined values (R84, R86). -/
def headerLegal (h : Header) : Bool := (rowOf h).isSome

/-- The one slot of a frame that has one, as an operand. -/
def oneSlot (slots : List Slot) (command : Slot → Instr) : Option Instr :=
  match slots with
  | [w0] => some (command w0)
  | _ => none

/-- The command of a row on unit `u` over its slots (R84); `none` where they are not the row's number. -/
def commandOfRow (r : Row) (u : Nat) (slots : List Slot) : Option Instr :=
  match r with
  | .rsConfig =>
    match slots with
    | [w0, w1, w2] => some (.rsConfig u w0 w1 w2)
    | _ => none
  | .rsInput => oneSlot slots fun w0 => .rsInput u w0
  | .rsOutput => if slots = [] then some (.rsOutput u) else none
  | .rsReset => if slots = [] then some (.rsReset u) else none
  | .inConfig =>
    match slots with
    | [w0, w1, w2, w3, w4, w5] =>
      some (.inConfig u (tselOf w0) w1 w2 w3 w4 w5)
    | _ => none
  | .inSetfc => oneSlot slots fun w0 => .inSetfc u w0
  | .inSetv => oneSlot slots fun w0 => .inSetv u w0
  | .inSolve => oneSlot slots fun w0 => .inSolve u (s32Of w0)

/-- The decoder (R84, R86): a frame's command, or why it is none. -/
def decode (f : Frame) : Except DecodeError Instr :=
  match rowOf f.hdr with
  | none => if f.slots = [] then .error .illegalHeader else .error .notAFrame
  | some r =>
    match commandOfRow r (headerUnit f.hdr) f.slots with
    | some i => .ok i
    | none => .error .notAFrame

/-- The encoder, from the same opcode map (R81, R83, R84). -/
def encode : Instr → Frame
  | .rsConfig u fclk fs fpass => ⟨header (opcodeOf .rsConfig) u, [fclk, fs, fpass]⟩
  | .rsInput u x => ⟨header (opcodeOf .rsInput) u, [x]⟩
  | .rsOutput u => ⟨header (opcodeOf .rsOutput) u, []⟩
  | .rsReset u => ⟨header (opcodeOf .rsReset) u, []⟩
  | .inConfig u k vdc vth nkp vmin n16 =>
    ⟨header (opcodeOf .inConfig) u,
      [tselSlot k, vdc, vth, nkp, vmin, n16]⟩
  | .inSetfc u wl => ⟨header (opcodeOf .inSetfc) u, [wl]⟩
  | .inSetv u m => ⟨header (opcodeOf .inSetv) u, [m]⟩
  | .inSolve u vi => ⟨header (opcodeOf .inSolve) u, [s32Slot vi]⟩

/-- The frame whose bits are `w`'s low `nbits` bits and zeros above them: the header is `w[15:0]`,
slot `W<j>` is `w[64*j+79 : 64*j+16]` (R81). -/
def frameOfTableWord (nbits w : Nat) : Frame :=
  let v := w % 2 ^ nbits
  let h := BitVec.ofNat 16 v
  ⟨h, (List.range (slotCount h)).map fun j => BitVec.ofNat 64 (v / 2 ^ (16 + 64 * j))⟩

/-- The instruction the decoder reads from an instruction whose bits are `w`, numbered as
spec/opcode_table.json numbers them. -/
def decodeTableWord (nbits w : Nat) : Option Instr :=
  match decode (frameOfTableWord nbits w) with
  | .ok i => some i
  | .error _ => none

/-- The `k` low bytes of `v`, the least significant first. -/
def leBytes : Nat → Nat → List (BitVec 8)
  | 0, _ => []
  | k + 1, v => BitVec.ofNat 8 v :: leBytes k (v / 256)

/-- The number whose bytes, the least significant first, are these. -/
def ofLeBytes : List (BitVec 8) → Nat
  | [] => 0
  | b :: bs => b.toNat + 256 * ofLeBytes bs

/-- A frame over a byte-serial transport (R62, D38): little-endian, the header first, then the slots
in order. -/
def Frame.toBytes (f : Frame) : List (BitVec 8) :=
  leBytes 2 f.hdr.toNat ++ f.slots.flatMap fun w => leBytes 8 w.toNat

/-- `n` slots from the front of a byte stream, and the bytes after them. -/
def takeSlots : Nat → List (BitVec 8) → Option (List Slot × List (BitVec 8))
  | 0, bs => some ([], bs)
  | n + 1, bs =>
    if bs.length < 8 then none
    else
      match takeSlots n (bs.drop 8) with
      | some (ws, rest) => some (BitVec.ofNat 64 (ofLeBytes (bs.take 8)) :: ws, rest)
      | none => none

/-- The first frame of a byte stream and the bytes after it; its length is told by the header alone
(R62, R82). `none` where the stream ends inside the frame. -/
def frameOfBytes (bs : List (BitVec 8)) : Option (Frame × List (BitVec 8)) :=
  if bs.length < 2 then none
  else
    let h : Header := BitVec.ofNat 16 (ofLeBytes (bs.take 2))
    match takeSlots (slotCount h) (bs.drop 2) with
    | some (ws, rest) => some (⟨h, ws⟩, rest)
    | none => none

/-- The mnemonic of R84. -/
def mnemonic : Instr → String
  | .rsConfig .. => "RS.CONFIG"
  | .rsInput .. => "RS.INPUT"
  | .rsOutput .. => "RS.OUTPUT"
  | .rsReset .. => "RS.RESET"
  | .inConfig .. => "IN.CONFIG"
  | .inSetfc .. => "IN.SETFC"
  | .inSetv .. => "IN.SETV"
  | .inSolve .. => "IN.SOLVE"

/-- An upper-case hexadecimal digit. -/
def hexDigit (d : Nat) : Char := "0123456789ABCDEF".toList.getD d '0'

/-- The slot's bit pattern as `0x` and 16 hexadecimal digits (R92's second form of a `real`). -/
def realText (x : F) : String :=
  "0x" ++ String.ofList ((List.range 16).reverse.map fun j => hexDigit (x.toNat / 16 ^ j % 16))

/-- The operands in R92's textual form. -/
def operandTexts : Instr → List String
  | .rsConfig _ fclk fs fpass => [realText fclk, realText fs, realText fpass]
  | .rsInput _ x => [realText x]
  | .rsOutput _ => []
  | .rsReset _ => []
  | .inConfig _ k vdc vth nkp vmin n16 =>
    [toString k, realText vdc, realText vth, realText nkp, realText vmin, realText n16]
  | .inSetfc _ wl => [realText wl]
  | .inSetv _ m => [realText m]
  | .inSolve _ vi => [toString vi]

/-- The unit a command addresses (R81). -/
def unitOf : Instr → Nat
  | .rsConfig u _ _ _ => u
  | .rsInput u _ => u
  | .rsOutput u => u
  | .rsReset u => u
  | .inConfig u _ _ _ _ _ _ => u
  | .inSetfc u _ => u
  | .inSetv u _ => u
  | .inSolve u _ => u

/-- R92's textual form of a command, with every `real` operand as its slot's bit pattern. -/
def commandText (i : Instr) : String :=
  String.intercalate ", " ((mnemonic i ++ " " ++ toString (unitOf i)) :: operandTexts i)

end Sys2Proof
end

