-- ==== Sys2Proof/Machine/Fetch.lean ====
section
/-!
DEFINITION. How the core takes the host's next event from the stream (spec/00_scope.md R19,
spec/30_encoding.md R80, R90; logs 7 and 9).
-/

namespace Sys2Proof.Machine

/-- What the core does next. -/
inductive Fetched where
  /-- No event: the core waits for the first or next command frame (R242). -/
  | idle
  /-- The hardware reset is asserted (R240). -/
  | reset
  /-- A frame with an illegal header is presented (R86). -/
  | illegal
  /-- Bits that are no frame are presented (log 11). -/
  | notAFrame
  /-- A command is presented. -/
  | command (i : Instr)
  deriving DecidableEq, Repr

/-- The host's next event, decoded (R84, R86). -/
def fetch {F : Type} (s : State.Over F) : Fetched :=
  match s.events with
  | [] => .idle
  | .hardwareReset :: _ => .reset
  | .frame f :: _ =>
    match decode f with
    | .ok i => .command i
    | .error .illegalHeader => .illegal
    | .error .notAFrame => .notAFrame

/-- The state with the next event taken from the stream. -/
def State.Over.takeEvent {F : Type} (s : State.Over F) : State.Over F := { s with events := s.events.tail }

/-- One step of a core that runs a command by `run`: the host's next event, taken and carried out. With no
event the core waits and nothing changes (R19, R242; log 9). -/
def stepBy {F : Type} [Inhabited F] (run : Instr → State.Over F → Result F) (s : State.Over F) : Result F :=
  match fetch s with
  | .idle => .next s
  | .reset => .next s.takeEvent.hardwareReset
  | .illegal => .next (illegalFrame s.takeEvent)
  | .notAFrame => .refused .notAFrame
  | .command i => run i s.takeEvent

/-- The state in which the host's next event is the presentation of `f`. -/
def State.Over.present {F : Type} (s : State.Over F) (f : Frame) : State.Over F :=
    { s with events := .frame f :: s.events }

end Sys2Proof.Machine
end

