-- ==== Sys2Proof/Machine/Step.lean ====
section
/-!
DEFINITION. One step of the core: the host's next event, taken and carried out as one atomic
transition (spec/00_scope.md R16, R19; spec/20_memory.md R70).
-/

namespace Sys2Proof.Machine

/-- One step of the core at the parameter values R9 fixes. -/
def step (s : State) : Host.Outcome State Fault Refusal := stepBy exec s

/-- `s` with the instruction whose bits are `w` (zeros above `nbits`) presented as the host's next
event, which is where `step` takes its next command from (log 7). -/
def State.withFetchWord (s : State) (nbits w : Nat) : State := s.present (frameOfTableWord nbits w)

end Sys2Proof.Machine
end

