-- ==== Sys2Proof/Machine/Parametric.lean ====
section
/-!
DEFINITION. The core as a function of the implementation parameters (spec/00_scope.md R9): its commands, its
step, its reset state and the machine, each with the parameters, `NUM` and its type `F` among them, and the
contents of the transfer tables as arguments. `exec` and `step` are the ones at the values R9 fixes.
-/

namespace Sys2Proof.Machine

variable {F : Type} [Inhabited F]

/-- The meaning of every command under parameters `P`, each `real` operand read by `NUM.ofBits` (R83, R84). -/
def execWith [DecidableEq F] (P : Params F) (i : Instr) (s : State.Over F) : Result F :=
  let real := realOf P.num
  match i with
  | .rsConfig u fclk fs fpass => rsConfigWith P u (real fclk) (real fs) (real fpass) s
  | .rsInput u x => rsInputWith P u (real x) s
  | .rsOutput u => rsOutputWith P u s
  | .rsReset u => rsResetWith P u s
  | .inConfig n k vdc vth nkp vmin n16 =>
    inConfigWith P n k (real vdc) (real vth) (real nkp) (real vmin) (real n16) s
  | .inSetfc n wl => inSetfcWith P n (real wl) s
  | .inSetv n m => inSetvWith P n (real m) s
  | .inSolve n vi => inSolveWith P n vi s

/-- One step of the core under parameters `P`. -/
def stepWith [DecidableEq F] (P : Params F) (s : State.Over F) : Result F := stepBy (execWith P) s

/-- The state after hardware reset under parameters `P`, with transfer tables of the given contents (R25,
R240). -/
def resetFor (P : Params F) (tables : List (Memory U16)) : State.Over F := State.resetWith P.nrs P.nin tables

/-- The arguments of the model (R9): the numerics record with its type `F` (R13), the settings, and the
contents of the transfer tables. -/
structure Implementation where
  num : Num
  settings : Settings
  tables : List (Memory U16)

/-- The parameters of an implementation. -/
def paramsOf (I : Implementation) : Params I.num.F := { I.settings with num := I.num.ops }

/-- The machine of an implementation. What an unspecified register or a history element nothing has written
holds is `F.zero` (logs 6 and 17). -/
def coreWith (I : Implementation) : Host.Core :=
  letI : DecidableEq I.num.F := I.num.decEq
  letI : Inhabited I.num.F := ⟨I.num.ops.zero⟩
  { State := State.Over I.num.F
    Fault := Fault
    Refusal := Refusal
    step := stepWith (paramsOf I)
    reset := resetFor (paramsOf I) I.tables }

end Sys2Proof.Machine
end

