-- ==== Sys2Proof/Safety.lean ====
section
/-!
DEFINITION. What a safe state is: the invariants spec/10_state.md states of the registers, memories and
the cache, gathered in one predicate; and the run of a sample sequence through a Resampler unit, in
the terms of spec/42_resampler_stream.md R171 and R176.
-/

namespace Sys2Proof.Machine

section invariants
variable {F : Type}

/-- A Resampler unit in a core whose cache is `c`, under parameters `P`. -/
structure RsSound [Inhabited F] [DecidableEq F] (P : Params F) (c : Cache F) (unit : RsUnit F) :
    Prop where
  /-- The history memory has its canonical form over `2*H` elements. -/
  histForm : unit.hist.wf (2 * P.ringHalf) = true
  /-- Every sample is stored twice (R27). -/
  mirrored : ∀ k < P.ringHalf, unit.hist.read k = unit.hist.read (k + P.ringHalf)
  /-- ERR is a code a command can be refused with, or 0 (R36, R216). -/
  errCode : unit.err.toNat ≤ 6
  /-- `CUR` is in 0..H-1 (R28). -/
  cursor : unit.cfgv = true → unit.cur < P.ringHalf
  /-- `L` is odd (R32); that it is at least 7 is `State.Over.LengthsInRange`. -/
  lenOdd : unit.cfgv = true → unit.len % 2 = 1
  /-- `L` is strictly less than `H` (R32). -/
  lenShort : unit.cfgv = true → unit.len < P.ringHalf
  /-- `RES` is positive (R33). -/
  resPositive : unit.cfgv = true → 1 ≤ unit.res
  /-- `1024 <= CPS <= 2^31-1024` (R29), for registers of 32 bits. -/
  ratio : unit.cfgv = true → 1024 ≤ unit.cps.toInt ∧ unit.cps.toInt ≤ accLimit P - 1024
  /-- `CPS` is `trunc(R * 1024)` for the clock ratio `R` whose pattern is `RBITS` (R29, R34). -/
  ratioTruncated : unit.cfgv = true →
    unit.cps.toInt = (P.num.toRat (P.num.ofBits unit.rbits) * 1024).floor
  /-- `0 <= ACC < CPS` (R30, R170). -/
  phase : unit.cfgv = true → 0 ≤ unit.acc.toInt ∧ unit.acc.toInt < unit.cps.toInt
  /-- `CACHE` has an entry at the unit's key (R34), and it is the table of that key (R147). -/
  table : unit.cfgv = true → c.find? (unitKey unit) = some (tableOfKey P (unitKey unit))

/-- An Integrator unit in a core of `ntt` transfer tables. -/
structure InSound (ntt : Nat) (unit : InUnit F) : Prop where
  /-- ERR is a code a command can be refused with, or 0 (R48, R216). -/
  errCode : unit.err.toNat ≤ 6
  /-- NDACV is set on constructed units only (R45). -/
  driven : unit.ndacv = true → unit.cfgv = true
  /-- `TTSEL` selects a transfer table (R47). -/
  selected : unit.cfgv = true → unit.ttsel < ntt
  /-- `0 <= VX <= 65535` (R42). -/
  voltage : 0 ≤ unit.vx.toInt ∧ unit.vx.toInt ≤ 65535

/-- The cache has its canonical form, every key is one (R24), and every entry is the table of its key
(R147). -/
structure CacheSound (P : Params F) (c : Cache F) : Prop where
  form : c.wf = true
  /-- A key's length is odd (R24); that it is at least 7 is `State.Over.LengthsInRange`. -/
  keyLength : ∀ e ∈ c, e.1.len % 2 = 1
  /-- A key's phase resolution is positive (R24). -/
  keyResolution : ∀ e ∈ c, 1 ≤ e.1.res
  coherent : ∀ e ∈ c, e.2 = tableOfKey P e.1

/-- `FAULTREG` (R22): all 0, or FAULT with one of the three codes and an existing Integrator unit. -/
def FaultRegSound (nin : Nat) (r : BitVec 16) : Prop :=
  r = 0 ∨ ∃ n c, n < nin ∧ r = faultRegOf n c

/-- A response standing at the port agrees with `FAULTREG`, and its code is E_HALTED exactly when the
core is halted (R88, R211). -/
def ResponseSound (s : State.Over F) : Prop :=
  ∀ r, s.rsp = some r → rspFaultReg r = s.faultReg ∧ (rspCode r = codeBits .eHalted ↔ s.halted = true)

/-- A state of the core under parameters `P` as its runs leave it. -/
structure State.Over.Sound [Inhabited F] [DecidableEq F] (P : Params F) (s : State.Over F) : Prop where
  /-- `NRS` is in 1..256 (R9). -/
  rsCount : 1 ≤ s.rs.length ∧ s.rs.length ≤ 256
  /-- `NIN` is in 1..256 (R9). -/
  inCount : 1 ≤ s.ins.length ∧ s.ins.length ≤ 256
  /-- `NTT` is in 1..256 (R9). -/
  ttCount : 1 ≤ s.tt.length ∧ s.tt.length ≤ 256
  /-- Every transfer table has its canonical form over 65536 entries (R25). -/
  tables : ∀ m ∈ s.tt, m.wf 65536 = true
  resamplers : ∀ unit ∈ s.rs, RsSound P s.cache unit
  integrators : ∀ unit ∈ s.ins, InSound s.tt.length unit
  cache : CacheSound P s.cache
  fault : FaultRegSound s.ins.length s.faultReg
  response : ResponseSound s

/-- Every constructed unit and every key has a length of at least 7, so a positive one (R24, R32, R56). An
invariant at R9's values, where R139 infers it, and not under every setting of the constants of R137 (log
21), so it stands beside `State.Over.Sound`. -/
structure State.Over.LengthsInRange (s : State.Over F) : Prop where
  units : ∀ unit ∈ s.rs, unit.cfgv = true → 7 ≤ unit.len
  keys : ∀ e ∈ s.cache, 7 ≤ e.1.len

end invariants

/-- The frames the host presents are frames: each has its header's number of slots (R81, R82). -/
def HostEvent.legal : HostEvent → Bool
  | .frame f => f.slots.length == slotCount f.hdr
  | .hardwareReset => true

/-- Feed samples to Resampler unit `u`, one `RS.INPUT` after the other: for each, the output sample
where the response is READY, else none; and the state at the end. `none` where a step stops. -/
def feed (u : Nat) : List F → State → Option (List (Option F) × State)
  | [], s => some ([], s)
  | x :: xs, s =>
    match exec (.rsInput u x) s with
    | .next t =>
      match t.rs[u]?, feed u xs t with
      | some unit, some (ys, t') => some ((if unit.ready then some unit.out else none) :: ys, t')
      | _, _ => none
    | _ => none

/-- A unit as CONFIG and RS.RESET leave it (R27, R30): zero history, zero accumulator. -/
structure Silent {F : Type} [Inhabited F] (P : Params F) (unit : RsUnit F) : Prop where
  history : ∀ k < 2 * P.ringHalf, unit.hist.read k = P.num.zero
  accumulator : unit.acc = 0

/-- Everything but the response port. -/
def State.Over.quiet (s : State) : State := { s with rsp := none }

/-- Whether a command is of the class `RS` (R81); the others are of the class `IN`. -/
def resamplerCommand : Instr → Bool
  | .rsConfig .. => true
  | .rsInput .. => true
  | .rsOutput .. => true
  | .rsReset .. => true
  | .inConfig .. => false
  | .inSetfc .. => false
  | .inSetv .. => false
  | .inSolve .. => false

/-- The core has the unit a command addresses (R81, R86). -/
def unitPresent (i : Instr) (s : State) : Prop :=
  if resamplerCommand i then unitOf i < s.rs.length else unitOf i < s.ins.length

/-- The status of the unit a command addresses, 0 where there is none (R88). -/
def addressedStatus (i : Instr) (s : State) : BitVec 16 :=
  if resamplerCommand i then s.rsStatusAt (unitOf i) else s.inStatusAt (unitOf i)

/-- The ERR field of the unit a command addresses (R36, R48). -/
def addressedErr (i : Instr) (s : State) : Option (BitVec 4) :=
  if resamplerCommand i then s.rs[unitOf i]?.map (·.err) else s.ins[unitOf i]?.map (·.err)

/-- Two commands address different units. -/
def differentUnits (i j : Instr) : Prop :=
  resamplerCommand i ≠ resamplerCommand j ∨ unitOf i ≠ unitOf j

/-- The Resampler units with every ERR field blanked. -/
def State.Over.rsNoErr (s : State) : List (RsUnit F) := s.rs.map fun u => { u with err := 0 }

/-- The Integrator units with every ERR field blanked. -/
def State.Over.inNoErr (s : State) : List (InUnit F) := s.ins.map fun n => { n with err := 0 }

/-- What of a Resampler unit can be observed: nothing but its flags and ERR while it is not configured
(R52). -/
def RsUnit.observable (unit : RsUnit F) : RsUnit F :=
  if unit.cfgv then unit else { RsUnit.reset with ready := unit.ready, err := unit.err }

/-- What of an Integrator unit can be observed: nothing but its flags and ERR while it is not configured,
and not `NDAC` while NDACV is 0 (R45, R52). -/
def InUnit.observable (unit : InUnit F) : InUnit F :=
  if unit.cfgv then (if unit.ndacv then unit else { unit with ndac := 0 })
  else { InUnit.reset with ndacv := unit.ndacv, err := unit.err }

/-- The state with everything blanked that no command can show. -/
def State.Over.observable (s : State) : State :=
  { s with rs := s.rs.map RsUnit.observable, ins := s.ins.map InUnit.observable }

/-- Sum, term and n after `k` passes of I0's loop body from the start (R110). -/
def besselAfter {F : Type} (N : NumOps F) (halfx : F) : Nat → F × F × F
  | 0 => (N.one, N.one, N.one)
  | k + 1 =>
    let before := besselAfter N halfx k
    besselBody N halfx before.1 before.2.1 before.2.2

/-- `r` is the binary64 value nearest to `x`; between two nearest ones its last bit is 0 (R14). -/
def NearestEven (x : ℚ) (r : F) : Prop :=
  ∀ c : F, Binary64.isFinite c = true →
    |Binary64.toRat r - x| ≤ |Binary64.toRat c - x| ∧
    (|Binary64.toRat r - x| = |Binary64.toRat c - x| → Binary64.toRat c ≠ Binary64.toRat r →
      r.toNat % 2 = 0)

end Sys2Proof.Machine
end

