-- ==== Sys2Proof/Certificates/Slice0/Obligations.lean ====
section
/-!
DEFINITION. The statements about the model. A docstring names the rule of spec/ a statement comes from;
where it rests on an inference the spec marks as its own, or on a choice of the model, it says so.
-/

open Sys2Proof Sys2Proof.Machine

/-! ### Frames and decoding -/

/-- Decoding undoes encoding, for every command with every operand an encoding admits. -/
def Obligations.EncodedCommandDecodesBack : Prop :=
  ∀ i : Instr, i.WellFormed = true → decode (encode i) = .ok i

/-- A decoded command keeps the whole header, takes every slot, and is well-formed: no bit of the
header is dropped. -/
def Obligations.DecodedCommandKeepsHeader : Prop :=
  ∀ (f : Frame) (i : Instr), decode f = .ok i →
    i.WellFormed = true ∧ (encode i).hdr = f.hdr ∧ (encode i).slots.length = f.slots.length

/-- R87. The upper bits of an `s32` slot and of a `tsel` slot change nothing of what a step does, and
the header of a command can be told from the command: no bit of it is ignored. -/
def Obligations.IgnoredSlotBits : Prop :=
  (∀ (s : State) (h : Header) (w w' : Slot), headerOpcode h = 0x13#8 →
    w.setWidth 32 = w'.setWidth 32 → step (s.present ⟨h, [w]⟩) = step (s.present ⟨h, [w']⟩)) ∧
  (∀ (s : State) (h : Header) (w w' : Slot) (ws : List Slot), headerOpcode h = 0x10#8 →
    w.setWidth 8 = w'.setWidth 8 → step (s.present ⟨h, w :: ws⟩) = step (s.present ⟨h, w' :: ws⟩)) ∧
  ∀ (h h' : Header) (ws ws' : List Slot) (i : Instr),
    decode ⟨h, ws⟩ = .ok i → decode ⟨h', ws'⟩ = .ok i → h = h'

/-- The opcode map (30_encoding.md section 4): every frame of the right length is decoded by its
`HDR & 0xFF00`, its unit is `HDR[7:0]`, its operands are its slots in order; every other header is
illegal and has no operand slot. -/
def Obligations.OpcodeMapSelectsTheRow : Prop :=
  ∀ (h : Header) (ws : List Slot),
    let u := (h &&& 0x00FF#16).toNat
    let row := h &&& 0xFF00#16
    (row = 0x0000#16 → ∀ a b c, ws = [a, b, c] → decode ⟨h, ws⟩ = .ok (.rsConfig u a b c)) ∧
    (row = 0x0100#16 → ∀ a, ws = [a] → decode ⟨h, ws⟩ = .ok (.rsInput u a)) ∧
    (row = 0x0200#16 → ws = [] → decode ⟨h, ws⟩ = .ok (.rsOutput u)) ∧
    (row = 0x0300#16 → ws = [] → decode ⟨h, ws⟩ = .ok (.rsReset u)) ∧
    (row = 0x1000#16 → ∀ a b c d e g, ws = [a, b, c, d, e, g] →
      decode ⟨h, ws⟩ = .ok (.inConfig u (a.toNat % 256) b c d e g)) ∧
    (row = 0x1100#16 → ∀ a, ws = [a] → decode ⟨h, ws⟩ = .ok (.inSetfc u a)) ∧
    (row = 0x1200#16 → ∀ a, ws = [a] → decode ⟨h, ws⟩ = .ok (.inSetv u a)) ∧
    (row = 0x1300#16 → ∀ a, ws = [a] → decode ⟨h, ws⟩ = .ok (.inSolve u (a.setWidth 32).toInt)) ∧
    (row ∉ [0x0000#16, 0x0100#16, 0x0200#16, 0x0300#16, 0x1000#16, 0x1100#16, 0x1200#16, 0x1300#16] →
      slotCount h = 0 ∧ (ws = [] → decode ⟨h, ws⟩ = .error .illegalHeader))

/-- The spec's own encoding examples (the inference R93), bit for bit: `RS.INPUT 3, 1.0`, `IN.SOLVE 2,
-17` with any upper half, `RS.CONFIG 0, 985248, 44100, 20000`. -/
def Obligations.WordsWrittenOutDecode : Prop :=
  decode ⟨0x0103, [0x3FF0000000000000]⟩ = .ok (.rsInput 3 (Binary64.ofLit ⟨10, 1⟩)) ∧
  (∀ hi : BitVec 32, decode ⟨0x1302, [hi ++ 0xFFFFFFEF#32]⟩ = .ok (.inSolve 2 (-17))) ∧
  decode ⟨0x0000, [0x412E114000000000, 0x40E5888000000000, 0x40D3880000000000]⟩ =
    .ok (.rsConfig 0 (Binary64.ofInt 985248) (Binary64.ofInt 44100) (Binary64.ofInt 20000))

/-- Over a byte-serial transport (20_memory.md section 2): the header's two bytes, then eight bytes for
each slot, the least significant first; and the first frame of a stream is read back whole. -/
def Obligations.ByteTransportRoundTrip : Prop :=
  ∀ (f : Frame),
    (f.toBytes.take 2 = [f.hdr.setWidth 8, (f.hdr >>> 8).setWidth 8]) ∧
    (∀ (j : Nat) (w : Slot), f.slots[j]? = some w → ∀ k < 8,
      f.toBytes[2 + 8 * j + k]? = some ((w >>> (8 * k)).setWidth 8)) ∧
    ∀ rest, f.slots.length = slotCount f.hdr → frameOfBytes (f.toBytes ++ rest) = some (f, rest)

/-! ### The step -/

/-- A step takes the frame the host presents and runs the command it decodes to, on the state without
that frame; the host's word placed by `withFetchWord` is run in the same way. That the core executes one
command at a time in the order the host issues them is 00_scope.md section 7; the event stream in the state
and `withFetchWord` are the model's DESIGN CHOICE (log 7). -/
def Obligations.StepRunsPresentedCommand : Prop :=
  (∀ (s : State) (f : Frame) (rest : List HostEvent) (i : Instr),
    s.events = .frame f :: rest → decode f = .ok i → step s = exec i { s with events := rest }) ∧
  ∀ (s : State) (nbits w : Nat) (i : Instr),
    decodeTableWord nbits w = some i → step (s.withFetchWord nbits w) = exec i s

/-- Without an event the core waits: nothing changes (log 9, from 00_scope.md section 7: there is no step
that the core takes without a command). -/
def Obligations.WaitingCoreStays : Prop :=
  ∀ s : State, s.events = [] → step s = .next s

/-- R86. An illegal header is answered E_ILLEGAL with status 0 and nothing is written; so is a unit
index out of range; a bad table select writes the unit's ERR and returns its status; every header is one
of the eight commands or illegal. -/
def Obligations.IllegalFramesAnswered : Prop :=
  (∀ (s : State) (h : Header) (rest : List HostEvent), s.halted = false →
    s.events = .frame ⟨h, []⟩ :: rest → (2 ≤ h.toNat / 4096 ∨ 4 ≤ h.toNat / 256 % 16) →
    step s = .next { s with events := rest, rsp := some (responseOf .eIllegal 0 s.faultReg 0) }) ∧
  (∀ (s : State) (i : Instr), s.halted = false → ¬ unitPresent i s →
    exec i s = .next { s with rsp := some (responseOf .eIllegal 0 s.faultReg 0) }) ∧
  (∀ (s : State) (n k : Nat) (vdc vth nkp vmin n16 : F) (unit : InUnit F), s.halted = false →
    s.ins[n]? = some unit → s.tt.length ≤ k →
    exec (.inConfig n k vdc vth nkp vmin n16) s =
      .next { s with
        ins := s.ins.set n { unit with err := 6 }
        rsp := some (responseOf .eIllegal (inStatus { unit with err := 6 }) s.faultReg 0) }) ∧
  ∀ (h : Header) (ws : List Slot), ws.length = slotCount h →
    ((∃ i, decode ⟨h, ws⟩ = .ok i) ↔ ¬ (2 ≤ h.toNat / 4096 ∨ 4 ≤ h.toNat / 256 % 16)) ∧
    ((2 ≤ h.toNat / 4096 ∨ 4 ≤ h.toNat / 256 % 16) → decode ⟨h, ws⟩ = .error .illegalHeader)

/-! ### Reset and invariants -/

/-- What hardware reset leaves (R240's specified values, and the transfer tables), and that no response
stands and the host's later events stay (the model's choices, log 10). What R240 leaves unspecified is
`UnspecifiedValuesAreUnobservable`; that reset is the only way out of a halt is `HaltedCoreAnswersOnly`. -/
def Obligations.HardwareResetClears : Prop :=
  ∀ (s : State) (rest : List HostEvent), s.events = .hardwareReset :: rest →
    ∃ t, step s = .next t ∧ t.faultReg = 0 ∧ t.halted = false ∧ t.cache = [] ∧ t.tt = s.tt ∧
      t.rs.length = s.rs.length ∧ t.ins.length = s.ins.length ∧
      (∀ unit ∈ t.rs, unit.cfgv = false ∧ unit.ready = false ∧ unit.err = 0 ∧ rsStatus unit = 0) ∧
      (∀ unit ∈ t.ins, unit.cfgv = false ∧ unit.ndacv = false ∧ unit.err = 0 ∧ inStatus unit = 0) ∧
      t.rsp = none ∧ t.events = rest

/-- The values hardware reset leaves unspecified show nowhere (10_state.md section 4, the spec's own
inference R52): states that differ only in registers of unconfigured units, or in `NDAC` while NDACV is 0,
stay such under every step, with the same responses. So the values log 6 chooses are not observable. -/
def Obligations.UnspecifiedValuesAreUnobservable : Prop :=
  ∀ s s' t : State, s.observable = s'.observable → step s = .next t →
    ∃ t', step s' = .next t' ∧ t'.observable = t.observable ∧ t'.rsp = t.rsp

/-- The state after reset satisfies the invariants, with any number of units in range and any contents
of the transfer tables; `State.reset` is the one of these that log 4 and log 5 choose. -/
def Obligations.ResetStateIsSound : Prop :=
  State.reset.Sound params ∧ State.reset.LengthsInRange ∧
  ∀ (nrs nin : Nat) (tables : List (Memory U16)), 1 ≤ nrs → nrs ≤ 256 → 1 ≤ nin → nin ≤ 256 →
    1 ≤ tables.length → tables.length ≤ 256 → (∀ m ∈ tables, m.wf 65536 = true) →
    (State.resetWith nrs nin tables).Sound params

/-- Every step keeps every invariant 10_state.md states of the registers, the memories and the cache, with
`CPS = trunc(R * 1024)` (R29) and the odd `L` below `H` (R32) among them; and that every length is at least 7
(R24, R32, R56), which for output rates below 2^-1021 rests on the E_ARG of log 13 (DEDUCED). -/
def Obligations.EveryStepKeepsInvariants : Prop :=
  (∀ s t : State, s.Sound params → step s = .next t → t.Sound params) ∧
  ∀ s t : State, s.LengthsInRange → step s = .next t → t.LengthsInRange

/-- In a state that satisfies the invariants no step stops, whatever frame the host presents. For a unit whose
`L` is below 1, which `LengthsInRange` excludes, this rests on log 27 (DEDUCED): reading fewer than 1 element
reads none. -/
def Obligations.SoundCoreNeverStops : Prop :=
  ∀ s : State, s.Sound params → (∀ e rest, s.events = e :: rest → e.legal = true) →
    ∃ t, step s = .next t

/-- The parameters are arguments (00_scope.md section 4, R9): `exec`, `step` and `State.reset` are the
commands, the step and the reset state of the parametric core at the values of R9's table, and the machine is
that core, over the type `F` of the reference `NUM` (R13), with the unit and table counts and the empty tables
the model chooses there (logs 4, 5 and 21). -/
def Obligations.TableValuesRun : Prop :=
  (∀ (i : Instr) (s : State), exec i s = execWith params i s) ∧
  (∀ s : State, step s = stepWith params s) ∧
  State.reset = resetFor params (List.replicate params.ntt []) ∧
  core = coreWith ⟨Binary64.num, params.toSettings, List.replicate params.ntt []⟩

/-- With `NUM` and `RES_ERR_K` as R9 fixes them and every other parameter of R9 at any setting (another `H` of
at least 1, the other `ORDER_ROUND`, another `ACC_W`, other constants, shifts and counts) the core keeps the
invariants, has them after reset, and never stops on a frame of the right length. What the spec fixes is
`ACC_W = 32`: for another one the bound `CPS <= 2^(ACC_W-1) - 1024`, and that a width above 32 is read as 32,
are the model's DESIGN CHOICE (log 21). That the core never stops rests also on the reading of log 27 that a
unit whose `L` is below 1 reads no element (DEDUCED), on log 12 (DESIGN CHOICE: for another beta, where R112
bounds nothing, a loop of I0 that never ends gives a free value) and on log 24 (DESIGN CHOICE: `IN.SOLVE`
completes with a free `VALUE` where its result fits no s32). -/
def Obligations.OtherSettingsKeepInvariants : Prop :=
  ∀ P : Params F, P.num = Binary64.ops → P.resErrK = params.resErrK → 1 ≤ P.ringHalf →
    (∀ s t : State, s.Sound P → stepWith P s = .next t → t.Sound P) ∧
    (∀ s : State, s.Sound P → (∀ e rest, s.events = e :: rest → e.legal = true) →
      ∃ t, stepWith P s = .next t) ∧
    ∀ tables : List (Memory U16), 1 ≤ P.nrs → P.nrs ≤ 256 → 1 ≤ P.nin → P.nin ≤ 256 →
      1 ≤ tables.length → tables.length ≤ 256 → (∀ m ∈ tables, m.wf 65536 = true) →
      (resetFor P tables).Sound P

/-! ### Responses, errors, faults -/

/-- R221. A halted core answers every command with E_HALTED and the addressed unit's status, every
illegal header with E_HALTED and status 0, and writes nothing; only hardware reset leaves that state. -/
def Obligations.HaltedCoreAnswersOnly : Prop :=
  (∀ (s : State) (i : Instr), s.halted = true →
    exec i s = .next { s with rsp := some (responseOf .eHalted (addressedStatus i s) s.faultReg 0) }) ∧
  (∀ (s : State) (f : Frame) (rest : List HostEvent), s.halted = true → s.events = .frame f :: rest →
    decode f = .error .illegalHeader →
    step s = .next { s with events := rest, rsp := some (responseOf .eHalted 0 s.faultReg 0) }) ∧
  ∀ s t : State, s.halted = true → step s = .next t → t.halted = false →
    ∃ rest, s.events = .hardwareReset :: rest

/-- R88. The fields of every response: a code of at most 7, zero bits, the addressed unit's status and
`FAULTREG` after the command, and the command's result where the code is 0, else 0; for an illegal
header the status is 0. -/
def Obligations.ResponsesCarryStatusAndResult : Prop :=
  (∀ (s t : State) (i : Instr), exec i s = .next t →
    ∃ r : BitVec 128, t.rsp = some r ∧ (r.extractLsb' 0 4).toNat ≤ 7 ∧ r.extractLsb' 4 12 = 0 ∧
      r.extractLsb' 16 16 = addressedStatus i t ∧ r.extractLsb' 32 16 = t.faultReg ∧
      r.extractLsb' 48 16 = 0 ∧
      (r.extractLsb' 0 4 ≠ 0 → r.extractLsb' 64 64 = 0) ∧
      (r.extractLsb' 0 4 = 0 →
        match i with
        | .rsConfig u _ _ _ => ∃ unit, t.rs[u]? = some unit ∧
            r.extractLsb' 64 64 = BitVec.ofInt 32 unit.res ++ BitVec.ofInt 32 unit.len
        | .rsInput _ _ => r.extractLsb' 64 64 = 0
        | .rsOutput u => ∃ unit, t.rs[u]? = some unit ∧ r.extractLsb' 64 64 = unit.out
        | .rsReset _ => r.extractLsb' 64 64 = 0
        | .inConfig n _ _ _ _ _ _ => ∃ unit, t.ins[n]? = some unit ∧
            r.extractLsb' 64 64 = unit.nvgt.setWidth 64
        | .inSetfc n _ => ∃ unit, t.ins[n]? = some unit ∧
            r.extractLsb' 64 64 = unit.ndac.setWidth 64
        | .inSetv n _ => ∃ unit, t.ins[n]? = some unit ∧
            r.extractLsb' 64 64 = unit.nvgt.setWidth 64
        | .inSolve n _ => ∃ unit, t.ins[n]? = some unit ∧
            r.extractLsb' 64 64 = BitVec.ofInt 64 (unit.vx.toInt - unit.vc.toInt / 2 ^ 14))) ∧
  ∀ (s t : State) (f : Frame) (rest : List HostEvent), s.events = .frame f :: rest →
    decode f = .error .illegalHeader → step s = .next t →
    ∃ r : BitVec 128, t.rsp = some r ∧ (r.extractLsb' 0 4 = 6 ∨ r.extractLsb' 0 4 = 7) ∧
      r.extractLsb' 4 28 = 0 ∧ r.extractLsb' 32 16 = t.faultReg ∧ r.extractLsb' 48 80 = 0

/-- R216. A command that addresses a unit of a core that is not halted writes that unit's ERR with the
code it responds with, 0 on success; no ERR is written by a command that faults or is refused as halted,
or by a frame that addresses no unit. -/
def Obligations.ErrFieldRecordsOutcome : Prop :=
  (∀ (s t : State) (i : Instr), s.halted = false → unitPresent i s → exec i s = .next t →
    (t.halted = false → ∃ r, t.rsp = some r ∧ addressedErr i t = some (r.extractLsb' 0 4)) ∧
    (t.halted = true → t.rs = s.rs ∧ t.ins = s.ins)) ∧
  (∀ (s t : State) (i : Instr), (s.halted = true ∨ ¬ unitPresent i s) → exec i s = .next t →
    t.rs = s.rs ∧ t.ins = s.ins) ∧
  ∀ (s t : State) (f : Frame) (rest : List HostEvent), s.events = .frame f :: rest →
    decode f = .error .illegalHeader → step s = .next t → t.rs = s.rs ∧ t.ins = s.ins

/-- A command whose code is not 0 has written nothing but the addressed unit's ERR, or nothing but
`FAULTREG` (60_exceptions.md section 2: no instance, quantized value or cache entry is lost). -/
def Obligations.RefusedCommandWritesOnlyErr : Prop :=
  ∀ (s t : State) (i : Instr) (r : BitVec 128), exec i s = .next t → t.rsp = some r →
    r.extractLsb' 0 4 ≠ 0 →
    t.cache = s.cache ∧ t.tt = s.tt ∧ t.events = s.events ∧ t.rsNoErr = s.rsNoErr ∧
    t.inNoErr = s.inNoErr ∧
    (∀ u, (resamplerCommand i = false ∨ u ≠ unitOf i) → t.rs[u]? = s.rs[u]?) ∧
    (∀ n, (resamplerCommand i = true ∨ n ≠ unitOf i) → t.ins[n]? = s.ins[n]?) ∧
    (r.extractLsb' 0 4 ≠ 7 → t.faultReg = s.faultReg) ∧
    (r.extractLsb' 0 4 = 7 → t.rs = s.rs ∧ t.ins = s.ins)

/-- R220. A command that halts a core that was not halted is an `IN.SOLVE`; it writes `FAULTREG` with the
unit, one of the three codes, and FAULT, and nothing else; the response is E_HALTED with the unit's status
and the new `FAULTREG`. -/
def Obligations.FaultEntryIsPrecise : Prop :=
  ∀ (s t : State) (i : Instr), s.halted = false → exec i s = .next t → t.halted = true →
    ∃ (n : Nat) (vi : Int) (unit : InUnit F) (code : BitVec 4),
      i = .inSolve n vi ∧ s.ins[n]? = some unit ∧ (code = 1 ∨ code = 2 ∨ code = 3) ∧
      t = { s with
        faultReg := BitVec.ofNat 8 n ++ code ++ 0#3 ++ 1#1
        rsp := some (responseOf .eHalted (inStatus unit)
          (BitVec.ofNat 8 n ++ code ++ 0#3 ++ 1#1) 0) }

/-- `FAULTREG` (10_state.md section 2): its reserved bits read as 0 and its fields are 0 while FAULT is 0;
it is 0 after reset; it changes only by a fault on a core that was not halted, or by hardware reset. -/
def Obligations.FaultRegisterWrittenByFaultsOnly : Prop :=
  State.reset.faultReg = 0 ∧
  (∀ s : State, s.Sound params → s.faultReg.extractLsb' 1 3 = 0 ∧
    (s.faultReg.getLsbD 0 = false → s.faultReg = 0)) ∧
  ∀ s t : State, step s = .next t →
    t.faultReg = s.faultReg ∨ (∃ rest, s.events = .hardwareReset :: rest) ∨
    (s.faultReg.getLsbD 0 = false ∧ ∃ f rest n vi, s.events = .frame f :: rest ∧
      decode f = .ok (.inSolve n vi) ∧ t.faultReg.getLsbD 0 = true ∧
      t.faultReg.extractLsb' 8 8 = BitVec.ofNat 8 n ∧ 1 ≤ (t.faultReg.extractLsb' 4 4).toNat ∧
      (t.faultReg.extractLsb' 4 4).toNat ≤ 3)

/-- The status views (10_state.md, R37 and R49): ERR in bits 7:4, READY or NDACV in bit 1, CFGV in bit 0,
the other bits 0; 0 after reset. -/
def Obligations.StatusViewLayout : Prop :=
  (∀ unit : RsUnit F, rsStatus unit =
    0#8 ++ unit.err ++ 0#2 ++ BitVec.ofBool unit.ready ++ BitVec.ofBool unit.cfgv) ∧
  (∀ unit : InUnit F, inStatus unit =
    0#8 ++ unit.err ++ 0#2 ++ BitVec.ofBool unit.ndacv ++ BitVec.ofBool unit.cfgv) ∧
  rsStatus (RsUnit.reset (F := F)) = 0 ∧ inStatus (InUnit.reset (F := F)) = 0

/-! ### Isolation -/

/-- A command touches only its own unit, the cache (`RS.CONFIG` only), `FAULTREG` (`IN.SOLVE` only) and
the response (20_memory.md section 7). -/
def Obligations.CommandTouchesOwnUnitOnly : Prop :=
  ∀ (s t : State) (i : Instr), exec i s = .next t →
    t.tt = s.tt ∧ t.events = s.events ∧ t.rs.length = s.rs.length ∧ t.ins.length = s.ins.length ∧
    (∀ u, (resamplerCommand i = false ∨ u ≠ unitOf i) → t.rs[u]? = s.rs[u]?) ∧
    (∀ n, (resamplerCommand i = true ∨ n ≠ unitOf i) → t.ins[n]? = s.ins[n]?) ∧
    (t.cache ≠ s.cache → ∃ u fclk fs fpass, i = .rsConfig u fclk fs fpass) ∧
    (t.faultReg ≠ s.faultReg → ∃ n vi, i = .inSolve n vi)

/-- Two commands to different units commute unless one faults (the spec's own inference R71), on a halted
core too: the other order runs as well, gives the same state but for the port's last response, and the same
two responses. -/
def Obligations.DifferentUnitsCommute : Prop :=
  ∀ (s a ab : State) (i j : Instr), s.Sound params → differentUnits i j →
    exec i s = .next a → exec j a = .next ab → (ab.halted = false ∨ s.halted = true) →
    ∃ b ba, exec j s = .next b ∧ exec i b = .next ba ∧ ba.quiet = ab.quiet ∧
      b.rsp = ab.rsp ∧ ba.rsp = a.rsp

/-- No step changes a transfer table, hardware reset included (10_state.md, R25). -/
def Obligations.TransferTablesReadOnly : Prop :=
  ∀ s t : State, step s = .next t → t.tt = s.tt

/-! ### IN.SOLVE -/

/-- R198. The checks of `IN.SOLVE` in their order: E_UNCONFIG, F_SUBTHRESHOLD, F_OVERFLOW on `d`, `i`,
`vc`, F_INDEX; a fault writes `FAULTREG` and the response and no register of any unit. -/
def Obligations.SolveFaultOrder : Prop :=
  ∀ (s : State) (n : Nat) (vi : Int) (unit : InUnit F), s.halted = false → s.ins[n]? = some unit →
    let nvgt : Int := unit.nvgt.toNat
    let vgst : Int := nvgt - unit.vx.toInt
    let vgdt : Int := if vi < nvgt then nvgt - vi else 0
    let d : Int := vgst * vgst - vgdt * vgdt
    let i : Int := unit.ndac.toNat * (d / 2 ^ 15)
    let vc : Int := unit.vc.toInt + i
    let idx : Int := vc / 2 ^ 15 + 32768
    let fits : Int → Prop := fun v => -2 ^ 31 ≤ v ∧ v ≤ 2 ^ 31 - 1
    let fault : BitVec 4 → State := fun code =>
      { s with
        faultReg := BitVec.ofNat 8 n ++ code ++ 0#3 ++ 1#1
        rsp := some (responseOf .eHalted (inStatus unit)
          (BitVec.ofNat 8 n ++ code ++ 0#3 ++ 1#1) 0) }
    (unit.cfgv = false ∨ unit.ndacv = false →
      exec (.inSolve n vi) s = .next { s with
        ins := s.ins.set n { unit with err := 5 }
        rsp := some (responseOf .eUnconfig (inStatus { unit with err := 5 }) s.faultReg 0) }) ∧
    (unit.cfgv = true → unit.ndacv = true →
      (nvgt ≤ unit.vx.toInt → exec (.inSolve n vi) s = .next (fault 1)) ∧
      (unit.vx.toInt < nvgt →
        (¬ (fits d ∧ fits i ∧ fits vc) → exec (.inSolve n vi) s = .next (fault 3)) ∧
        (fits d → fits i → fits vc → (idx < 0 ∨ 65535 < idx) →
          exec (.inSolve n vi) s = .next (fault 2))))

/-- `IN.SOLVE` completes (43_integrator.md section 4, the pseudocode of R190): where no check fails, the
charge and the working voltage are the new ones, ERR is 0, nothing else of the state changes, and the
result is the new voltage minus the new charge shifted right by 14. -/
def Obligations.SolveRunsOneCycle : Prop :=
  ∀ (s : State) (n : Nat) (vi : Int) (unit : InUnit F) (table : Memory U16), s.halted = false →
    s.ins[n]? = some unit → unit.cfgv = true → unit.ndacv = true →
    s.tt[unit.ttsel]? = some table →
    let nvgt : Int := unit.nvgt.toNat
    let vgst : Int := nvgt - unit.vx.toInt
    let vgdt : Int := if vi < nvgt then nvgt - vi else 0
    let d : Int := vgst * vgst - vgdt * vgdt
    let i : Int := unit.ndac.toNat * (d / 2 ^ 15)
    let vc : Int := unit.vc.toInt + i
    let idx : Int := vc / 2 ^ 15 + 32768
    unit.vx.toInt < nvgt → -2 ^ 31 ≤ d → d ≤ 2 ^ 31 - 1 → -2 ^ 31 ≤ i → i ≤ 2 ^ 31 - 1 →
    -2 ^ 31 ≤ vc → vc ≤ 2 ^ 31 - 1 → 0 ≤ idx → idx ≤ 65535 →
    let vx : Int := (table.read idx.toNat).toNat
    let unit' : InUnit F :=
      { unit with vc := BitVec.ofInt 32 vc, vx := BitVec.ofInt 32 vx, err := 0 }
    exec (.inSolve n vi) s = .next { s with
      ins := s.ins.set n unit'
      rsp := some (responseOf .ok (inStatus unit') s.faultReg
        (BitVec.ofInt 64 (vx - vc / 2 ^ 14))) } ∧
    unit'.vc.toInt = vc ∧ unit'.vx.toInt = vx

/-- The ranges the Integrator's rules give: the index is in the table exactly for a charge in -2^30 to
2^30 - 1 (R195); after a step that responds OK the charge is there, the working voltage is a u16, and the
result is in -65535 to 131071 (R197). -/
def Obligations.SolveKeepsRanges : Prop :=
  (∀ vc : Int, (0 ≤ chargeIndex params vc ∧ chargeIndex params vc ≤ 65535) ↔
    (-2 ^ 30 ≤ vc ∧ vc < 2 ^ 30)) ∧
  ∀ (s t : State) (n : Nat) (vi : Int) (r : BitVec 128), exec (.inSolve n vi) s = .next t →
    t.rsp = some r → r.extractLsb' 0 4 = 0 →
    ∃ unit, t.ins[n]? = some unit ∧ -2 ^ 30 ≤ unit.vc.toInt ∧ unit.vc.toInt < 2 ^ 30 ∧
      0 ≤ unit.vx.toInt ∧ unit.vx.toInt ≤ 65535 ∧
      -65535 ≤ (r.extractLsb' 64 64).toInt ∧ (r.extractLsb' 64 64).toInt ≤ 131071

/-- The corner cases of a step that does not fault (the spec's own inference R199): the charge does not
fall while the input is at or above the working voltage, stays where they are equal or where the drive
factor is 0, and falls by at least the drive factor while the input is below. -/
def Obligations.SolveMovesChargeTowardInput : Prop :=
  ∀ (s t : State) (n : Nat) (vi : Int) (unit : InUnit F), s.halted = false →
    s.ins[n]? = some unit → unit.cfgv = true → unit.ndacv = true →
    exec (.inSolve n vi) s = .next t → t.halted = false →
    ∃ unit', t.ins[n]? = some unit' ∧
      (unit.vx.toInt ≤ vi → unit.vc.toInt ≤ unit'.vc.toInt) ∧
      (unit.vx.toInt = vi → unit'.vc = unit.vc) ∧
      (unit.ndac = 0 → unit'.vc = unit.vc) ∧
      (vi < unit.vx.toInt → unit'.vc.toInt ≤ unit.vc.toInt - unit.ndac.toNat)

/-! ### IN.CONFIG, IN.SETFC, IN.SETV -/

/-- R184. A successful `IN.CONFIG`: the table select and the five calibration registers hold the operands,
`NVGT` the gate voltage quantized for the multiplier 1.5, charge and voltage are 0, NDACV is 0, ERR 0, CFGV
1, and no other unit or register changes. Nothing is said of the bits of `NDAC` (log 14). -/
def Obligations.InConfigConstructs : Prop :=
  ∀ (s : State) (n k : Nat) (vdc vth nkp vmin n16 : F) (unit : InUnit F), s.halted = false →
    s.ins[n]? = some unit → k < s.tt.length →
    (∀ c ∈ [vdc, vth, nkp, vmin, n16], Binary64.isFinite c = true) →
    let m := Binary64.ofLit ⟨15, 1⟩
    let g := Binary64.mul n16 (Binary64.sub (Binary64.sub (Binary64.mul vdc m) vth) vmin)
    let q := (Binary64.toRat g + 1 / 2).floor
    Binary64.isFinite g = true → 0 ≤ q → q ≤ 65535 →
    ∃ unit', exec (.inConfig n k vdc vth nkp vmin n16) s = .next { s with
        ins := s.ins.set n unit'
        rsp := some (responseOf .ok 0x0001#16 s.faultReg (BitVec.ofInt 64 q)) } ∧
      unit'.ttsel = k ∧ unit'.vdc = vdc ∧ unit'.vth = vth ∧ unit'.nkp = nkp ∧ unit'.vmin = vmin ∧
      unit'.n16 = n16 ∧ (unit'.nvgt.toNat : Int) = q ∧ unit'.vc = 0 ∧ unit'.vx = 0 ∧
      unit'.ndacv = false ∧ unit'.err = 0 ∧ unit'.cfgv = true

/-- The refusals of `IN.CONFIG` in their order (43_integrator.md section 1): a table select out of range, a
calibration constant that is not finite, a gate voltage that quantizes outside 0..65535. Only ERR is
written: the unit keeps the instance it had. -/
def Obligations.InConfigRefusals : Prop :=
  ∀ (s : State) (n k : Nat) (vdc vth nkp vmin n16 : F) (unit : InUnit F), s.halted = false →
    s.ins[n]? = some unit →
    let refused : RspCode → State := fun c =>
      { s with
        ins := s.ins.set n { unit with err := codeBits c }
        rsp := some (responseOf c (inStatus { unit with err := codeBits c }) s.faultReg 0) }
    let m := Binary64.ofLit ⟨15, 1⟩
    let g := Binary64.mul n16 (Binary64.sub (Binary64.sub (Binary64.mul vdc m) vth) vmin)
    let q := (Binary64.toRat g + 1 / 2).floor
    (s.tt.length ≤ k → exec (.inConfig n k vdc vth nkp vmin n16) s = .next (refused .eIllegal)) ∧
    (k < s.tt.length →
      ((∃ c ∈ [vdc, vth, nkp, vmin, n16], Binary64.isFinite c = false) →
        exec (.inConfig n k vdc vth nkp vmin n16) s = .next (refused .eArg)) ∧
      ((∀ c ∈ [vdc, vth, nkp, vmin, n16], Binary64.isFinite c = true) →
        (Binary64.isFinite g = false ∨ q < 0 ∨ 65535 < q) →
        exec (.inConfig n k vdc vth nkp vmin n16) s = .next (refused .eQrange)))

/-- `IN.SETFC` (43_integrator.md section 2, the pseudocode of R186): E_UNCONFIG, E_ARG, E_QRANGE in that
order, writing only ERR; else `NDAC` holds `2^13 * NKP * wl` rounded, NDACV and ERR are written, and the
value is returned. -/
def Obligations.SetfcQuantizesTheDrive : Prop :=
  ∀ (s : State) (n : Nat) (wl : F) (unit : InUnit F), s.halted = false → s.ins[n]? = some unit →
    let refused : RspCode → State := fun c =>
      { s with
        ins := s.ins.set n { unit with err := codeBits c }
        rsp := some (responseOf c (inStatus { unit with err := codeBits c }) s.faultReg 0) }
    let g := Binary64.mul (Binary64.mul (Binary64.ofInt 8192) unit.nkp) wl
    let q := (Binary64.toRat g + 1 / 2).floor
    let unit' : InUnit F := { unit with ndac := BitVec.ofInt 16 q, ndacv := true, err := 0 }
    (unit.cfgv = false → exec (.inSetfc n wl) s = .next (refused .eUnconfig)) ∧
    (unit.cfgv = true →
      (Binary64.isFinite wl = false → exec (.inSetfc n wl) s = .next (refused .eArg)) ∧
      (Binary64.isFinite wl = true →
        ((Binary64.isFinite g = false ∨ q < 0 ∨ 65535 < q) →
          exec (.inSetfc n wl) s = .next (refused .eQrange)) ∧
        (Binary64.isFinite g = true → 0 ≤ q → q ≤ 65535 →
          exec (.inSetfc n wl) s = .next { s with
            ins := s.ins.set n unit'
            rsp := some (responseOf .ok (inStatus unit') s.faultReg (BitVec.ofInt 64 q)) } ∧
          (unit'.ndac.toNat : Int) = q)))

/-- `IN.SETV` (43_integrator.md sections 1 and 3, the pseudocodes of R182 and R188): E_UNCONFIG, E_ARG
outside the open interval (1, 2), E_QRANGE in that order, writing only ERR; else `NVGT` holds the quantized
gate voltage and the value is returned; `VC` and `VX` are not touched. -/
def Obligations.SetvQuantizesTheGate : Prop :=
  ∀ (s : State) (n : Nat) (m : F) (unit : InUnit F), s.halted = false → s.ins[n]? = some unit →
    let refused : RspCode → State := fun c =>
      { s with
        ins := s.ins.set n { unit with err := codeBits c }
        rsp := some (responseOf c (inStatus { unit with err := codeBits c }) s.faultReg 0) }
    let g := Binary64.mul unit.n16
      (Binary64.sub (Binary64.sub (Binary64.mul unit.vdc m) unit.vth) unit.vmin)
    let q := (Binary64.toRat g + 1 / 2).floor
    let inside := Binary64.isFinite m = true ∧ 1 < Binary64.toRat m ∧ Binary64.toRat m < 2
    let unit' : InUnit F := { unit with nvgt := BitVec.ofInt 16 q, err := 0 }
    (unit.cfgv = false → exec (.inSetv n m) s = .next (refused .eUnconfig)) ∧
    (unit.cfgv = true →
      (¬ inside → exec (.inSetv n m) s = .next (refused .eArg)) ∧
      (inside →
        ((Binary64.isFinite g = false ∨ q < 0 ∨ 65535 < q) →
          exec (.inSetv n m) s = .next (refused .eQrange)) ∧
        (Binary64.isFinite g = true → 0 ≤ q → q ≤ 65535 →
          exec (.inSetv n m) s = .next { s with
            ins := s.ins.set n unit'
            rsp := some (responseOf .ok (inStatus unit') s.faultReg (BitVec.ofInt 64 q)) } ∧
          (unit'.nvgt.toNat : Int) = q)))

/-- R121. The quantizer: a value that is not finite is rejected; a finite `t` gives `q` exactly when
`q - 1/2 <= t < q + 1/2`, and is rejected exactly when it is below -1/2 or not below 65535.5. -/
def Obligations.QuantizerRoundsToNearest : Prop :=
  ∀ t : F,
    (Binary64.isFinite t = false → quant16 Binary64.ops t = none) ∧
    (Binary64.isFinite t = true →
      (∀ q : U16, quant16 Binary64.ops t = some q ↔
        ((q.toNat : ℚ) - 1 / 2 ≤ Binary64.toRat t ∧ Binary64.toRat t < (q.toNat : ℚ) + 1 / 2)) ∧
      (quant16 Binary64.ops t = none ↔
        (Binary64.toRat t < -1 / 2 ∨ 131071 / 2 ≤ Binary64.toRat t)))

/-! ### RS.CONFIG -/

/-- R148. A successful `RS.CONFIG` writes every register of the unit: `L`, `RES`, `RBITS` and `CPS` as
the pseudocode derives them from the operands, zero history, `CUR`, `ACC`, `OUT`, READY and ERR 0, CFGV 1;
the cache holds the table, no other unit changes, and VALUE is `{RES[31:0], L[31:0]}`. A passband edge above
the exact half of the output rate is E_ARG (R211; `RsConfigRefusals`). -/
def Obligations.RsConfigConstructs : Prop :=
  ∀ (s : State) (u : Nat) (fclk fs fpass : F) (unit : RsUnit F), s.halted = false →
    s.rs[u]? = some unit →
    let two := Binary64.ofInt 2
    let a := Binary64.ofLit ⟨9632959861247399, 14⟩
    let r := Binary64.div fclk fs
    let cps := (Binary64.toRat r * 1024).floor
    let dw := Binary64.mul (Binary64.mul (Binary64.sub Binary64.one
      (Binary64.div (Binary64.mul two fpass) fs)) Binary64.pi) two
    let xo := Binary64.div (Binary64.sub a (Binary64.ofLit ⟨795, 2⟩))
      (Binary64.mul (Binary64.ofLit ⟨2285, 3⟩) dw)
    let order := 2 * (Binary64.toRat xo / 2 + 1 / 2).floor
    let p := Binary64.mul (Binary64.ofInt order) r
    let taps := (Binary64.toRat p).floor + 1
    let len := if taps % 2 = 0 then taps + 1 else taps
    let res := (Binary64.toRat (Binary64.div (Binary64.sqrt
      (Binary64.mul (Binary64.ofLit ⟨1234, 3⟩) (Binary64.ofInt 65536))) r)).ceil
    (∀ x ∈ [fclk, fs, fpass], Binary64.isFinite x = true ∧ Binary64.lt Binary64.zero x = true) →
    Binary64.le fpass (Binary64.div fs two) = true → 2 * Binary64.toRat fpass ≤ Binary64.toRat fs →
    Binary64.isFinite r = true → Binary64.le Binary64.one r = true → cps ≤ 2 ^ 31 - 1024 →
    Binary64.isFinite xo = true → Binary64.isFinite p = true → len < 2048 →
    ∃ unit', exec (.rsConfig u fclk fs fpass) s = .next { s with
        cache := lookupOrBuild params s.cache ⟨len, res, r⟩
        rs := s.rs.set u unit'
        rsp := some (responseOf .ok 0x0001#16 s.faultReg
          (BitVec.ofInt 32 res ++ BitVec.ofInt 32 len)) } ∧
      unit'.len = len ∧ unit'.res = res ∧ unit'.rbits = r ∧ unit'.cps.toInt = cps ∧
      (∀ k, unit'.hist.read k = 0) ∧ unit'.cur = 0 ∧ unit'.acc = 0 ∧ unit'.out = 0 ∧
      unit'.ready = false ∧ unit'.err = 0 ∧ unit'.cfgv = true

/-- The refusals of `RS.CONFIG` in their order (41_resampler_config.md section 6): E_ARG, E_RATIO, E_LEN,
each with its cause. Only ERR is written: the unit keeps the instance it had and the cache stays. That a
passband edge above the exact half of the output rate, but not above the rounded one, is E_ARG is log 13
(DEDUCED from R211). -/
def Obligations.RsConfigRefusals : Prop :=
  ∀ (s : State) (u : Nat) (fclk fs fpass : F) (unit : RsUnit F), s.halted = false →
    s.rs[u]? = some unit →
    let refused : RspCode → State := fun c =>
      { s with
        rs := s.rs.set u { unit with err := codeBits c }
        rsp := some (responseOf c (rsStatus { unit with err := codeBits c }) s.faultReg 0) }
    let two := Binary64.ofInt 2
    let a := Binary64.ofLit ⟨9632959861247399, 14⟩
    let r := Binary64.div fclk fs
    let cps := (Binary64.toRat r * 1024).floor
    let dw := Binary64.mul (Binary64.mul (Binary64.sub Binary64.one
      (Binary64.div (Binary64.mul two fpass) fs)) Binary64.pi) two
    let xo := Binary64.div (Binary64.sub a (Binary64.ofLit ⟨795, 2⟩))
      (Binary64.mul (Binary64.ofLit ⟨2285, 3⟩) dw)
    let order := 2 * (Binary64.toRat xo / 2 + 1 / 2).floor
    let p := Binary64.mul (Binary64.ofInt order) r
    let taps := (Binary64.toRat p).floor + 1
    let len := if taps % 2 = 0 then taps + 1 else taps
    let args := (∀ x ∈ [fclk, fs, fpass],
        Binary64.isFinite x = true ∧ Binary64.lt Binary64.zero x = true) ∧
      Binary64.le fpass (Binary64.div fs two) = true ∧ 2 * Binary64.toRat fpass ≤ Binary64.toRat fs
    let ratio := Binary64.isFinite r = true ∧ Binary64.lt r Binary64.one = false ∧
      cps ≤ 2 ^ 31 - 1024
    (¬ args → exec (.rsConfig u fclk fs fpass) s = .next (refused .eArg)) ∧
    (args → ¬ ratio → exec (.rsConfig u fclk fs fpass) s = .next (refused .eRatio)) ∧
    (args → ratio →
      (Binary64.isFinite xo = false ∨ Binary64.isFinite p = false ∨ 2048 ≤ len) →
      exec (.rsConfig u fclk fs fpass) s = .next (refused .eLen))

/-- What construction derives is in the ranges the rules of the registers give (R29, R32, R33, R163): a
positive odd length below 2048, 1 to 285 rows, a ratio truncated to 1/1024 between 1024 and 2^31 - 1024. That
the length is positive rests for output rates below 2^-1021 on the E_ARG of log 13 (DEDUCED). -/
def Obligations.DesignIsWithinBounds : Prop :=
  ∀ (fclk fs fpass : F) (d : Design F), designFilter params fclk fs fpass = .ok d →
    1 ≤ d.len ∧ d.len % 2 = 1 ∧ d.len < 2048 ∧ 1 ≤ d.res ∧ d.res ≤ 285 ∧ d.ratio = Binary64.div fclk fs ∧
    1024 ≤ d.cps ∧ d.cps ≤ 2 ^ 31 - 1024 ∧
    (d.cps : ℚ) ≤ Binary64.toRat d.ratio * 1024 ∧ Binary64.toRat d.ratio * 1024 < d.cps + 1

/-- The shortest filter has 7 taps (41_resampler_config.md section 2, the inference of R139; `7 <= L` in the
table of 10_state.md section 6). For output rates below 2^-1021 this rests on the E_ARG of log 13 (DEDUCED). -/
def Obligations.FilterLengthAtLeastSeven : Prop :=
  ∀ (fclk fs fpass : F) (d : Design F), designFilter params fclk fs fpass = .ok d →
    7 ≤ d.len

/-- The cache step (41_resampler_config.md section 3, R146): after an `RS.CONFIG` that responds OK, the
unit's key has the table built from it; every entry there was stays as it was; nothing else is added; an
`RS.CONFIG` that is refused adds nothing. -/
def Obligations.CacheLookupOrBuild : Prop :=
  ∀ (s t : State) (u : Nat) (fclk fs fpass : F) (r : BitVec 128), s.Sound params →
    exec (.rsConfig u fclk fs fpass) s = .next t → t.rsp = some r →
    (∀ k table, s.cache.find? k = some table → t.cache.find? k = some table) ∧
    (r.extractLsb' 0 4 = 0 → ∃ unit, t.rs[u]? = some unit ∧
      t.cache.find? (unitKey unit) = some (buildTable params unit.len unit.res
        (Binary64.ofBits unit.rbits) (kaiserBeta params) (i0 Binary64.ops (kaiserBeta params))) ∧
      ∀ k, k ≠ unitKey unit → t.cache.find? k = s.cache.find? k) ∧
    (r.extractLsb' 0 4 ≠ 0 → t.cache = s.cache)

/-- A published table is never evicted and never changed by any step but hardware reset (10_state.md
section 2, R24). -/
def Obligations.CachedTablesPersist : Prop :=
  ∀ (s t : State) (k : FilterKey) (table : FilterTable F), step s = .next t →
    (∀ rest, s.events ≠ .hardwareReset :: rest) →
    s.cache.find? k = some table → t.cache.find? k = some table

/-- Row `i`, column `j` of a table of `len` columns and `res` rows is the windowed-sinc coefficient of the
pseudocode (41_resampler_config.md section 2, R143), and there are no other entries. That there is no column
at all for a `len` below 1 is log 27 (DEDUCED). -/
def Obligations.FilterTableEntries : Prop :=
  ∀ (len : Int) (res : Nat) (r beta i0beta : F),
    let table := buildTable params len res r beta i0beta
    table.length = res ∧ (∀ row ∈ table, row.length = len.toNat) ∧
    ∀ i < res, ∀ j < len.toNat,
      let hf := Binary64.ofInt ((len - 1) / 2)
      let jphase := Binary64.add (Binary64.div (Binary64.ofInt i) (Binary64.ofInt res)) hf
      let x := Binary64.sub (Binary64.ofInt j) jphase
      let xt := Binary64.div x hf
      let wt := Binary64.div (Binary64.mul Binary64.pi x) r
      let sinc := if Binary64.ge (Binary64.abs wt) (Binary64.ofLit ⟨1, 8⟩) = true
        then Binary64.div (Binary64.sin wt) wt else Binary64.one
      let k := if Binary64.lt (Binary64.abs xt) Binary64.one = true
        then Binary64.div (i0 Binary64.ops (Binary64.mul beta (Binary64.sqrt
          (Binary64.sub Binary64.one (Binary64.mul xt xt))))) i0beta
        else Binary64.zero
      (table[i]?.bind fun row => row[j]?) =
        some (Binary64.mul (Binary64.mul (Binary64.div Binary64.one r) sinc) k)

/-- The centre tap of row 0 is exactly `1/R`, whatever the sine (from the spec's own inference R145; the other
taps need the sine, a free value by log 2, and nothing is said of them), for every odd length of at least
3. -/
def Obligations.CentreTapIsScale : Prop :=
  ∀ (len res : Int) (r : F), len % 2 = 1 → 3 ≤ len → len < 2048 → 1 ≤ res → res ≤ 285 →
    Binary64.isFinite r = true → Binary64.le Binary64.one r = true →
    coefficient params len res r (kaiserBeta params) (kaiserI0Beta params) 0 ((len - 1) / 2).toNat =
      Binary64.div Binary64.one r

/-! ### RS.INPUT, RS.OUTPUT, RS.RESET -/

/-- `RS.INPUT` (42_resampler_stream.md section 1, the pseudocode of R160) in a sound state: E_UNCONFIG on an unconfigured unit; else the sample stands at the
cursor and at the cursor plus H and no other element changes, the cursor advances; where the phase is below
1024 the filtering step's value is the new output and READY is 1, else the output stays and READY is 0; the
accumulator gains the ratio where an output was made and loses 1024 in any case. Nothing else changes. That
the filtering step has a value on a unit whose `L` is below 1 rests on log 27 (DEDUCED). -/
def Obligations.RsInputStoresAndAdvances : Prop :=
  ∀ (s : State) (u : Nat) (x : F) (unit : RsUnit F), s.Sound params → s.halted = false →
    s.rs[u]? = some unit →
    (unit.cfgv = false → exec (.rsInput u x) s = .next { s with
      rs := s.rs.set u { unit with err := 5 }
      rsp := some (responseOf .eUnconfig (rsStatus { unit with err := 5 }) s.faultReg 0) }) ∧
    (unit.cfgv = true → ∃ unit', exec (.rsInput u x) s = .next { s with
        rs := s.rs.set u unit'
        rsp := some (responseOf .ok (rsStatus unit') s.faultReg 0) } ∧
      (∀ k, unit'.hist.read k =
        if k = unit.cur ∨ k = unit.cur + 2048 then x else unit.hist.read k) ∧
      unit'.cur = (unit.cur + 1) % 2048 ∧ unit'.err = 0 ∧ unit'.cfgv = true ∧
      unit'.cps = unit.cps ∧ unit'.len = unit.len ∧ unit'.res = unit.res ∧
      unit'.rbits = unit.rbits ∧
      (unit.acc.toInt < 1024 → unit'.ready = true ∧
        unit'.acc.toInt = unit.acc.toInt + unit.cps.toInt - 1024 ∧
        fir params s.cache { unit with hist := unit'.hist, cur := unit'.cur } = .ok unit'.out) ∧
      (1024 ≤ unit.acc.toInt → unit'.ready = false ∧
        unit'.acc.toInt = unit.acc.toInt - 1024 ∧ unit'.out = unit.out))

/-- The filtering step (42_resampler_stream.md section 2, the pseudocode of R162): the base window against the
row at the phase, and against the next row, or the window shifted by one sample against row 0 where that was
the last row; then the interpolation by the remainder over 1024, as one subtraction, one multiplication and
one addition. Where `L` is below 1 the windows and the rows are empty (log 27, DEDUCED). -/
def Obligations.FilteringStepFormula : Prop :=
  ∀ (c : Cache F) (unit : RsUnit F) (table : FilterTable F) (res phase : Nat),
    unit.res = res → unit.acc.toInt = phase → unit.cur < 2048 → unit.len < 2048 → 1 ≤ res → phase < 1024 →
    c.find? ⟨unit.len, unit.res, unit.rbits⟩ = some table → table.length = res →
    (∀ row ∈ table, row.length = unit.len.toNat) →
    let row := phase * res / 1024
    let start : Int := unit.cur + 2047 - unit.len
    let window : Int → List F := fun from' =>
      (List.range unit.len.toNat).map fun j => unit.hist.read (from' + j).toNat
    ∃ cols cols2,
      table[row]? = some cols ∧
      table[if row + 1 = res then 0 else row + 1]? = some cols2 ∧
      let v1 := convolve Binary64.ops (window start) cols
      let v2 := convolve Binary64.ops (window (if row + 1 = res then start + 1 else start)) cols2
      let t := Binary64.div (Binary64.ofInt ((phase * res % 1024 : Nat) : Int)) (Binary64.ofInt 1024)
      fir params c unit = .ok (Binary64.add v1 (Binary64.mul t (Binary64.sub v2 v1)))

/-- R65. The mirrored history: after a sequence of samples the one written `d` inputs ago stands at
`(CUR - 1 - d) mod H` and at that index plus H, for every `d` below H and below their number. -/
def Obligations.MirroredHistoryHoldsSamples : Prop :=
  ∀ (unit : RsUnit F) (xs : List F), unit.hist.wf 4096 = true → unit.cur < 2048 →
    ∃ unit', xs.foldlM (fun v x => pushSample params v x) unit = some unit' ∧
      unit'.cur = (unit.cur + xs.length) % 2048 ∧
      ∀ d, d < xs.length → d < 2048 →
        let k := (unit'.cur + 2047 - d) % 2048
        xs[xs.length - 1 - d]? = some (unit'.hist.read k) ∧
        xs[xs.length - 1 - d]? = some (unit'.hist.read (k + 2048))

/-- The window is contiguous across the wrap (the spec's own inference R66): it stays inside the history,
its newest element is the sample just stored, and the others are those of the window before, one place
on; there are none where `L` is below 1. -/
def Obligations.HistoryWindowSlides : Prop :=
  ∀ (unit pushed : RsUnit F) (x : F), unit.hist.wf 4096 = true →
    (∀ k < 2048, unit.hist.read k = unit.hist.read (k + 2048)) →
    unit.len < 2048 → pushSample params unit x = some pushed →
    0 ≤ windowStart params pushed ∧ windowStart params pushed + unit.len ≤ 4094 ∧
    pushed.hist.read (windowStart params pushed + unit.len).toNat = x ∧
    ∀ j < unit.len.toNat, pushed.hist.read ((windowStart params pushed).toNat + j) =
      unit.hist.read ((windowStart params unit).toNat + j + 1)

/-- The first output after CONFIG or RS.RESET is a positive zero, whatever the sample (42_resampler_stream.md
section 2, the inferences R166 (b) and (c)), where the table's first two rows are finite: the sine is a free
value (log 2), so a coefficient need not be. With one row only the new sample meets the last coefficient of
row 0, so their product must be finite; in the row a construction builds that coefficient is a zero, so that
the product of a finite sample is. That it holds of a unit whose `L` is below 1 rests on log 27 (DEDUCED). -/
def Obligations.FirstOutputIsZero : Prop :=
  (∀ (s : State) (u : Nat) (x : F) (unit : RsUnit F) (table : FilterTable F), s.halted = false →
    s.rs[u]? = some unit → unit.cfgv = true → unit.hist.wf 4096 = true → Silent params unit →
    unit.cur < 2048 → unit.len < 2048 → 1 ≤ unit.res →
    1024 ≤ unit.cps.toInt → unit.cps.toInt ≤ 2 ^ 31 - 1024 →
    s.cache.find? (unitKey unit) = some table → (table.length : Int) = unit.res →
    (∀ row ∈ table, row.length = unit.len.toNat) →
    (∀ row ∈ table.take 2, ∀ c ∈ row, Binary64.isFinite c = true) →
    (unit.res = 1 → ∀ row c, table.head? = some row → row.getLast? = some c →
      Binary64.isFinite (Binary64.mul x c) = true) →
    ∃ t unit', exec (.rsInput u x) s = .next t ∧ t.rs[u]? = some unit' ∧ unit'.ready = true ∧
      unit'.out = Binary64.zero) ∧
  ∀ (len res : Int) (r x : F), len % 2 = 1 → 3 ≤ len → len < 2048 → 1 ≤ res → res ≤ 285 →
    Binary64.isFinite r = true → Binary64.le Binary64.one r = true → Binary64.isFinite x = true →
    ∀ row c, (buildTable params len res r (kaiserBeta params) (kaiserI0Beta params)).head? = some row →
      row.getLast? = some c → Binary64.isFinite c = true →
      Binary64.isZero c = true ∧ Binary64.isFinite (Binary64.mul x c) = true

/-- The cadence (the spec's own inference R171): from a zero accumulator, after `n` inputs exactly
`ceil(1024 n / CPS)` outputs have been made, the accumulator is `outputs * CPS - 1024 n`, and input `k` makes
an output exactly when it is `floor(j * CPS / 1024)` for some `j`.That a unit whose `L` is below
1 does not stop rests on log 27 (DEDUCED). -/
def Obligations.CadenceOfOutputs : Prop :=
  ∀ (s : State) (u : Nat) (unit : RsUnit F) (xs : List F), s.Sound params → s.halted = false →
    s.rs[u]? = some unit → unit.cfgv = true → unit.acc = 0 →
    ∃ ys t unit', feed u xs s = some (ys, t) ∧ t.rs[u]? = some unit' ∧ ys.length = xs.length ∧
      let cps := unit.cps.toInt.toNat
      let outputs := ys.countP Option.isSome
      outputs = (1024 * xs.length + cps - 1) / cps ∧
      unit'.acc.toInt = outputs * unit.cps.toInt - 1024 * xs.length ∧
      ∀ k < xs.length, (∃ y, ys[k]? = some (some y)) ↔ ∃ j : Nat, k = j * cps / 1024

/-- Reset equivalence (the spec's own inference R176): `RS.CONFIG` and `RS.RESET` leave zero history and
accumulator, `RS.RESET` keeps the configuration, and two such units of equal configuration give the same
READY results and the same outputs on the same samples, whatever their cursors and old outputs. `RS.OUTPUT`
before the first new output can still tell the units apart, and nothing is said of it.That a unit whose `L` is below
1 does not stop rests on log 27 (DEDUCED). -/
def Obligations.ResetEquivalence : Prop :=
  (∀ (s t : State) (u : Nat) (r : BitVec 128), exec (.rsReset u) s = .next t → t.rsp = some r →
    r.extractLsb' 0 4 = 0 →
    ∃ old unit, s.rs[u]? = some old ∧ t.rs[u]? = some unit ∧ Silent params unit ∧
      unit.len = old.len ∧ unit.res = old.res ∧ unit.rbits = old.rbits ∧ unit.cps = old.cps ∧
      unit.cfgv = true) ∧
  (∀ (s t : State) (u : Nat) (fclk fs fpass : F) (r : BitVec 128),
    exec (.rsConfig u fclk fs fpass) s = .next t → t.rsp = some r → r.extractLsb' 0 4 = 0 →
    ∃ unit, t.rs[u]? = some unit ∧ Silent params unit ∧ unit.cfgv = true) ∧
  ∀ (s : State) (a b : Nat) (ua ub : RsUnit F) (xs : List F), s.Sound params → s.halted = false →
    s.rs[a]? = some ua → s.rs[b]? = some ub → ua.cfgv = true → ub.cfgv = true →
    Silent params ua → Silent params ub → ua.len = ub.len → ua.res = ub.res →
    ua.rbits = ub.rbits → ua.cps = ub.cps →
    ∃ ys ta tb, feed a xs s = some (ys, ta) ∧ feed b xs s = some (ys, tb)

/-- R172. `RS.OUTPUT`: E_UNCONFIG on an unconfigured unit; else the last output's pattern, at any time;
only ERR is written, and READY stays. -/
def Obligations.RsOutputReturnsLast : Prop :=
  ∀ (s : State) (u : Nat) (unit : RsUnit F), s.halted = false → s.rs[u]? = some unit →
    (unit.cfgv = false → exec (.rsOutput u) s = .next { s with
      rs := s.rs.set u { unit with err := 5 }
      rsp := some (responseOf .eUnconfig (rsStatus { unit with err := 5 }) s.faultReg 0) }) ∧
    (unit.cfgv = true → exec (.rsOutput u) s = .next { s with
      rs := s.rs.set u { unit with err := 0 }
      rsp := some (responseOf .ok (rsStatus { unit with err := 0 }) s.faultReg unit.out) })

/-- R174. `RS.RESET`: E_UNCONFIG on an unconfigured unit; else every history element, the accumulator,
READY and ERR become 0, and cursor, output, configuration, cache and every other unit stay. -/
def Obligations.RsResetClears : Prop :=
  ∀ (s : State) (u : Nat) (unit : RsUnit F), s.halted = false → s.rs[u]? = some unit →
    (unit.cfgv = false → exec (.rsReset u) s = .next { s with
      rs := s.rs.set u { unit with err := 5 }
      rsp := some (responseOf .eUnconfig (rsStatus { unit with err := 5 }) s.faultReg 0) }) ∧
    (unit.cfgv = true → ∃ hist : Memory F, (∀ k, hist.read k = 0) ∧
      let unit' : RsUnit F := { unit with hist := hist, acc := 0, ready := false, err := 0 }
      exec (.rsReset u) s = .next { s with
        rs := s.rs.set u unit'
        rsp := some (responseOf .ok (rsStatus unit') s.faultReg 0) })

/-! ### Numerics -/

/-- Sum, difference, product and quotient of finite values are rounded once to the nearest binary64
value, ties to even (00_scope.md section 5, the reference numerics of log 1), where they are finite. -/
def Obligations.ArithmeticRoundsToNearestEven : Prop :=
  ∀ a b : F, Binary64.isFinite a = true → Binary64.isFinite b = true →
    (Binary64.isFinite (Binary64.add a b) = true →
      NearestEven (Binary64.toRat a + Binary64.toRat b) (Binary64.add a b)) ∧
    (Binary64.isFinite (Binary64.sub a b) = true →
      NearestEven (Binary64.toRat a - Binary64.toRat b) (Binary64.sub a b)) ∧
    (Binary64.isFinite (Binary64.mul a b) = true →
      NearestEven (Binary64.toRat a * Binary64.toRat b) (Binary64.mul a b)) ∧
    (Binary64.toRat b ≠ 0 → Binary64.isFinite (Binary64.div a b) = true →
      NearestEven (Binary64.toRat a / Binary64.toRat b) (Binary64.div a b))

/-- The square root of a finite value that is not negative is the binary64 value nearest to the real
square root (00_scope.md section 5, the reference numerics of log 1). -/
def Obligations.SquareRootRoundsToNearest : Prop :=
  ∀ a c : F, Binary64.isFinite a = true → 0 ≤ Binary64.toRat a → Binary64.isFinite c = true →
    Binary64.isFinite (Binary64.sqrt a) = true ∧
    |(Binary64.toRat (Binary64.sqrt a) : ℝ) - Real.sqrt (Binary64.toRat a : ℝ)| ≤
      |(Binary64.toRat c : ℝ) - Real.sqrt (Binary64.toRat a : ℝ)|

/-- Integers and decimal literals become the nearest binary64 value, ties to even (00_scope.md section 5,
the reference numerics of log 1), where that is finite. -/
def Obligations.LiteralsRoundToNearestEven : Prop :=
  (∀ z : Int, Binary64.isFinite (Binary64.ofInt z) = true → NearestEven z (Binary64.ofInt z)) ∧
  ∀ l : Lit, Binary64.isFinite (Binary64.ofLit l) = true →
    NearestEven ((l.mantissa : ℚ) / 10 ^ l.places) (Binary64.ofLit l)

/-- The Bessel helper is exactly 1 at 0 and is even (40_numeric_primitives.md section 1, the inferences
R112 (a) and (b)). For an `x` on which the loop never ends, such as 2^1000, that it is even rests on log 12
(DESIGN CHOICE): the free value that stands for it there is one of the magnitude. -/
def Obligations.BesselAtZeroAndEven : Prop :=
  i0 Binary64.ops Binary64.zero = Binary64.one ∧
  ∀ x : F, Binary64.isFinite x = true →
    i0 Binary64.ops (x ^^^ 0x8000000000000000#64) = i0 Binary64.ops x

/-- The Bessel helper is R110's loop (40_numeric_primitives.md section 1), under every `NUM`: where the loop's
test first holds after `k` passes, `k` at least 1, it is the sum after them. Under the reference numerics the
loop ends within 20 passes on every argument from 0 to beta (from the inference R112 (c)). Nothing is said
where the loop never ends (log 12). -/
def Obligations.BesselSeriesEnds : Prop :=
  (∀ (α : Type) (N : NumOps α) (x : α) (k : Nat),
    let halfx := N.div x (N.ofInt 2)
    let done : Nat → Bool := fun j =>
      let after := besselAfter N halfx j
      besselDone N after.1 after.2.1
    1 ≤ k → done k = true → (∀ j, 1 ≤ j → j < k → done j = false) → i0 N x = (besselAfter N halfx k).1) ∧
  ∀ x : F, Binary64.le Binary64.zero x = true → Binary64.le x (kaiserBeta params) = true →
    ∃ k, 1 ≤ k ∧ k ≤ 20 ∧
      let after := besselAfter Binary64.ops (Binary64.div x (Binary64.ofInt 2)) k
      besselDone Binary64.ops after.1 after.2.1 = true

/-- The edges of the Kaiser window (40_numeric_primitives.md section 2, the inference R117): zero from
normalized distance 1 on, 1 at the centre, and inside a square root of a value above 0 and at most 1. -/
def Obligations.KaiserWindowEdges : Prop :=
  (∀ beta i0beta xt : F, Binary64.ge (Binary64.abs xt) Binary64.one = true →
    kaiser Binary64.ops beta i0beta xt = Binary64.zero) ∧
  kaiser Binary64.ops (kaiserBeta params) (kaiserI0Beta params) Binary64.zero = Binary64.one ∧
  ∀ xt : F, Binary64.lt (Binary64.abs xt) Binary64.one = true →
    Binary64.lt Binary64.zero (Binary64.sub Binary64.one (Binary64.mul xt xt)) = true ∧
    Binary64.le (Binary64.sub Binary64.one (Binary64.mul xt xt)) Binary64.one = true

/-- The order of a convolution (40_numeric_primitives.md section 3): from `F.zero`, ascending, one rounded
product and one rounded sum for each tap. -/
def Obligations.ConvolutionOrder : Prop :=
  convolve Binary64.ops [] [] = Binary64.zero ∧
  ∀ (a b : List F) (x y : F), a.length = b.length →
    convolve Binary64.ops (a ++ [x]) (b ++ [y]) =
      Binary64.add (convolve Binary64.ops a b) (Binary64.mul x y)

/-- A silent window gives a positive zero against finite coefficients (40_numeric_primitives.md section 3,
the inference R119). -/
def Obligations.SilenceConvolvesToZero : Prop :=
  ∀ b : List F, (∀ c ∈ b, Binary64.isFinite c = true) →
    convolve Binary64.ops (List.replicate b.length Binary64.zero) b = Binary64.zero
end

