-- ==== Sys2Proof/Laws/Binary64.lean ====
section
/-!
SUPPORT. The fields of a packed value, the bound of a rounded magnitude and what rounding a quotient of
integers can answer (spec/00_scope.md R14).
-/

namespace Sys2Proof.Machine.Binary64

theorem pack_toNat (neg : Bool) {mag : Nat} (h : mag < 2 ^ 63) :
    (pack neg mag).toNat = if neg then 2 ^ 63 + mag else mag := by
  cases neg
  · simp [pack]; omega
  · simp [pack]; omega

@[simp] theorem sign_pack (neg : Bool) {mag : Nat} (h : mag < 2 ^ 63) : sign (pack neg mag) = neg := by
  rw [sign, BitVec.msb_eq_decide, pack_toNat neg h]
  cases neg <;> (simp; try omega)

@[simp] theorem magField_pack (neg : Bool) {mag : Nat} (h : mag < 2 ^ 63) :
    magField (pack neg mag) = mag := by
  rw [magField, pack_toNat neg h]
  cases neg <;> simp <;> omega

theorem expField_eq (w : F) : expField w = magField w / 2 ^ 52 := by
  simp only [expField, magField]
  omega

theorem fracField_eq (w : F) : fracField w = magField w % 2 ^ 52 := by
  simp only [fracField, magField]
  omega

theorem magField_lt (w : F) : magField w < 2 ^ 63 := Nat.mod_lt _ (by decide)

/-- Finite means: a magnitude pattern below infinity's. -/
theorem isFinite_iff (w : F) : isFinite w = true ↔ magField w < infMag := by
  have h := magField_lt w
  simp only [isFinite, bne_iff_ne, expField_eq, infMag]
  omega

theorem isFinite_pack (neg : Bool) {mag : Nat} (h : mag < 2 ^ 63) :
    isFinite (pack neg mag) = true ↔ mag < infMag := by
  rw [isFinite_iff, magField_pack neg h]

theorem not_isNaN_of_isFinite {w : F} (h : isFinite w = true) : isNaN w = false := by
  simp_all [isFinite, isNaN]

theorem not_isInf_of_isFinite {w : F} (h : isFinite w = true) : isInf w = false := by
  simp_all [isFinite, isInf]

theorem roundMag_le_infMag (n d : Nat) : roundMag n d ≤ infMag := by
  rw [roundMag]
  exact Nat.min_le_right _ _

theorem roundMag_lt (n d : Nat) : roundMag n d < 2 ^ 63 :=
  Nat.lt_of_le_of_lt (roundMag_le_infMag n d) (by decide)

/-- What `roundHalfEven` answers: an integer within half of the quotient, and an even one where the
quotient lies half-way. -/
theorem roundHalfEven_spec (n d : Nat) (hd : 0 < d) :
    2 * (roundHalfEven n d * d) ≤ 2 * n + d ∧ 2 * n ≤ 2 * (roundHalfEven n d * d) + d ∧
      ((2 * (roundHalfEven n d * d) = 2 * n + d ∨ 2 * n = 2 * (roundHalfEven n d * d) + d) →
        roundHalfEven n d % 2 = 0) := by
  have hn := Nat.div_add_mod n d
  have hr := Nat.mod_lt n hd
  simp only [roundHalfEven]
  have e1 : (n / d + 1) * d = d * (n / d) + d := by ring
  have e2 : n / d * d = d * (n / d) := Nat.mul_comm _ _
  split
  · rw [e1]; omega
  · rw [e2]; omega

end Sys2Proof.Machine.Binary64
end

