-- ==== Sys2Proof/Laws/Memory.lean ====
section
/-!
SUPPORT. The laws of the element memories and of the cache: read after write, what a write leaves
alone, and that every operation keeps the canonical form.
-/

namespace Sys2Proof.Machine

variable {α : Type} [Inhabited α]

/-- A bit vector that nothing has written reads 0 (logs 5 and 17). -/
@[simp] theorem default_bitVec (w : Nat) : (default : BitVec w) = 0#w := rfl

@[simp] theorem Memory.read_nil (i : Nat) : Memory.read ([] : Memory α) i = default := rfl

@[simp] theorem Memory.wf_nil [DecidableEq α] (size : Nat) : Memory.wf size ([] : Memory α) = true := rfl

/-- An index below every listed one reads 0. -/
theorem Memory.read_of_below {m : Memory α} {i : Nat} (h : ∀ c ∈ m, i < c.1) : m.read i = default := by
  induction m with
  | nil => rfl
  | cons c rest ih =>
    obtain ⟨a, x⟩ := c
    have ha : i < a := h (a, x) (by simp)
    rw [Memory.read, if_neg (by omega), ih fun c hc => h c (by simp [hc])]

/-- What the canonical form of a nonempty memory says. -/
theorem Memory.wf_cons [DecidableEq α] {size a : Nat} {x : α} {rest : Memory α} :
    Memory.wf size ((a, x) :: rest) = true ↔
      a < size ∧ x ≠ default ∧ (∀ c ∈ rest, a < c.1) ∧ Memory.wf size rest = true := by
  simp only [Memory.wf, Bool.and_eq_true, decide_eq_true_eq, List.all_eq_true, and_assoc]

theorem Memory.read_write_same [DecidableEq α] (m : Memory α) (i : Nat) (v : α) (size : Nat)
    (h : m.wf size = true) : (m.write i v).read i = v := by
  induction m with
  | nil =>
    by_cases hv : v = default <;> simp [Memory.write, Memory.read, hv]
  | cons c rest ih =>
    obtain ⟨a, x⟩ := c
    obtain ⟨-, -, hlow, hrest⟩ := Memory.wf_cons.mp h
    rw [Memory.write]
    split
    next hia =>
      split
      next hv => rw [Memory.read, if_neg (by omega), Memory.read_of_below fun c hc => ?_, hv]
                 exact lt_trans hia (hlow c hc)
      next => rw [Memory.read, if_pos rfl]
    next =>
      split
      next hia =>
        subst hia
        split
        next hv => rw [Memory.read_of_below hlow, hv]
        next => rw [Memory.read, if_pos rfl]
      next => rw [Memory.read, if_neg (by omega), ih hrest]

theorem Memory.read_write_other [DecidableEq α] (m : Memory α) (i j : Nat) (v : α) (hij : j ≠ i) :
    (m.write i v).read j = m.read j := by
  induction m with
  | nil => by_cases hv : v = default <;> simp [Memory.write, Memory.read, hv, hij]
  | cons c rest ih =>
    obtain ⟨a, x⟩ := c
    rw [Memory.write]
    split
    next => split <;> simp [Memory.read, hij]
    next =>
      split
      next hia =>
        subst hia
        split <;> simp [Memory.read, hij]
      next => simp only [Memory.read, ih]

/-- Where the listed indices of a written memory come from. -/
theorem Memory.mem_write [DecidableEq α] {m : Memory α} {i : Nat} {v : α} {c : Nat × α}
    (h : c ∈ m.write i v) : c.1 = i ∨ c ∈ m := by
  induction m with
  | nil =>
    rw [Memory.write] at h
    split at h <;> simp_all
  | cons d rest ih =>
    obtain ⟨a, x⟩ := d
    rw [Memory.write] at h
    split at h
    next =>
      split at h
      next => exact .inr h
      next =>
        rcases List.mem_cons.mp h with rfl | h
        · exact .inl rfl
        · exact .inr h
    next =>
      split at h
      next =>
        split at h
        next => exact .inr (List.mem_cons_of_mem _ h)
        next =>
          rcases List.mem_cons.mp h with rfl | h
          · exact .inl rfl
          · exact .inr (List.mem_cons_of_mem _ h)
      next =>
        rcases List.mem_cons.mp h with rfl | h
        · simp
        · rcases ih h with h | h
          · exact .inl h
          · simp [h]

/-- A write at an index in range keeps the canonical form. -/
theorem Memory.wf_write [DecidableEq α] {size : Nat} {m : Memory α} {i : Nat} {v : α} (h : m.wf size = true)
    (hi : i < size) : (m.write i v).wf size = true := by
  induction m with
  | nil =>
    rw [Memory.write]
    split
    next => rfl
    next hv => simpa [Memory.wf] using ⟨hi, hv⟩
  | cons c rest ih =>
    obtain ⟨a, x⟩ := c
    obtain ⟨ha, hx, hlow, hrest⟩ := Memory.wf_cons.mp h
    rw [Memory.write]
    split
    next hia =>
      split
      next => exact h
      next hv =>
        refine Memory.wf_cons.mpr ⟨hi, hv, fun c hc => ?_, h⟩
        rcases List.mem_cons.mp hc with rfl | hc
        · exact hia
        · exact lt_trans hia (hlow c hc)
    next hia =>
      split
      next hia' =>
        subst hia'
        split
        next => exact hrest
        next hv => exact Memory.wf_cons.mpr ⟨hi, hv, hlow, hrest⟩
      next hne =>
        refine Memory.wf_cons.mpr ⟨ha, hx, fun c hc => ?_, ih hrest⟩
        rcases Memory.mem_write hc with h | h
        · omega
        · exact hlow c h

/-- Canonical memories that read alike are the same data. -/
theorem Memory.ext_of_read [DecidableEq α] {size : Nat} {m m' : Memory α} (h : m.wf size = true)
    (h' : m'.wf size = true) (hr : ∀ i, m.read i = m'.read i) : m = m' := by
  induction m generalizing m' with
  | nil =>
    cases m' with
    | nil => rfl
    | cons c rest =>
      obtain ⟨a, x⟩ := c
      obtain ⟨-, hx, -, -⟩ := Memory.wf_cons.mp h'
      exact absurd (by simpa [Memory.read] using (hr a).symm) hx
  | cons c rest ih =>
    obtain ⟨a, x⟩ := c
    obtain ⟨-, hx, hlow, hrest⟩ := Memory.wf_cons.mp h
    cases m' with
    | nil => exact absurd (by simpa [Memory.read] using hr a) hx
    | cons c' rest' =>
      obtain ⟨a', x'⟩ := c'
      obtain ⟨-, hx', hlow', hrest'⟩ := Memory.wf_cons.mp h'
      have haa : a = a' := by
        rcases lt_trichotomy a a' with hlt | heq | hgt
        · have := hr a
          rw [Memory.read, if_pos rfl, Memory.read, if_neg (by omega),
            Memory.read_of_below fun c hc => lt_trans hlt (hlow' c hc)] at this
          exact absurd this hx
        · exact heq
        · have := hr a'
          rw [Memory.read, if_neg (by omega), Memory.read_of_below fun c hc => lt_trans hgt (hlow c hc),
            Memory.read, if_pos rfl] at this
          exact absurd this.symm hx'
      subst haa
      have hxx : x = x' := by simpa [Memory.read] using hr a
      subst hxx
      congr 1
      refine ih hrest hrest' fun i => ?_
      by_cases hi : i = a
      · subst hi
        rw [Memory.read_of_below hlow, Memory.read_of_below hlow']
      · simpa [Memory.read, hi] using hr i

/-- A memory filled with what an unlisted element reads lists nothing. -/
@[simp] theorem Memory.fill_default [DecidableEq α] (size : Nat) :
    Memory.fill size (default : α) = [] := by
  rw [Memory.fill, if_pos rfl]

/-- The listed elements of a filled memory. -/
theorem Memory.fill_of_ne [DecidableEq α] {size : Nat} {v : α} (hv : v ≠ default) :
    Memory.fill size v = (List.range' 0 size).map fun i => (i, v) := by
  rw [Memory.fill, if_neg hv, List.range_eq_range']

/-- Every element of a filled memory is the one it is filled with. -/
theorem Memory.read_fill [DecidableEq α] {size i : Nat} (v : α) (hi : i < size) :
    (Memory.fill size v).read i = v := by
  by_cases hv : v = default
  · subst hv; simp
  · have key : ∀ (n s : Nat), s ≤ i → i < s + n →
        Memory.read ((List.range' s n).map fun j => (j, v)) i = v := by
      intro n
      induction n with
      | zero => intro s h1 h2; omega
      | succ n ih =>
        intro s h1 h2
        rw [List.range'_succ, List.map_cons, Memory.read]
        split
        · rfl
        · exact ih (s + 1) (by omega) (by omega)
    rw [Memory.fill_of_ne hv]
    exact key size 0 (by omega) (by omega)

/-- A filled memory has the canonical form. -/
theorem Memory.wf_fill [DecidableEq α] (size : Nat) (v : α) : (Memory.fill size v).wf size = true := by
  by_cases hv : v = default
  · subst hv; simp
  · have key : ∀ (n s : Nat), s + n ≤ size →
        Memory.wf size ((List.range' s n).map fun j => (j, v)) = true := by
      intro n
      induction n with
      | zero => intro s _; rfl
      | succ n ih =>
        intro s h
        rw [List.range'_succ, List.map_cons, Memory.wf_cons]
        refine ⟨by omega, hv, fun c hc => ?_, ih (s + 1) (by omega)⟩
        obtain ⟨j, hj, rfl⟩ := List.mem_map.1 hc
        have := (List.mem_range'_1.1 hj).1
        simp only
        omega
    rw [Memory.fill_of_ne hv]
    exact key size 0 (by omega)

/-- A window that is read has `n` elements, the memory's from `start` on. -/
theorem Memory.window_eq_some {size : Nat} {m : Memory α} {start n : Int} {xs : List (α)}
    (h : m.window size start n = some xs) :
    xs.length = n.toNat ∧ ∀ j, (hj : j < xs.length) → xs[j] = m.read (start.toNat + j) := by
  rw [Memory.window] at h
  split at h
  next hn => cases h; simp; omega
  next =>
    split at h
    next => cases h; simp
    next => cases h

theorem Memory.window_of_range {size : Nat} (m : Memory α) {start n : Int} (h0 : 0 ≤ start)
    (hs : start + n ≤ size) (hn : 0 < n) :
    m.window size start n = some ((List.range n.toNat).map fun j => m.read (start.toNat + j)) := by
  rw [Memory.window, if_neg (by omega), if_pos ⟨h0, hs⟩]

/-! ### The cache -/

variable {F : Type}

theorem FilterKey.lt_irrefl (a : FilterKey) : a.lt a = false := by
  simp [FilterKey.lt]

theorem FilterKey.lt_trans {a b c : FilterKey} (h : a.lt b = true) (h' : b.lt c = true) :
    a.lt c = true := by
  simp only [FilterKey.lt, Bool.or_eq_true, Bool.and_eq_true, decide_eq_true_eq] at *
  bv_omega

theorem FilterKey.lt_or_eq_or_gt (a b : FilterKey) : a.lt b = true ∨ a = b ∨ b.lt a = true := by
  obtain ⟨al, ar, ab⟩ := a
  obtain ⟨bl, br, bb⟩ := b
  simp only [FilterKey.lt, Bool.or_eq_true, Bool.and_eq_true, decide_eq_true_eq, FilterKey.mk.injEq]
  bv_omega

@[simp] theorem Cache.find?_nil (k : FilterKey) : Cache.find? ([] : Cache F) k = none := rfl

/-- An insertion gives its key the table, where the key was absent. -/
theorem Cache.find?_insert_same {c : Cache F} {k : FilterKey} {t : FilterTable F}
    (h : c.find? k = none) : (c.insert k t).find? k = some t := by
  induction c with
  | nil => simp [Cache.insert, Cache.find?]
  | cons e rest ih =>
    obtain ⟨k', t'⟩ := e
    rw [Cache.find?] at h
    split at h
    next => cases h
    next hk =>
      rw [Cache.insert, if_neg hk]
      split
      next => simp [Cache.find?]
      next => rw [Cache.find?, if_neg hk, ih h]

theorem Cache.find?_insert_other {c : Cache F} {k k' : FilterKey} {t : FilterTable F} (hk : k' ≠ k) :
    (c.insert k t).find? k' = c.find? k' := by
  induction c with
  | nil => simp [Cache.insert, Cache.find?, hk]
  | cons e rest ih =>
    obtain ⟨a, ta⟩ := e
    rw [Cache.insert]
    split
    next => rfl
    next =>
      split
      next => rw [Cache.find?, if_neg hk]
      next => simp only [Cache.find?, ih]

/-- An insertion at an absent key keeps every entry that was present (R24: never evicted, never
mutated). -/
theorem Cache.find?_insert_of_some {c : Cache F} {k k' : FilterKey} {t t' : FilterTable F}
    (h : c.find? k' = some t') (hk : c.find? k = none) : (c.insert k t).find? k' = some t' := by
  rw [Cache.find?_insert_other (by rintro rfl; simp [h] at hk), h]

/-- What `find?` finds is an entry. -/
theorem Cache.mem_of_find? {c : Cache F} {k : FilterKey} {t : FilterTable F} (h : c.find? k = some t) :
    (k, t) ∈ c := by
  induction c with
  | nil => cases h
  | cons e rest ih =>
    obtain ⟨a, ta⟩ := e
    rw [Cache.find?] at h
    split at h
    next hk => cases h; simp [hk]
    next => simp [ih h]

/-- Where the entries of a cache after an insertion come from. -/
theorem Cache.mem_insert {c : Cache F} {k : FilterKey} {t : FilterTable F} {e : FilterKey × FilterTable F}
    (h : e ∈ c.insert k t) : e = (k, t) ∨ e ∈ c := by
  induction c with
  | nil => simpa [Cache.insert] using h
  | cons d rest ih =>
    obtain ⟨a, ta⟩ := d
    rw [Cache.insert] at h
    split at h
    next => exact .inr h
    next =>
      split at h
      next => simpa using h
      next =>
        rcases List.mem_cons.mp h with rfl | h
        · simp
        · rcases ih h with h | h
          · exact .inl h
          · simp [h]

theorem Cache.wf_cons {k : FilterKey} {t : FilterTable F} {rest : Cache F} :
    Cache.wf ((k, t) :: rest) = true ↔ (∀ c ∈ rest, k.lt c.1 = true) ∧ Cache.wf rest = true := by
  simp only [Cache.wf, Bool.and_eq_true, List.all_eq_true]

/-- An insertion keeps the cache's form. -/
theorem Cache.wf_insert {c : Cache F} {k : FilterKey} {t : FilterTable F} (h : c.wf = true) :
    (c.insert k t).wf = true := by
  induction c with
  | nil => rfl
  | cons e rest ih =>
    obtain ⟨a, ta⟩ := e
    obtain ⟨hlow, hrest⟩ := Cache.wf_cons.mp h
    rw [Cache.insert]
    split
    next => exact h
    next hne =>
      split
      next hlt =>
        refine Cache.wf_cons.mpr ⟨fun c hc => ?_, h⟩
        rcases List.mem_cons.mp hc with rfl | hc
        · exact hlt
        · exact FilterKey.lt_trans hlt (hlow c hc)
      next hlt =>
        refine Cache.wf_cons.mpr ⟨fun c hc => ?_, ih hrest⟩
        rcases Cache.mem_insert hc with rfl | hc
        · rcases FilterKey.lt_or_eq_or_gt a k with h | h | h
          · exact h
          · exact absurd h.symm hne
          · exact absurd h hlt
        · exact hlow c hc

/-- A cache in its form that finds the same tables is the same data. -/
theorem Cache.ext_of_find? {c c' : Cache F} (h : c.wf = true) (h' : c'.wf = true)
    (hf : ∀ k, c.find? k = c'.find? k) : c = c' := by
  have below : ∀ {d : Cache F} {k : FilterKey}, (∀ e ∈ d, k.lt e.1 = true) → d.find? k = none := by
    intro d k hd
    cases hfd : d.find? k with
    | none => rfl
    | some t => simpa [FilterKey.lt_irrefl] using hd _ (Cache.mem_of_find? hfd)
  induction c generalizing c' with
  | nil =>
    cases c' with
    | nil => rfl
    | cons e rest =>
      obtain ⟨a, t⟩ := e
      exact absurd (hf a) (by simp [Cache.find?])
  | cons e rest ih =>
    obtain ⟨a, t⟩ := e
    obtain ⟨hlow, hrest⟩ := Cache.wf_cons.mp h
    cases c' with
    | nil => exact absurd (hf a) (by simp [Cache.find?])
    | cons e' rest' =>
      obtain ⟨a', t'⟩ := e'
      obtain ⟨hlow', hrest'⟩ := Cache.wf_cons.mp h'
      have haa : a = a' := by
        rcases FilterKey.lt_or_eq_or_gt a a' with hlt | heq | hgt
        · have := hf a
          rw [below (d := (a', t') :: rest') fun e he => ?_] at this
          · simp [Cache.find?] at this
          · rcases List.mem_cons.mp he with rfl | he
            · exact hlt
            · exact FilterKey.lt_trans hlt (hlow' e he)
        · exact heq
        · have := hf a'
          rw [below (d := (a, t) :: rest) fun e he => ?_] at this
          · simp [Cache.find?] at this
          · rcases List.mem_cons.mp he with rfl | he
            · exact hgt
            · exact FilterKey.lt_trans hgt (hlow e he)
      subst haa
      have htt : t = t' := by simpa [Cache.find?] using hf a
      subst htt
      congr 1
      refine ih hrest hrest' fun k => ?_
      by_cases hk : k = a
      · subst hk
        rw [below hlow, below hlow']
      · simpa [Cache.find?, hk] using hf k

/-- The memories of the state after reset have their canonical form: every transfer table, every unit's
history, and the cache. -/
theorem State.reset_memories_wf :
    (∀ m ∈ State.reset.tt, m.wf 65536 = true) ∧
      (∀ unit ∈ State.reset.rs, unit.hist.wf (2 * params.ringHalf) = true) ∧
      Cache.wf State.reset.cache = true := by
  refine ⟨?_, ?_, rfl⟩
  · intro m hm
    rw [State.reset, State.resetWith] at hm
    rw [List.eq_of_mem_replicate hm]
    rfl
  · intro unit hu
    rw [State.reset, State.resetWith] at hu
    rw [List.eq_of_mem_replicate hu]
    rfl

end Sys2Proof.Machine
end

