-- ==== Sys2Proof/Laws/Fields.lean ====
section
/-!
SUPPORT. The fields of the status views, of `FAULTREG` and of the response, read back one by one.
-/

namespace Sys2Proof.Machine

section response
variable (c : RspCode) (st fr : BitVec 16) (v : BitVec 64)

@[simp] theorem rspCode_responseOf : rspCode (responseOf c st fr v) = codeBits c := by
  ext i hi
  simp [rspCode, responseOf, fieldAt]
  grind

@[simp] theorem rspStatus_responseOf : rspStatus (responseOf c st fr v) = st := by
  ext i hi
  simp [rspStatus, responseOf, fieldAt]
  grind

@[simp] theorem rspFaultReg_responseOf : rspFaultReg (responseOf c st fr v) = fr := by
  ext i hi
  simp [rspFaultReg, responseOf, fieldAt]
  grind

@[simp] theorem rspValue_responseOf : rspValue (responseOf c st fr v) = v := by
  ext i hi
  simp [rspValue, responseOf, fieldAt]
  grind

/-- Bits 15:4 and 63:48 of a response are 0 (R88). -/
theorem responseOf_zero_bits (i : Nat) (hi : (4 ≤ i ∧ i < 16) ∨ (48 ≤ i ∧ i < 64)) :
    (responseOf c st fr v).getLsbD i = false := by
  simp [responseOf, fieldAt]
  grind
end response

section faultReg
variable (n : Nat) (c : FaultCode)

@[simp] theorem faultFlag_faultRegOf : faultFlag (faultRegOf n c) = true := by
  cases c <;> simp [faultFlag, faultRegOf, fieldAt, faultBits]

@[simp] theorem faultCodeField_faultRegOf : faultCodeField (faultRegOf n c) = faultBits c := by
  ext i hi
  simp [faultCodeField, faultRegOf, fieldAt]
  grind

@[simp] theorem faultUnitField_faultRegOf : faultUnitField (faultRegOf n c) = BitVec.ofNat 8 n := by
  ext i hi
  simp [faultUnitField, faultRegOf, fieldAt]
  grind

/-- The reserved bits 3:1 of `FAULTREG` read as 0 (R22). -/
theorem faultRegOf_reserved (i : Nat) (hi : 1 ≤ i ∧ i < 4) :
    (faultRegOf n c).getLsbD i = false := by
  simp [faultRegOf, fieldAt]
  grind
end faultReg

theorem codeBits_injective {c c' : RspCode} (h : codeBits c = codeBits c') : c = c' := by
  cases c <;> cases c' <;> first | rfl | exact absurd h (by decide)

theorem faultBits_injective {c c' : FaultCode} (h : faultBits c = faultBits c') : c = c' := by
  cases c <;> cases c' <;> first | rfl | exact absurd h (by decide)

end Sys2Proof.Machine
end

