-- ==== Sys2Proof/Laws/State.lean ====
section
/-!
SUPPORT. What each update of the state leaves in each field: one lemma per field per update, so that no
later proof unfolds a record update.
-/

namespace Sys2Proof.Machine

variable {F : Type}

section respond
variable (s : State.Over F) (c : RspCode) (st : BitVec 16) (v : BitVec 64)

@[simp] theorem respond_faultReg : (s.respond c st v).faultReg = s.faultReg := rfl
@[simp] theorem respond_cache : (s.respond c st v).cache = s.cache := rfl
@[simp] theorem respond_tt : (s.respond c st v).tt = s.tt := rfl
@[simp] theorem respond_rs : (s.respond c st v).rs = s.rs := rfl
@[simp] theorem respond_ins : (s.respond c st v).ins = s.ins := rfl
@[simp] theorem respond_events : (s.respond c st v).events = s.events := rfl
@[simp] theorem respond_halted : (s.respond c st v).halted = s.halted := rfl
@[simp] theorem respond_rsp :
    (s.respond c st v).rsp = some (responseOf c st s.faultReg (if c = .ok then v else 0)) := rfl

@[simp] theorem answerIllegal_faultReg : s.answerIllegal.faultReg = s.faultReg := rfl
@[simp] theorem answerIllegal_cache : s.answerIllegal.cache = s.cache := rfl
@[simp] theorem answerIllegal_tt : s.answerIllegal.tt = s.tt := rfl
@[simp] theorem answerIllegal_rs : s.answerIllegal.rs = s.rs := rfl
@[simp] theorem answerIllegal_ins : s.answerIllegal.ins = s.ins := rfl
@[simp] theorem answerIllegal_events : s.answerIllegal.events = s.events := rfl
@[simp] theorem answerIllegal_halted : s.answerIllegal.halted = s.halted := rfl
@[simp] theorem answerIllegal_rsp :
    s.answerIllegal.rsp = some (responseOf .eIllegal 0 s.faultReg 0) := rfl

@[simp] theorem answerHalted_faultReg : (s.answerHalted st).faultReg = s.faultReg := rfl
@[simp] theorem answerHalted_cache : (s.answerHalted st).cache = s.cache := rfl
@[simp] theorem answerHalted_tt : (s.answerHalted st).tt = s.tt := rfl
@[simp] theorem answerHalted_rs : (s.answerHalted st).rs = s.rs := rfl
@[simp] theorem answerHalted_ins : (s.answerHalted st).ins = s.ins := rfl
@[simp] theorem answerHalted_events : (s.answerHalted st).events = s.events := rfl
@[simp] theorem answerHalted_halted : (s.answerHalted st).halted = s.halted := rfl
@[simp] theorem answerHalted_rsp :
    (s.answerHalted st).rsp = some (responseOf .eHalted st s.faultReg 0) := rfl
end respond

section finish
variable (s : State.Over F) (k : Nat) (r : RsUnit F) (n : InUnit F) (c : RspCode) (v : BitVec 64)

@[simp] theorem rsFinish_faultReg : (s.rsFinish k r c v).faultReg = s.faultReg := rfl
@[simp] theorem rsFinish_cache : (s.rsFinish k r c v).cache = s.cache := rfl
@[simp] theorem rsFinish_tt : (s.rsFinish k r c v).tt = s.tt := rfl
@[simp] theorem rsFinish_rs : (s.rsFinish k r c v).rs = s.rs.set k r := rfl
@[simp] theorem rsFinish_ins : (s.rsFinish k r c v).ins = s.ins := rfl
@[simp] theorem rsFinish_events : (s.rsFinish k r c v).events = s.events := rfl
@[simp] theorem rsFinish_halted : (s.rsFinish k r c v).halted = s.halted := rfl
@[simp] theorem rsFinish_rsp : (s.rsFinish k r c v).rsp =
    some (responseOf c (rsStatus r) s.faultReg (if c = .ok then v else 0)) := rfl

@[simp] theorem inFinish_faultReg : (s.inFinish k n c v).faultReg = s.faultReg := rfl
@[simp] theorem inFinish_cache : (s.inFinish k n c v).cache = s.cache := rfl
@[simp] theorem inFinish_tt : (s.inFinish k n c v).tt = s.tt := rfl
@[simp] theorem inFinish_rs : (s.inFinish k n c v).rs = s.rs := rfl
@[simp] theorem inFinish_ins : (s.inFinish k n c v).ins = s.ins.set k n := rfl
@[simp] theorem inFinish_events : (s.inFinish k n c v).events = s.events := rfl
@[simp] theorem inFinish_halted : (s.inFinish k n c v).halted = s.halted := rfl
@[simp] theorem inFinish_rsp : (s.inFinish k n c v).rsp =
    some (responseOf c (inStatus n) s.faultReg (if c = .ok then v else 0)) := rfl
end finish

section outcomes
variable (s : State.Over F) (k : Nat) (r : RsUnit F) (n : InUnit F) (c : RspCode) (v : BitVec 64) (f : FaultCode)

@[simp] theorem rsOk_faultReg : (s.rsOk k r v).faultReg = s.faultReg := rfl
@[simp] theorem rsOk_cache : (s.rsOk k r v).cache = s.cache := rfl
@[simp] theorem rsOk_tt : (s.rsOk k r v).tt = s.tt := rfl
@[simp] theorem rsOk_rs : (s.rsOk k r v).rs = s.rs.set k { r with err := codeBits .ok } := rfl
@[simp] theorem rsOk_ins : (s.rsOk k r v).ins = s.ins := rfl
@[simp] theorem rsOk_events : (s.rsOk k r v).events = s.events := rfl
@[simp] theorem rsOk_halted : (s.rsOk k r v).halted = s.halted := rfl
@[simp] theorem rsOk_rsp : (s.rsOk k r v).rsp =
    some (responseOf .ok (rsStatus { r with err := codeBits .ok }) s.faultReg v) := rfl

@[simp] theorem inOk_faultReg : (s.inOk k n v).faultReg = s.faultReg := rfl
@[simp] theorem inOk_cache : (s.inOk k n v).cache = s.cache := rfl
@[simp] theorem inOk_tt : (s.inOk k n v).tt = s.tt := rfl
@[simp] theorem inOk_rs : (s.inOk k n v).rs = s.rs := rfl
@[simp] theorem inOk_ins : (s.inOk k n v).ins = s.ins.set k { n with err := codeBits .ok } := rfl
@[simp] theorem inOk_events : (s.inOk k n v).events = s.events := rfl
@[simp] theorem inOk_halted : (s.inOk k n v).halted = s.halted := rfl
@[simp] theorem inOk_rsp : (s.inOk k n v).rsp =
    some (responseOf .ok (inStatus { n with err := codeBits .ok }) s.faultReg v) := rfl

@[simp] theorem rsError_faultReg : (s.rsError k r c).faultReg = s.faultReg := rfl
@[simp] theorem rsError_cache : (s.rsError k r c).cache = s.cache := rfl
@[simp] theorem rsError_tt : (s.rsError k r c).tt = s.tt := rfl
@[simp] theorem rsError_rs : (s.rsError k r c).rs = s.rs.set k { r with err := codeBits c } := rfl
@[simp] theorem rsError_ins : (s.rsError k r c).ins = s.ins := rfl
@[simp] theorem rsError_events : (s.rsError k r c).events = s.events := rfl
@[simp] theorem rsError_halted : (s.rsError k r c).halted = s.halted := rfl
@[simp] theorem rsError_rsp : (s.rsError k r c).rsp =
    some (responseOf c (rsStatus { r with err := codeBits c }) s.faultReg 0) := by
  simp [State.Over.rsError]

@[simp] theorem inError_faultReg : (s.inError k n c).faultReg = s.faultReg := rfl
@[simp] theorem inError_cache : (s.inError k n c).cache = s.cache := rfl
@[simp] theorem inError_tt : (s.inError k n c).tt = s.tt := rfl
@[simp] theorem inError_rs : (s.inError k n c).rs = s.rs := rfl
@[simp] theorem inError_ins : (s.inError k n c).ins = s.ins.set k { n with err := codeBits c } := rfl
@[simp] theorem inError_events : (s.inError k n c).events = s.events := rfl
@[simp] theorem inError_halted : (s.inError k n c).halted = s.halted := rfl
@[simp] theorem inError_rsp : (s.inError k n c).rsp =
    some (responseOf c (inStatus { n with err := codeBits c }) s.faultReg 0) := by
  simp [State.Over.inError]

@[simp] theorem raise_faultReg : (s.raise k f).faultReg = faultRegOf k f := rfl
@[simp] theorem raise_cache : (s.raise k f).cache = s.cache := rfl
@[simp] theorem raise_tt : (s.raise k f).tt = s.tt := rfl
@[simp] theorem raise_rs : (s.raise k f).rs = s.rs := rfl
@[simp] theorem raise_ins : (s.raise k f).ins = s.ins := rfl
@[simp] theorem raise_events : (s.raise k f).events = s.events := rfl
@[simp] theorem raise_rsp : (s.raise k f).rsp =
    some (responseOf .eHalted (s.inStatusAt k) (faultRegOf k f) 0) := rfl
end outcomes

section reset
variable [Inhabited F] (s : State.Over F) (nrs nin : Nat) (tables : List (Memory U16))

@[simp] theorem resetWith_faultReg : (State.resetWith (F := F) nrs nin tables).faultReg = 0 := rfl
@[simp] theorem resetWith_cache : (State.resetWith (F := F) nrs nin tables).cache = [] := rfl
@[simp] theorem resetWith_tt : (State.resetWith (F := F) nrs nin tables).tt = tables := rfl
@[simp] theorem resetWith_rs :
    (State.resetWith (F := F) nrs nin tables).rs = List.replicate nrs RsUnit.reset := rfl
@[simp] theorem resetWith_ins :
    (State.resetWith (F := F) nrs nin tables).ins = List.replicate nin InUnit.reset := rfl
@[simp] theorem resetWith_rsp : (State.resetWith (F := F) nrs nin tables).rsp = none := rfl
@[simp] theorem resetWith_events : (State.resetWith (F := F) nrs nin tables).events = [] := rfl

@[simp] theorem hardwareReset_faultReg : s.hardwareReset.faultReg = 0 := rfl
@[simp] theorem hardwareReset_cache : s.hardwareReset.cache = [] := rfl
@[simp] theorem hardwareReset_tt : s.hardwareReset.tt = s.tt := rfl
@[simp] theorem hardwareReset_rs :
    s.hardwareReset.rs = List.replicate s.rs.length RsUnit.reset := rfl
@[simp] theorem hardwareReset_ins :
    s.hardwareReset.ins = List.replicate s.ins.length InUnit.reset := rfl
@[simp] theorem hardwareReset_rsp : s.hardwareReset.rsp = none := rfl
@[simp] theorem hardwareReset_events : s.hardwareReset.events = s.events := rfl
@[simp] theorem hardwareReset_halted : s.hardwareReset.halted = false := by
  simp [State.Over.halted, faultFlag]
end reset

end Sys2Proof.Machine
end

