-- ==== Sys2Proof/Laws/Ops.lean ====
section
/-!
SUPPORT. For each shared operation and each command, one lemma that says everything it can do; later
proofs cite these instead of unfolding. The commands' lemmas are stated for any parameters `P`: those of
`exec` are the ones at `params`, to which `exec` unfolds.
-/

namespace Sys2Proof.Machine

variable {F : Type}

/-! ### The checks every command makes first -/

/-- The ways a command to a Resampler unit ends in a next state (R90). -/
theorem onRs_next {u : Nat} {s t : State.Over F} {command : RsUnit F → Result F}
    (h : onRs u s command = .next t) :
    (s.halted = true ∧ t = s.answerHalted (s.rsStatusAt u)) ∨
    (s.halted = false ∧ s.rs[u]? = none ∧ t = s.answerIllegal) ∨
    (∃ unit, s.halted = false ∧ s.rs[u]? = some unit ∧ command unit = .next t) := by
  rw [onRs] at h
  cases hh : s.halted with
  | true => simp_all
  | false =>
    cases hu : s.rs[u]? with
    | none => simp_all
    | some unit => exact .inr (.inr ⟨unit, rfl, rfl, by simpa [hh, hu] using h⟩)

/-- The ways a command to an Integrator unit ends in a next state (R90). -/
theorem onIn_next {n : Nat} {s t : State.Over F} {command : InUnit F → Result F}
    (h : onIn n s command = .next t) :
    (s.halted = true ∧ t = s.answerHalted (s.inStatusAt n)) ∨
    (s.halted = false ∧ s.ins[n]? = none ∧ t = s.answerIllegal) ∨
    (∃ unit, s.halted = false ∧ s.ins[n]? = some unit ∧ command unit = .next t) := by
  rw [onIn] at h
  cases hh : s.halted with
  | true => simp_all
  | false =>
    cases hu : s.ins[n]? with
    | none => simp_all
    | some unit => exact .inr (.inr ⟨unit, rfl, rfl, by simpa [hh, hu] using h⟩)

/-- A command on a running core reaches the addressed Resampler unit. -/
theorem onRs_unit {u : Nat} {s : State.Over F} {unit : RsUnit F} (command : RsUnit F → Result F)
    (hh : s.halted = false) (hu : s.rs[u]? = some unit) : onRs u s command = command unit := by
  simp [onRs, hh, hu]

/-- A command on a running core reaches the addressed Integrator unit. -/
theorem onIn_unit {n : Nat} {s : State.Over F} {unit : InUnit F} (command : InUnit F → Result F)
    (hh : s.halted = false) (hn : s.ins[n]? = some unit) : onIn n s command = command unit := by
  simp [onIn, hh, hn]

theorem onRs_halted {u : Nat} {s : State.Over F} (command : RsUnit F → Result F) (hh : s.halted = true) :
    onRs u s command = .next (s.answerHalted (s.rsStatusAt u)) := by
  simp [onRs, hh]

theorem onIn_halted {n : Nat} {s : State.Over F} (command : InUnit F → Result F) (hh : s.halted = true) :
    onIn n s command = .next (s.answerHalted (s.inStatusAt n)) := by
  simp [onIn, hh]

/-! ### The Resampler's commands -/

/-- What `RS.CONFIG` does with a running core's unit (R130, R214). -/
theorem rsConfigWith_next [Inhabited F] [DecidableEq F] {P : Params F} {u : Nat} {fclk fs fpass : F}
    {s t : State.Over F}
    (h : rsConfigWith P u fclk fs fpass s = .next t) :
    (s.halted = true ∧ t = s.answerHalted (s.rsStatusAt u)) ∨
    (s.halted = false ∧ s.rs[u]? = none ∧ t = s.answerIllegal) ∨
    (∃ unit c, s.halted = false ∧ s.rs[u]? = some unit ∧
      designFilter P fclk fs fpass = .error c ∧ t = s.rsError u unit c) ∨
    (∃ unit d, s.halted = false ∧ s.rs[u]? = some unit ∧
      designFilter P fclk fs fpass = .ok d ∧
      t = { s with cache := lookupOrBuild P s.cache (designKey P d) }.rsOk u (constructedRs P d)
        (configValue d)) := by
  rcases onRs_next h with h | h | ⟨unit, hh, hu, h⟩
  · exact .inl h
  · exact .inr (.inl h)
  · cases hd : designFilter P fclk fs fpass with
    | error c => exact .inr (.inr (.inl ⟨unit, c, hh, hu, rfl, by simpa [hd] using h.symm⟩))
    | ok d => exact .inr (.inr (.inr ⟨unit, d, hh, hu, rfl, by simpa [hd] using h.symm⟩))

/-- What `RS.INPUT` does with a running core's unit (R160, R161). -/
theorem rsInputWith_next [Inhabited F] [DecidableEq F] {P : Params F} {u : Nat} {x : F}
    {s t : State.Over F} (h : rsInputWith P u x s = .next t) :
    (s.halted = true ∧ t = s.answerHalted (s.rsStatusAt u)) ∨
    (s.halted = false ∧ s.rs[u]? = none ∧ t = s.answerIllegal) ∨
    (∃ unit, s.halted = false ∧ s.rs[u]? = some unit ∧ unit.cfgv = false ∧
      t = s.rsError u unit .eUnconfig) ∨
    (∃ unit unit', s.halted = false ∧ s.rs[u]? = some unit ∧ unit.cfgv = true ∧
      inputUnit P s.cache unit x = .ok unit' ∧ t = s.rsOk u unit' 0) := by
  rcases onRs_next h with h | h | ⟨unit, hh, hu, h⟩
  · exact .inl h
  · exact .inr (.inl h)
  · cases hc : unit.cfgv with
    | false => exact .inr (.inr (.inl ⟨unit, hh, hu, hc, by simpa [hc] using h.symm⟩))
    | true =>
      cases hi : inputUnit P s.cache unit x with
      | error f => simp [hc, hi] at h
      | ok unit' => exact .inr (.inr (.inr ⟨unit, unit', hh, hu, hc, hi, by simpa [hc, hi] using h.symm⟩))

/-- What `RS.OUTPUT` does with a running core's unit (R172). -/
theorem rsOutputWith_next {P : Params F} {u : Nat} {s t : State.Over F} (h : rsOutputWith P u s = .next t) :
    (s.halted = true ∧ t = s.answerHalted (s.rsStatusAt u)) ∨
    (s.halted = false ∧ s.rs[u]? = none ∧ t = s.answerIllegal) ∨
    (∃ unit, s.halted = false ∧ s.rs[u]? = some unit ∧ unit.cfgv = false ∧
      t = s.rsError u unit .eUnconfig) ∨
    (∃ unit, s.halted = false ∧ s.rs[u]? = some unit ∧ unit.cfgv = true ∧
      t = s.rsOk u unit (P.num.bits unit.out)) := by
  rcases onRs_next h with h | h | ⟨unit, hh, hu, h⟩
  · exact .inl h
  · exact .inr (.inl h)
  · cases hc : unit.cfgv with
    | false => exact .inr (.inr (.inl ⟨unit, hh, hu, hc, by simpa [hc] using h.symm⟩))
    | true => exact .inr (.inr (.inr ⟨unit, hh, hu, hc, by simpa [hc] using h.symm⟩))

/-- What `RS.RESET` does with a running core's unit (R174). -/
theorem rsResetWith_next [Inhabited F] [DecidableEq F] {P : Params F} {u : Nat} {s t : State.Over F}
    (h : rsResetWith P u s = .next t) :
    (s.halted = true ∧ t = s.answerHalted (s.rsStatusAt u)) ∨
    (s.halted = false ∧ s.rs[u]? = none ∧ t = s.answerIllegal) ∨
    (∃ unit, s.halted = false ∧ s.rs[u]? = some unit ∧ unit.cfgv = false ∧
      t = s.rsError u unit .eUnconfig) ∨
    (∃ unit, s.halted = false ∧ s.rs[u]? = some unit ∧ unit.cfgv = true ∧
      t = s.rsOk u (clearedRs P unit) 0) := by
  rcases onRs_next h with h | h | ⟨unit, hh, hu, h⟩
  · exact .inl h
  · exact .inr (.inl h)
  · cases hc : unit.cfgv with
    | false => exact .inr (.inr (.inl ⟨unit, hh, hu, hc, by simpa [hc] using h.symm⟩))
    | true => exact .inr (.inr (.inr ⟨unit, hh, hu, hc, by simpa [hc] using h.symm⟩))

/-- The unit after an input: what `inputUnit` can answer (R160). -/
theorem inputUnit_ok [Inhabited F] [DecidableEq F] {P : Params F} {c : Cache F} {unit unit' : RsUnit F} {x : F}
    (h : inputUnit P c unit x = .ok unit') :
    ∃ pushed acc, pushSample P unit x = some pushed ∧ advanceAcc P unit = some acc ∧
      ((∃ y, outputDue unit = true ∧ fir P c pushed = .ok y ∧
          unit' = { pushed with out := y, ready := true, acc := acc }) ∨
        (outputDue unit = false ∧ unit' = { pushed with ready := false, acc := acc })) := by
  rw [inputUnit] at h
  cases hp : pushSample P unit x with
  | none => simp [hp] at h
  | some pushed =>
    cases ha : advanceAcc P unit with
    | none => simp [hp, ha] at h
    | some acc =>
      refine ⟨pushed, acc, rfl, rfl, ?_⟩
      cases hd : outputDue unit with
      | false => exact .inr ⟨rfl, by simpa [hp, ha, hd] using h.symm⟩
      | true =>
        cases hf : fir P c pushed with
        | error f => simp [hp, ha, hd, hf] at h
        | ok y => exact .inl ⟨y, rfl, rfl, by simpa [hp, ha, hd, hf] using h.symm⟩

/-- What `pushSample` can answer (R65). -/
theorem pushSample_some [Inhabited F] [DecidableEq F] {P : Params F} {unit pushed : RsUnit F} {x : F}
    (h : pushSample P unit x = some pushed) :
    unit.cur < P.ringHalf ∧ pushed = { unit with
      hist := (unit.hist.write unit.cur x).write (unit.cur + P.ringHalf) x
      cur := (unit.cur + 1) % P.ringHalf } := by
  rw [pushSample] at h
  split at h
  next hc => exact ⟨hc, by simpa using h.symm⟩
  next => cases h

/-! ### The Integrator's commands -/

/-- What `IN.CONFIG` does with a running core's unit (R180, R181). -/
theorem inConfigWith_next {P : Params F} {n k : Nat} {vdc vth nkp vmin n16 : F} {s t : State.Over F}
    (h : inConfigWith P n k vdc vth nkp vmin n16 s = .next t) :
    (s.halted = true ∧ t = s.answerHalted (s.inStatusAt n)) ∨
    (s.halted = false ∧ s.ins[n]? = none ∧ t = s.answerIllegal) ∨
    (∃ unit c, s.halted = false ∧ s.ins[n]? = some unit ∧
      checkCalibration P s.tt.length k vdc vth nkp vmin n16 = .error c ∧
      t = s.inError n unit c) ∨
    (∃ unit q, s.halted = false ∧ s.ins[n]? = some unit ∧
      checkCalibration P s.tt.length k vdc vth nkp vmin n16 = .ok q ∧
      t = s.inOk n (constructedIn unit k vdc vth nkp vmin n16 q) (zextValue q)) := by
  rcases onIn_next h with h | h | ⟨unit, hh, hu, h⟩
  · exact .inl h
  · exact .inr (.inl h)
  · cases hd : checkCalibration P s.tt.length k vdc vth nkp vmin n16 with
    | error c => exact .inr (.inr (.inl ⟨unit, c, hh, hu, rfl, by simpa [hd] using h.symm⟩))
    | ok q => exact .inr (.inr (.inr ⟨unit, q, hh, hu, rfl, by simpa [hd] using h.symm⟩))

/-- What `IN.SETFC` does with a running core's unit (R186). -/
theorem inSetfcWith_next {P : Params F} {n : Nat} {wl : F} {s t : State.Over F}
    (h : inSetfcWith P n wl s = .next t) :
    (s.halted = true ∧ t = s.answerHalted (s.inStatusAt n)) ∨
    (s.halted = false ∧ s.ins[n]? = none ∧ t = s.answerIllegal) ∨
    (∃ unit, s.halted = false ∧ s.ins[n]? = some unit ∧ unit.cfgv = false ∧
      t = s.inError n unit .eUnconfig) ∨
    (∃ unit c, s.halted = false ∧ s.ins[n]? = some unit ∧ unit.cfgv = true ∧
      driveQuant P unit.nkp wl = .error c ∧ t = s.inError n unit c) ∨
    (∃ unit q, s.halted = false ∧ s.ins[n]? = some unit ∧ unit.cfgv = true ∧
      driveQuant P unit.nkp wl = .ok q ∧
      t = s.inOk n { unit with ndac := q, ndacv := true } (zextValue q)) := by
  rcases onIn_next h with h | h | ⟨unit, hh, hu, h⟩
  · exact .inl h
  · exact .inr (.inl h)
  · cases hc : unit.cfgv with
    | false => exact .inr (.inr (.inl ⟨unit, hh, hu, hc, by simpa [hc] using h.symm⟩))
    | true =>
      cases hd : driveQuant P unit.nkp wl with
      | error c =>
        exact .inr (.inr (.inr (.inl ⟨unit, c, hh, hu, hc, hd, by simpa [hc, hd] using h.symm⟩)))
      | ok q =>
        exact .inr (.inr (.inr (.inr ⟨unit, q, hh, hu, hc, hd, by simpa [hc, hd] using h.symm⟩)))

/-- What `IN.SETV` does with a running core's unit (R188). -/
theorem inSetvWith_next {P : Params F} {n : Nat} {m : F} {s t : State.Over F}
    (h : inSetvWith P n m s = .next t) :
    (s.halted = true ∧ t = s.answerHalted (s.inStatusAt n)) ∨
    (s.halted = false ∧ s.ins[n]? = none ∧ t = s.answerIllegal) ∨
    (∃ unit, s.halted = false ∧ s.ins[n]? = some unit ∧ unit.cfgv = false ∧
      t = s.inError n unit .eUnconfig) ∨
    (∃ unit c, s.halted = false ∧ s.ins[n]? = some unit ∧ unit.cfgv = true ∧
      gateQuant P.num unit.vdc unit.vth unit.vmin unit.n16 m = .error c ∧ t = s.inError n unit c) ∨
    (∃ unit q, s.halted = false ∧ s.ins[n]? = some unit ∧ unit.cfgv = true ∧
      gateQuant P.num unit.vdc unit.vth unit.vmin unit.n16 m = .ok q ∧
      t = s.inOk n { unit with nvgt := q } (zextValue q)) := by
  rcases onIn_next h with h | h | ⟨unit, hh, hu, h⟩
  · exact .inl h
  · exact .inr (.inl h)
  · cases hc : unit.cfgv with
    | false => exact .inr (.inr (.inl ⟨unit, hh, hu, hc, by simpa [hc] using h.symm⟩))
    | true =>
      cases hd : gateQuant P.num unit.vdc unit.vth unit.vmin unit.n16 m with
      | error c =>
        exact .inr (.inr (.inr (.inl ⟨unit, c, hh, hu, hc, hd, by simpa [hc, hd] using h.symm⟩)))
      | ok q =>
        exact .inr (.inr (.inr (.inr ⟨unit, q, hh, hu, hc, hd, by simpa [hc, hd] using h.symm⟩)))

/-- What `IN.SOLVE` does with a running core's unit (R190, R198, R220). -/
theorem inSolveWith_next {P : Params F} {n : Nat} {vi : Int} {s t : State.Over F}
    (h : inSolveWith P n vi s = .next t) :
    (s.halted = true ∧ t = s.answerHalted (s.inStatusAt n)) ∨
    (s.halted = false ∧ s.ins[n]? = none ∧ t = s.answerIllegal) ∨
    (∃ unit, s.halted = false ∧ s.ins[n]? = some unit ∧ (unit.cfgv = false ∨ unit.ndacv = false) ∧
      t = s.inError n unit .eUnconfig) ∨
    (∃ unit c, s.halted = false ∧ s.ins[n]? = some unit ∧ unit.cfgv = true ∧ unit.ndacv = true ∧
      solveFault P unit vi = some c ∧ t = s.raise n c) ∨
    (∃ unit table, s.halted = false ∧ s.ins[n]? = some unit ∧ unit.cfgv = true ∧ unit.ndacv = true ∧
      solveFault P unit vi = none ∧ s.tt[unit.ttsel]? = some table ∧
      t = s.inOk n
        { unit with
          vc := BitVec.ofInt 32 (newCharge P unit vi)
          vx := BitVec.ofInt 32
            (table.read (chargeIndex P (newCharge P unit vi)).toNat).toNat }
        (sextValue (solveResult P
          (table.read (chargeIndex P (newCharge P unit vi)).toNat).toNat
          (newCharge P unit vi)))) := by
  rcases onIn_next h with h | h | ⟨unit, hh, hu, h⟩
  · exact .inl h
  · exact .inr (.inl h)
  · refine .inr (.inr ?_)
    by_cases hc : unit.cfgv = true ∧ unit.ndacv = true
    · obtain ⟨hc, hv⟩ := hc
      cases hf : solveFault P unit vi with
      | some c => exact .inr (.inl ⟨unit, c, hh, hu, hc, hv, hf, by simpa [hc, hv, hf] using h.symm⟩)
      | none =>
        cases ht : s.tt[unit.ttsel]? with
        | none => simp [hc, hv, hf, ht] at h
        | some table =>
          exact .inr (.inr ⟨unit, table, hh, hu, hc, hv, hf, ht, by
            simpa [hc, hv, hf, ht] using h.symm⟩)
    · have hb : (!unit.cfgv || !unit.ndacv) = true := by
        cases h1 : unit.cfgv <;> cases h2 : unit.ndacv <;> simp_all
      refine .inl ⟨unit, hh, hu, ?_, by simpa [hb] using h.symm⟩
      cases h1 : unit.cfgv <;> cases h2 : unit.ndacv <;> simp_all

/-! ### The step -/

/-- The ways a step ends in a next state (R19, R86, R240), however the core runs a command. -/
theorem stepBy_next [Inhabited F] {run : Instr → State.Over F → Result F} {s t : State.Over F}
    (h : stepBy run s = .next t) :
    (s.events = [] ∧ t = s) ∨
    (∃ rest, s.events = .hardwareReset :: rest ∧ t = s.takeEvent.hardwareReset) ∨
    (∃ f rest, s.events = .frame f :: rest ∧ decode f = .error .illegalHeader ∧
      t = illegalFrame s.takeEvent) ∨
    (∃ f rest i, s.events = .frame f :: rest ∧ decode f = .ok i ∧ run i s.takeEvent = .next t) := by
  rw [stepBy, fetch] at h
  cases he : s.events with
  | nil => exact .inl ⟨rfl, by simpa [he] using h.symm⟩
  | cons e rest =>
    cases e with
    | hardwareReset => exact .inr (.inl ⟨rest, rfl, by simpa [he] using h.symm⟩)
    | frame f =>
      cases hd : decode f with
      | ok i => exact .inr (.inr (.inr ⟨f, rest, i, rfl, hd, by simpa [he, hd] using h⟩))
      | error e =>
        cases e with
        | illegalHeader => exact .inr (.inr (.inl ⟨f, rest, rfl, hd, by simpa [he, hd] using h.symm⟩))
        | notAFrame => simp [he, hd] at h

/-- The ways a step ends in a next state. -/
theorem step_next {s t : State} (h : step s = .next t) :
    (s.events = [] ∧ t = s) ∨
    (∃ rest, s.events = .hardwareReset :: rest ∧ t = s.takeEvent.hardwareReset) ∨
    (∃ f rest, s.events = .frame f :: rest ∧ decode f = .error .illegalHeader ∧
      t = illegalFrame s.takeEvent) ∨
    (∃ f rest i, s.events = .frame f :: rest ∧ decode f = .ok i ∧ exec i s.takeEvent = .next t) :=
  stepBy_next h

@[simp] theorem takeEvent_faultReg (s : State.Over F) : s.takeEvent.faultReg = s.faultReg := rfl
@[simp] theorem takeEvent_cache (s : State.Over F) : s.takeEvent.cache = s.cache := rfl
@[simp] theorem takeEvent_tt (s : State.Over F) : s.takeEvent.tt = s.tt := rfl
@[simp] theorem takeEvent_rs (s : State.Over F) : s.takeEvent.rs = s.rs := rfl
@[simp] theorem takeEvent_ins (s : State.Over F) : s.takeEvent.ins = s.ins := rfl
@[simp] theorem takeEvent_rsp (s : State.Over F) : s.takeEvent.rsp = s.rsp := rfl
@[simp] theorem takeEvent_halted (s : State.Over F) : s.takeEvent.halted = s.halted := rfl

end Sys2Proof.Machine
end

