-- ==== Sys2Proof/Laws/Parameters.lean ====
section
/-!
SUPPORT. The parameters at the values spec/00_scope.md R9 fixes, read back one by one, and the operations of
the numerics record there. The settings' lemmas are stated for `params`, whose type `F` is the reference one.
-/

namespace Sys2Proof.Machine

@[simp] theorem params_num : params.num = Binary64.ops := rfl
@[simp] theorem params_accW : params.accW = 32 := rfl
@[simp] theorem params_ringHalf : params.ringHalf = 2048 := rfl
@[simp] theorem params_aDb : params.aDb = ⟨9632959861247399, 14⟩ := rfl
@[simp] theorem params_betaK : params.betaK = ⟨1102, 4⟩ := rfl
@[simp] theorem params_betaA0 : params.betaA0 = ⟨87, 1⟩ := rfl
@[simp] theorem params_ordA0 : params.ordA0 = ⟨795, 2⟩ := rfl
@[simp] theorem params_ordK : params.ordK = ⟨2285, 3⟩ := rfl
@[simp] theorem params_orderRound : params.orderRound = .nearestEvenTiesUp := rfl
@[simp] theorem params_resErrK : params.resErrK = ⟨1234, 3⟩ := rfl
@[simp] theorem params_sincEps : params.sincEps = ⟨1, 8⟩ := rfl
@[simp] theorem params_fcScaleLog2 : params.fcScaleLog2 = 13 := rfl
@[simp] theorem params_shCur : params.shCur = 15 := rfl
@[simp] theorem params_shIdx : params.shIdx = 15 := rfl
@[simp] theorem params_shOut : params.shOut = 14 := rfl
@[simp] theorem params_idxBias : params.idxBias = 32768 := rfl
@[simp] theorem params_mDefault : params.mDefault = ⟨15, 1⟩ := rfl

namespace Binary64

@[simp] theorem ops_zero : ops.zero = zero := rfl
@[simp] theorem ops_one : ops.one = one := rfl
@[simp] theorem ops_pi : ops.pi = pi := rfl
@[simp] theorem ops_ofInt : ops.ofInt = ofInt := rfl
@[simp] theorem ops_ofLit : ops.ofLit = ofLit := rfl
@[simp] theorem ops_add : ops.add = add := rfl
@[simp] theorem ops_sub : ops.sub = sub := rfl
@[simp] theorem ops_mul : ops.mul = mul := rfl
@[simp] theorem ops_div : ops.div = div := rfl
@[simp] theorem ops_sqrt : ops.sqrt = sqrt := rfl
@[simp] theorem ops_sin : ops.sin = sin := rfl
@[simp] theorem ops_abs : ops.abs = abs := rfl
@[simp] theorem ops_lt : ops.lt = lt := rfl
@[simp] theorem ops_le : ops.le = le := rfl
@[simp] theorem ops_ge : ops.ge = ge := rfl
@[simp] theorem ops_eq : ops.eq = eq := rfl
@[simp] theorem ops_isFinite : ops.isFinite = isFinite := rfl
@[simp] theorem ops_toRat : ops.toRat = toRat := rfl
@[simp] theorem ops_bits (a : F) : ops.bits a = a := rfl
@[simp] theorem ops_ofBits (w : BitVec 64) : ops.ofBits w = w := rfl

/-- `toRat` of a finite value is its exact rational value (R13). -/
theorem toRat_of_isFinite {w : F} (h : isFinite w = true) : toRat w = mkRat (units w) (2 ^ 1074) := by
  rw [toRat, if_pos h]

/-- `toRat` of an infinity or a NaN is the free value of log 25. -/
theorem toRat_of_not_isFinite {w : F} (h : isFinite w = false) : toRat w = Config.nonFiniteRat w := by
  simp [toRat, h]

/-- A `real` slot is its value under the reference numerics (R83). -/
@[simp] theorem realOf_ops (w : Slot) : realOf ops w = w := rfl

end Binary64

/-! ### The width of `CPS` and `ACC` -/

@[simp] theorem accLimit_params : accLimit params = 2 ^ 31 := rfl

variable {F : Type}

theorem accLimit_le (P : Params F) : accLimit P ≤ 2 ^ 31 := by
  rw [accLimit]
  exact_mod_cast Nat.pow_le_pow_right (by decide) (show min P.accW 32 - 1 ≤ 31 by omega)

/-- What the check of an accumulator value can answer (R12). -/
theorem accOf?_some {P : Params F} {v : Int} {r : S32} (h : accOf? P v = some r) :
    -accLimit P ≤ v ∧ v ≤ accLimit P - 1 ∧ r.toInt = v := by
  have hw := accLimit_le P
  rw [accOf?] at h
  split at h
  next hf =>
    cases h
    refine ⟨hf.1, hf.2, ?_⟩
    rw [BitVec.toInt_ofInt, Int.bmod_eq_of_le] <;> omega
  next => cases h

/-- A value that fits is held as it is. -/
theorem accOf?_fits {P : Params F} {v : Int} (h0 : -accLimit P ≤ v) (h1 : v ≤ accLimit P - 1) :
    accOf? P v = some (BitVec.ofInt 32 v) ∧ (BitVec.ofInt 32 v).toInt = v := by
  have hw := accLimit_le P
  constructor
  · rw [accOf?, if_pos ⟨h0, h1⟩]
  · rw [BitVec.toInt_ofInt, Int.bmod_eq_of_le] <;> omega

end Sys2Proof.Machine
end

