-- ==== Sys2Proof/Laws/Commands.lean ====
section
/-!
SUPPORT. What the derivations inside the commands can answer: the quantizer, the Bessel loop, the design, the
cache step, the filtering step and the checks of `IN.SOLVE`.
-/

namespace Sys2Proof.Machine

variable {F : Type}

/-- What the quantizer answers (R121). -/
theorem quant16_eq_some {N : NumOps F} {t : F} {q : U16} :
    quant16 N t = some q ↔
      N.isFinite t = true ∧ (N.toRat t + 1 / 2).floor = (q.toNat : Int) := by
  rw [quant16]
  cases hf : N.isFinite t with
  | false => simp
  | true =>
    simp only [if_true, true_and]
    generalize (N.toRat t + 1 / 2).floor = z
    have hq := q.isLt
    constructor
    · intro h
      split at h
      next hz =>
        cases h
        rw [BitVec.toNat_ofInt]
        omega
      next => cases h
    · intro h
      subst h
      rw [if_pos ⟨by omega, by omega⟩]
      simp

/-- The unrolled passes change nothing: however many they are, the value is that of R110's loop. -/
theorem besselLoop_eq_series (N : NumOps F) (halfx : F) (fuel : Nat) (before : F × F × F) :
    besselLoop N halfx fuel before = besselSeries N halfx before := by
  induction fuel generalizing before with
  | zero => rw [besselLoop]
  | succ fuel ih =>
    rw [besselLoop, besselSeries]
    split
    next => rfl
    next => exact ih _

/-- Where the loop ends with one half argument, it ends with the same sum with another one whose passes agree
on the states the loop goes through. -/
theorem besselSeries_some_of_agree {N : NumOps F} {h h' : F} (I : F × F × F → Prop)
    (agree : ∀ s, I s → besselBody N h s.1 s.2.1 s.2.2 = besselBody N h' s.1 s.2.1 s.2.2)
    (keep : ∀ s, I s → I (besselBody N h s.1 s.2.1 s.2.2)) (before : F × F × F) (sum : F) :
    besselSeries N h before = some sum → I before → besselSeries N h' before = some sum := by
  refine besselSeries.partial_correctness N h
    (fun before sum => I before → besselSeries N h' before = some sum) ?_ before sum
  intro series ih before sum hs hi
  rw [besselSeries, ← agree before hi]
  dsimp only at hs ⊢
  split at hs
  next hd => rw [if_pos hd, hs]
  next hd => rw [if_neg hd]; exact ih _ _ hs (keep _ hi)

/-- Half arguments whose passes agree on the states the loop goes through give the same value, or both none. -/
theorem besselSeries_congr {N : NumOps F} {h h' : F} (I : F × F × F → Prop)
    (agree : ∀ s, I s → besselBody N h s.1 s.2.1 s.2.2 = besselBody N h' s.1 s.2.1 s.2.2)
    (keep : ∀ s, I s → I (besselBody N h s.1 s.2.1 s.2.2)) {before : F × F × F} (hi : I before) :
    besselSeries N h before = besselSeries N h' before := by
  refine Option.ext fun sum => ⟨fun hs => besselSeries_some_of_agree I agree keep before sum hs hi,
    fun hs => besselSeries_some_of_agree I (fun s hs => (agree s hs).symm) (fun s hs => ?_) before sum hs hi⟩
  rw [← agree s hs]
  exact keep s hs

/-- `i0` with any number of passes unrolled. -/
theorem i0_eq_loop (N : NumOps F) (x : F) (fuel : Nat) :
    i0 N x = (besselLoop N (N.div x (N.ofInt 2)) fuel (N.one, N.one, N.one)).getD
      (@Config.endlessSeries F ⟨N.zero⟩ N (N.abs x)) := by
  rw [i0, besselLoop_eq_series, besselLoop_eq_series]

/-- The history CONFIG and RS.RESET leave lists nothing at the values of R9. -/
@[simp] theorem silentHistory_params : silentHistory params = [] := by
  exact Memory.fill_default _

theorem silentHistory_read [Inhabited F] [DecidableEq F] {P : Params F} {k : Nat} (hk : k < 2 * P.ringHalf) :
    (silentHistory P).read k = P.num.zero := Memory.read_fill _ hk

theorem silentHistory_wf [Inhabited F] [DecidableEq F] (P : Params F) : (silentHistory P).wf
    (2 * P.ringHalf) = true :=
  Memory.wf_fill _ _

/-- What the fixed-point ratio is where the ratio is accepted (R133). -/
theorem ratioFixed_eq_some {P : Params F} {r : F} {cps : Int} (h : ratioFixed P r = some cps) :
    P.num.isFinite r = true ∧ P.num.lt r P.num.one = false ∧
      cps = (P.num.toRat r * 1024).floor ∧ cps ≤ accLimit P - 1024 := by
  rw [ratioFixed] at h
  split at h
  next => cases h
  next hr =>
    dsimp only at h
    split at h
    next => cases h
    next hc =>
      cases h
      refine ⟨?_, ?_, rfl, by omega⟩ <;>
        cases h1 : P.num.isFinite r <;> cases h2 : P.num.lt r P.num.one <;> simp_all

/-- What the operands satisfy where the argument check accepts them (R131, R211). -/
theorem checkArgs_eq_true {N : NumOps F} {fclk fs fpass : F} :
    checkArgs N fclk fs fpass = true ↔
      (N.isFinite fclk = true ∧ N.isFinite fs = true ∧ N.isFinite fpass = true) ∧
      (N.lt N.zero fclk = true ∧ N.lt N.zero fs = true ∧ N.lt N.zero fpass = true) ∧
      N.le fpass (N.div fs (N.ofInt 2)) = true ∧ 2 * N.toRat fpass ≤ N.toRat fs := by
  simp [checkArgs, passbandInRange, and_assoc]

/-- What the filter length is where it is accepted (R137 to R140). -/
theorem filterLength_eq_some {P : Params F} {r dw : F} {len : Int} (h : filterLength P r dw = some len) :
    P.num.isFinite (realOrder P dw) = true ∧
      P.num.isFinite (P.num.mul (P.num.ofInt (roundOrder P (realOrder P dw))) r) = true ∧
      len = oddLength P.num (P.num.mul (P.num.ofInt (roundOrder P (realOrder P dw))) r) ∧
      len < P.ringHalf := by
  rw [filterLength] at h
  dsimp only at h
  split at h
  next => cases h
  next hx =>
    split at h
    next => cases h
    next hp =>
      split at h
      next => cases h
      next hl =>
        cases h
        exact ⟨by simpa using hx, by simpa using hp, rfl, by omega⟩

/-- A length is odd as it is formed (R139). -/
theorem oddLength_odd (N : NumOps F) (p : F) : oddLength N p % 2 = 1 := by
  rw [oddLength]
  split <;> omega

/-- A unit whose `L` is below 1 reads no element of its history, wherever its window starts (log 27). -/
theorem historyWindow_of_nonpos [Inhabited F] {P : Params F} {unit : RsUnit F} {start : Int}
    (h : unit.len ≤ 0) : historyWindow P unit start = .ok [] := by
  rw [historyWindow, Memory.window, if_pos h]

/-- A table row of a length below 1 has no column (R143, log 27). -/
theorem buildTable_row_of_nonpos {P : Params F} {len res : Int} {r beta i0beta : F} (h : len ≤ 0) :
    ∀ row ∈ buildTable P len res r beta i0beta, row = [] := by
  have hl : len.toNat = 0 := by omega
  simp [buildTable, hl]

/-- What an accepted construction has derived, and from what (R130). -/
theorem designFilter_eq_ok {P : Params F} {fclk fs fpass : F} {d : Design F}
    (h : designFilter P fclk fs fpass = .ok d) :
    checkArgs P.num fclk fs fpass = true ∧ d.ratio = clockRatio P.num fclk fs ∧
      ratioFixed P d.ratio = some d.cps ∧
      filterLength P d.ratio (transition P.num fs fpass) = some d.len ∧
      d.res = phaseResolution P d.ratio := by
  rw [designFilter] at h
  cases ha : checkArgs P.num fclk fs fpass with
  | false => simp [ha] at h
  | true =>
    cases hr : ratioFixed P (clockRatio P.num fclk fs) with
    | none => simp [ha, hr] at h
    | some cps =>
      cases hl : filterLength P (clockRatio P.num fclk fs) (transition P.num fs fpass) with
      | none => simp [ha, hr, hl] at h
      | some len =>
        simp only [ha, hr, hl, Bool.not_true, Bool.false_eq_true, if_false, Except.ok.injEq] at h
        cases d
        simp only [Design.mk.injEq] at h
        obtain ⟨rfl, rfl, rfl, rfl⟩ := h
        refine ⟨rfl, rfl, hr, hl, ?_⟩
        dsimp only

/-- The code of a refused construction (R151). -/
theorem designFilter_eq_error {P : Params F} {fclk fs fpass : F} {c : RspCode}
    (h : designFilter P fclk fs fpass = .error c) : c = .eArg ∨ c = .eRatio ∨ c = .eLen := by
  rw [designFilter] at h
  cases ha : checkArgs P.num fclk fs fpass with
  | false => simp_all
  | true =>
    cases hr : ratioFixed P (clockRatio P.num fclk fs) with
    | none => simp_all
    | some cps =>
      cases hl : filterLength P (clockRatio P.num fclk fs) (transition P.num fs fpass) with
      | none => simp_all
      | some len => simp_all

/-- The cache step gives its key a table (R146). -/
theorem lookupOrBuild_find?_same (P : Params F) {c : Cache F} (k : FilterKey)
    (hc : ∀ e ∈ c, e.2 = tableOfKey P e.1) :
    (lookupOrBuild P c k).find? k = some (tableOfKey P k) := by
  rw [lookupOrBuild]
  cases hf : c.find? k with
  | none => exact Cache.find?_insert_same hf
  | some t =>
    have := hc _ (Cache.mem_of_find? hf)
    simp_all

/-- The cache step leaves every other key as it was (R24). -/
theorem lookupOrBuild_find?_other (P : Params F) {c : Cache F} {k k' : FilterKey} (h : k' ≠ k) :
    (lookupOrBuild P c k).find? k' = c.find? k' := by
  rw [lookupOrBuild]
  cases hf : c.find? k with
  | none => exact Cache.find?_insert_other h
  | some t => rfl

/-- A result that fits an s32 is sign-extended (R84, R190). -/
theorem sextValue_of_fits {v : Int} (h : fitsS32 v = true) :
    sextValue v = (BitVec.ofInt 32 v).signExtend 64 := by
  rw [sextValue, if_pos h]

/-- A step of `IN.SOLVE` that does not fault has passed every check (R198). -/
theorem solveFault_eq_none {P : Params F} {unit : InUnit F} {vi : Int}
    (h : solveFault P unit vi = none) :
    unit.vx.toInt < unit.nvgt.toNat ∧ fitsS32 (driveDifference unit vi) = true ∧
      fitsS32 (driveCurrent P unit vi) = true ∧ fitsS32 (newCharge P unit vi) = true ∧
      0 ≤ chargeIndex P (newCharge P unit vi) ∧ chargeIndex P (newCharge P unit vi) ≤ 65535 := by
  rw [solveFault] at h
  split at h
  next => cases h
  next h1 =>
    split at h
    next => cases h
    next h2 =>
      split at h
      next => cases h
      next h3 =>
        split at h
        next => cases h
        next h4 =>
          split at h
          next => cases h
          next h5 => simp_all

/-- What the filtering step has read where it answers a value (R162). -/
theorem fir_eq_ok [Inhabited F] {P : Params F} {c : Cache F} {unit : RsUnit F} {y : F}
    (h : fir P c unit = .ok y) :
    0 ≤ unit.acc.toInt ∧ ∃ t v1 v2, c.find? (unitKey unit) = some t ∧
      convolveAt P unit t (windowStart P unit) (unit.acc.toInt * unit.res / 1024) = .ok v1 ∧
      convolveAt P unit t
        (if unit.acc.toInt * unit.res / 1024 + 1 = unit.res then windowStart P unit + 1
          else windowStart P unit)
        (if unit.acc.toInt * unit.res / 1024 + 1 = unit.res then 0
          else unit.acc.toInt * unit.res / 1024 + 1) = .ok v2 ∧
      y = interpolate P.num v1 v2 (unit.acc.toInt * unit.res % 1024) := by
  rw [fir] at h
  split at h
  next => cases h
  next h0 =>
    refine ⟨by omega, ?_⟩
    split at h
    next => cases h
    next t ht =>
      dsimp only at h
      split at h
      next v1 v2 h1 h2 => exact ⟨t, v1, v2, ht, h1, h2, (Except.ok.inj h).symm⟩
      next => cases h
      next => cases h

/-- A convolution of a window with a row has read both whole (R66, R67). -/
theorem convolveAt_eq_ok [Inhabited F] {P : Params F} {unit : RsUnit F} {t : FilterTable F}
    {start row : Int} {v : F}
    (h : convolveAt P unit t start row = .ok v) :
    ∃ xs cols, unit.hist.window (2 * P.ringHalf) start unit.len = some xs ∧ 0 ≤ row ∧
      t[row.toNat]? = some cols ∧ cols.length = unit.len.toNat ∧ v = convolve P.num xs cols := by
  rw [convolveAt, historyWindow, tableRow] at h
  cases hw : unit.hist.window (2 * P.ringHalf) start unit.len with
  | none => simp [hw] at h
  | some xs =>
    by_cases hr : row < 0
    · simp [hw, hr] at h
    · cases ht : t[row.toNat]? with
      | none => simp [hw, hr, ht] at h
      | some cols =>
        by_cases hl : cols.length = unit.len.toNat
        · exact ⟨xs, cols, rfl, by omega, rfl, hl, by simpa [hw, hr, ht, hl] using h.symm⟩
        · simp [hw, hr, ht, hl] at h

end Sys2Proof.Machine
end

