-- ==== Sys2Proof/Laws/Decode.lean ====
section
/-!
SUPPORT. What the decoder can answer (spec/30_encoding.md R82 to R86): later proofs cite these instead of
unfolding it.
-/

namespace Sys2Proof

open Machine

/-- A header selects a row exactly by its `HDR[15:8]` (R84). -/
theorem rowOf_eq_some {h : Header} {r : Row} : rowOf h = some r ↔ headerOpcode h = opcodeOf r := by
  constructor
  · intro hr
    exact eq_of_beq (List.find?_some (p := fun r => headerOpcode h == opcodeOf r) hr)
  · intro ho
    rw [rowOf, ho]
    cases r <;> decide

/-- The slots of a row make a command exactly when their number is the row's. -/
theorem commandOfRow_isSome {r : Row} {u : Nat} {ws : List Slot} :
    (commandOfRow r u ws).isSome = true ↔ ws.length = rowSlots r := by
  cases r <;>
    rcases ws with _ | ⟨a, _ | ⟨b, _ | ⟨c, _ | ⟨d, _ | ⟨e, _ | ⟨g, _ | ⟨k, ws⟩⟩⟩⟩⟩⟩⟩ <;>
    simp [commandOfRow, oneSlot, rowSlots]

/-- A decoded frame has a legal header and its row's slots. -/
theorem decode_eq_ok {f : Frame} {i : Instr} :
    decode f = .ok i ↔
      ∃ r, rowOf f.hdr = some r ∧ commandOfRow r (headerUnit f.hdr) f.slots = some i := by
  rw [decode]
  cases hr : rowOf f.hdr with
  | none => by_cases hs : f.slots = [] <;> simp [hs]
  | some r =>
    cases hc : commandOfRow r (headerUnit f.hdr) f.slots <;> simp [hc]

/-- A frame is an illegal header exactly when no row is selected and it has no slot (R82, R86). -/
theorem decode_eq_illegal {f : Frame} :
    decode f = .error .illegalHeader ↔ rowOf f.hdr = none ∧ f.slots = [] := by
  rw [decode]
  cases hr : rowOf f.hdr with
  | none => by_cases hs : f.slots = [] <;> simp [hs]
  | some r =>
    cases hc : commandOfRow r (headerUnit f.hdr) f.slots <;> simp [hc]

/-- The commands of a row, with their slots (R84). -/
theorem commandOfRow_eq_some {r : Row} {u : Nat} {ws : List Slot} {i : Instr}
    (h : commandOfRow r u ws = some i) :
    (∃ a b c, r = .rsConfig ∧ ws = [a, b, c] ∧ i = .rsConfig u a b c) ∨
    (∃ a, r = .rsInput ∧ ws = [a] ∧ i = .rsInput u a) ∨
    (r = .rsOutput ∧ ws = [] ∧ i = .rsOutput u) ∨
    (r = .rsReset ∧ ws = [] ∧ i = .rsReset u) ∨
    (∃ k a b c d e, r = .inConfig ∧ ws = [k, a, b, c, d, e] ∧ i = .inConfig u (tselOf k) a b c d e) ∨
    (∃ a, r = .inSetfc ∧ ws = [a] ∧ i = .inSetfc u a) ∨
    (∃ a, r = .inSetv ∧ ws = [a] ∧ i = .inSetv u a) ∨
    (∃ a, r = .inSolve ∧ ws = [a] ∧ i = .inSolve u (s32Of a)) := by
  cases r <;>
    rcases ws with _ | ⟨a, _ | ⟨b, _ | ⟨c, _ | ⟨d, _ | ⟨e, _ | ⟨g, _ | ⟨k, ws⟩⟩⟩⟩⟩⟩⟩ <;>
    simp_all [commandOfRow, oneSlot]

end Sys2Proof
end

