-- ==== Sys2Proof/Laws/PerInstr.lean ====
section
/-!
SUPPORT. Statements made for every instruction, one lemma per constructor: the frame of a well-formed
command (spec/30_encoding.md R81 to R84).
-/

namespace Sys2Proof.Laws

/-- The header of an encoded command carries its opcode and its unit. -/
theorem header_fields (opcode : BitVec 8) (unit : Nat) (h : unit < 256) :
    Machine.headerOpcode (Machine.header opcode unit) = opcode ∧
      Machine.headerUnit (Machine.header opcode unit) = unit := by
  have key : Machine.header opcode unit = opcode ++ BitVec.ofNat 8 unit := by
    ext i hi
    simp [Machine.header, Machine.fieldAt]
    grind
  rw [key, Machine.headerOpcode, Machine.headerUnit]
  have low : (opcode ++ BitVec.ofNat 8 unit).extractLsb' 0 8 = BitVec.ofNat 8 unit := by
    ext i hi
    simp
    grind
  refine ⟨?_, by rw [low, BitVec.toNat_ofNat, Nat.mod_eq_of_lt h]⟩
  ext i hi
  simp
  grind

/-- The row and the unit of the header that encodes them. -/
theorem header_row (r : Row) (unit : Nat) (h : unit < 256) :
    rowOf (Machine.header (opcodeOf r) unit) = some r ∧
      Machine.headerUnit (Machine.header (opcodeOf r) unit) = unit := by
  obtain ⟨ho, hu⟩ := header_fields (opcodeOf r) unit h
  refine ⟨?_, hu⟩
  rw [rowOf, ho]
  cases r <;> decide

namespace FrameShape

/-- A well-formed command is encoded as a frame with a legal header, that header's number of operand
slots, and the command's unit in the UNIT field. -/
def Statement (i : Instr) : Prop :=
  i.WellFormed = true →
    headerLegal (encode i).hdr = true ∧ (encode i).slots.length = slotCount (encode i).hdr ∧
      Machine.headerUnit (encode i).hdr = unitOf i

theorem rsConfig (unit : Nat) (fclk fs fpass : F) : Statement (.rsConfig unit fclk fs fpass) := by
  intro h
  obtain ⟨ho, hu⟩ := header_row .rsConfig unit (by simpa [Instr.WellFormed, unitFits] using h)
  simp [encode, headerLegal, slotCount, rowSlots, ho, hu, unitOf]

theorem rsInput (unit : Nat) (x : F) : Statement (.rsInput unit x) := by
  intro h
  obtain ⟨ho, hu⟩ := header_row .rsInput unit (by simpa [Instr.WellFormed, unitFits] using h)
  simp [encode, headerLegal, slotCount, rowSlots, ho, hu, unitOf]

theorem rsOutput (unit : Nat) : Statement (.rsOutput unit) := by
  intro h
  obtain ⟨ho, hu⟩ := header_row .rsOutput unit (by simpa [Instr.WellFormed, unitFits] using h)
  simp [encode, headerLegal, slotCount, rowSlots, ho, hu, unitOf]

theorem rsReset (unit : Nat) : Statement (.rsReset unit) := by
  intro h
  obtain ⟨ho, hu⟩ := header_row .rsReset unit (by simpa [Instr.WellFormed, unitFits] using h)
  simp [encode, headerLegal, slotCount, rowSlots, ho, hu, unitOf]

theorem inConfig (unit k : Nat) (vdc vth nkp vmin n16 : F) :
    Statement (.inConfig unit k vdc vth nkp vmin n16) := by
  intro h
  obtain ⟨ho, hu⟩ := header_row .inConfig unit
    (by simp [Instr.WellFormed, unitFits] at h; exact h.1)
  simp [encode, headerLegal, slotCount, rowSlots, ho, hu, unitOf]

theorem inSetfc (unit : Nat) (wl : F) : Statement (.inSetfc unit wl) := by
  intro h
  obtain ⟨ho, hu⟩ := header_row .inSetfc unit (by simpa [Instr.WellFormed, unitFits] using h)
  simp [encode, headerLegal, slotCount, rowSlots, ho, hu, unitOf]

theorem inSetv (unit : Nat) (m : F) : Statement (.inSetv unit m) := by
  intro h
  obtain ⟨ho, hu⟩ := header_row .inSetv unit (by simpa [Instr.WellFormed, unitFits] using h)
  simp [encode, headerLegal, slotCount, rowSlots, ho, hu, unitOf]

theorem inSolve (unit : Nat) (vi : Int) : Statement (.inSolve unit vi) := by
  intro h
  obtain ⟨ho, hu⟩ := header_row .inSolve unit
    (by simp [Instr.WellFormed, unitFits] at h; exact h.1)
  simp [encode, headerLegal, slotCount, rowSlots, ho, hu, unitOf]

end FrameShape

end Sys2Proof.Laws
end

