-- ==== Sys2Proof/Machine/Assembler.lean ====
section
/-!
DEFINITION. Reading the textual form of a command and of a program (spec/30_encoding.md R92); the form is
printed by `commandText` (Decode.lean). What R92 leaves open of the text (log 22): spaces around an operand
are allowed, and a decimal literal may have an exponent, as those of spec/95_test_vectors.md do.
-/

namespace Sys2Proof.Machine

/-- The value of a decimal digit. -/
def digitOf (c : Char) : Option Nat :=
  if '0'.toNat ≤ c.toNat ∧ c.toNat ≤ '9'.toNat then some (c.toNat - '0'.toNat) else none

/-- The value of a hexadecimal digit. -/
def hexDigitOf (c : Char) : Option Nat :=
  if 'A'.toNat ≤ c.toNat ∧ c.toNat ≤ 'F'.toNat then some (c.toNat - 'A'.toNat + 10)
  else if 'a'.toNat ≤ c.toNat ∧ c.toNat ≤ 'f'.toNat then some (c.toNat - 'a'.toNat + 10)
  else digitOf c

/-- The number some digits write in a base; `none` where there is no digit or another character. -/
def numeralOf (base : Nat) (digit : Char → Option Nat) (cs : List Char) : Option Nat :=
  if cs = [] then none
  else cs.foldlM (fun acc c => (digit c).map fun d => acc * base + d) 0

/-- A decimal integer without sign: a unit index or a `tsel` operand (R92). -/
def naturalOf (cs : List Char) : Option Nat := numeralOf 10 digitOf cs

/-- A signed decimal integer: an `s32` operand (R92). -/
def integerOf : List Char → Option Int
  | '-' :: cs => (naturalOf cs).map fun n => -(n : Int)
  | '+' :: cs => (naturalOf cs).map Int.ofNat
  | cs => (naturalOf cs).map Int.ofNat

/-- A decimal literal (R92): a sign, digits with a point, an exponent of ten. The sign of a zero is
dropped, so that `-0.0` is read as positive zero: DESIGN CHOICE, unsafe (log 23), which R13 and R92 leave
open. -/
def literalOf (cs : List Char) : Option Lit :=
  let neg := decide (cs.head? = some '-')
  let cs := if neg then cs.tail else cs
  let mantissa := cs.takeWhile (· ≠ 'e')
  let exponent := match cs.dropWhile (· ≠ 'e') with
    | [] => some 0
    | _ :: e => integerOf e
  let whole := mantissa.takeWhile (· ≠ '.')
  let fraction := (mantissa.dropWhile (· ≠ '.')).drop 1
  match naturalOf (whole ++ fraction), exponent with
  | some n, some e =>
    let shift := e - fraction.length
    let m : Int := if neg then -(n : Int) else n
    some (if 0 ≤ shift then ⟨m * 10 ^ shift.toNat, 0⟩ else ⟨m, (-shift).toNat⟩)
  | _, _ => none

/-- The slot of a `real` operand (R92): 16 hexadecimal digits after `0x`, the slot's pattern, or a decimal
literal, converted by `NUM.ofLit`. -/
def realOperandOf {F : Type} (N : NumOps F) : List Char → Option Slot
  | '0' :: 'x' :: cs =>
    if cs.length = 16 then (numeralOf 16 hexDigitOf cs).map fun n => BitVec.ofNat 64 n else none
  | cs => (literalOf cs).map fun l => realSlot N (N.ofLit l)

/-- A text without the spaces at its ends. -/
def trimmed (cs : List Char) : List Char :=
  ((cs.dropWhile (· = ' ')).reverse.dropWhile (· = ' ')).reverse

/-- The parts of a text between commas. -/
def commaParts : List Char → List (List Char)
  | [] => [[]]
  | c :: cs =>
    if c = ',' then [] :: commaParts cs
    else
      match commaParts cs with
      | [] => [[c]]
      | part :: parts => (c :: part) :: parts

/-- The command a mnemonic, a unit index and the operands' texts write (R84, R92). -/
def commandOfParts {F : Type} (N : NumOps F) (name : String) (u : Nat) (operands : List (List Char))
    : Option Instr :=
  let real := realOperandOf N
  match name, operands with
  | "RS.CONFIG", [a, b, c] => do
    some (.rsConfig u (← real a) (← real b) (← real c))
  | "RS.INPUT", [a] => do some (.rsInput u (← real a))
  | "RS.OUTPUT", [] => some (.rsOutput u)
  | "RS.RESET", [] => some (.rsReset u)
  | "IN.CONFIG", [k, a, b, c, d, e] => do
    some (.inConfig u (← naturalOf k) (← real a) (← real b) (← real c)
      (← real d) (← real e))
  | "IN.SETFC", [a] => do some (.inSetfc u (← real a))
  | "IN.SETV", [a] => do some (.inSetv u (← real a))
  | "IN.SOLVE", [a] => do some (.inSolve u (← integerOf a))
  | _, _ => none

/-- The command a line of text writes (R92); `none` where it writes none that a frame can carry. -/
def commandOfText {F : Type} (N : NumOps F) (line : String) : Option Instr :=
  let cs := line.toList
  match (commaParts ((cs.dropWhile (· ≠ ' ')).drop 1)).map trimmed with
  | [] => none
  | unit :: operands =>
    match naturalOf unit with
    | none => none
    | some u =>
      match commandOfParts N (String.ofList (cs.takeWhile (· ≠ ' '))) u operands with
      | some i => if i.WellFormed then some i else none
      | none => none

/-- The host's events for a program, a sequence of lines executed top to bottom (R92). -/
def programOfText {F : Type} (N : NumOps F) (lines : List String) : Option (List HostEvent) :=
  lines.mapM fun line => (commandOfText N line).map fun i => .frame (encode i)

end Sys2Proof.Machine
end

