-- ==== Sys2Proof/Tests/Slice0.lean ====
section
/-!
SUPPORT. Tests of the model against the spec's vectors (spec/95_test_vectors.md and the worked examples of
the rules), and for every statement with hypotheses a witness that meets them. A test names its source.
-/

namespace Sys2Proof.Tests

set_option Elab.async false

open Sys2Proof Sys2Proof.Machine

/-! ### A small core: two units of each class, two transfer tables -/

/-- The key of the configuration `7, 3, 0.75` (V5). -/
def key : FilterKey := ⟨29, 122, 0x4002AAAAAAAAAAAB⟩

/-- A Resampler configured as `7, 3, 0.75` (V5), no sample stored yet. -/
def resampler : RsUnit F :=
  { RsUnit.reset with cfgv := true, cps := 2389, len := 29, res := 122, rbits := 0x4002AAAAAAAAAAAB }

/-- An Integrator with the calibration of V11 and P4, charge and voltage 0. -/
def integrator : InUnit F :=
  { InUnit.reset (F := F) with
    cfgv := true, ndacv := true, nvgt := 43403, ndac := 142, vdc := 0x40130A3D70A3D70A
    vth := 0x3FE999999999999A, nkp := 0x3F91B71758E21965, vmin := 0x3FF4CCCCCCCCCCCD
    n16 := 0x40C0D1D99999999A }

/-- Two units of each class, the first configured; of `TT_A` (V12) the entries the tests read. -/
def demo : State where
  faultReg := 0
  cache := [(key, tableOfKey params key)]
  tt := [[(32767, 16383), (32768, 16384), (32944, 16472)], []]
  rs := [resampler, RsUnit.reset]
  ins := [integrator, InUnit.reset]
  rsp := none
  events := []

/-- `demo` with another first Resampler. -/
def demoRs (unit : RsUnit F) : State := { demo with rs := [unit, RsUnit.reset] }

/-- `demo` with another first Integrator. -/
def demoIn (unit : InUnit F) : State := { demo with ins := [unit, InUnit.reset] }

/-- `demo` halted by unit 1 with F_SUBTHRESHOLD, as P4 ends. -/
def demoHalted : State := { demo with faultReg := 0x0111 }

/-- The response a command leaves. -/
def rspOf : Result F → Option (BitVec 128)
  | .next t => t.rsp
  | _ => none

/-- The Resampler unit `u` a command leaves. -/
def rsOf (u : Nat) : Result F → Option (RsUnit F)
  | .next t => t.rs[u]?
  | _ => none

/-- The Integrator unit `n` a command leaves. -/
def inOf (n : Nat) : Result F → Option (InUnit F)
  | .next t => t.ins[n]?
  | _ => none

/-- The design a construction derives, and nothing on a refusal. -/
def designOf (fclk fs fpass : F) : Option (Design F) :=
  match designFilter params fclk fs fpass with
  | .ok d => some d
  | .error _ => none

/-- The code a construction is refused with. -/
def designError (fclk fs fpass : F) : Option RspCode :=
  match designFilter params fclk fs fpass with
  | .ok _ => none
  | .error c => some c

/-- The command of a frame. -/
def commandOf (f : Frame) : Option Instr :=
  match decode f with
  | .ok i => some i
  | .error _ => none

/-! ### Well-formedness: an ill-formed term for each check -/

theorem test_unit_index_over_8_bits : (Instr.rsOutput 256).WellFormed = false := by decide
theorem test_tsel_over_8_bits : (Instr.inConfig 0 256 0 0 0 0 0).WellFormed = false := by decide
theorem test_vi_over_s32 : (Instr.inSolve 0 (2 ^ 31)).WellFormed = false := by decide
theorem test_vi_under_s32 : (Instr.inSolve 0 (-2 ^ 31 - 1)).WellFormed = false := by decide

/-! ### Decoding, from words written out (R81, R84, R93, V14) -/

theorem test_decode_rsConfig :
    commandOf ⟨0x0000, [0x412E114000000000, 0x40E5888000000000, 0x40D3880000000000]⟩ =
      some (.rsConfig 0 0x412E114000000000 0x40E5888000000000 0x40D3880000000000) := by decide
theorem test_decode_rsInput :
    commandOf ⟨0x0103, [0x3FF0000000000000]⟩ = some (.rsInput 3 0x3FF0000000000000) := by decide
theorem test_decode_rsOutput : commandOf ⟨0x02FF, []⟩ = some (.rsOutput 255) := by decide
theorem test_decode_rsReset : commandOf ⟨0x0301, []⟩ = some (.rsReset 1) := by decide
theorem test_decode_inConfig :
    commandOf ⟨0x1002, [0x102, 1, 2, 3, 4, 5]⟩ = some (.inConfig 2 2 1 2 3 4 5) := by decide
theorem test_decode_inSetfc : commandOf ⟨0x1100, [7]⟩ = some (.inSetfc 0 7) := by decide
theorem test_decode_inSetv : commandOf ⟨0x1200, [7]⟩ = some (.inSetv 0 7) := by decide
theorem test_decode_inSolve :
    commandOf ⟨0x1302, [0xDEADBEEFFFFFFFEF]⟩ = some (.inSolve 2 (-17)) := by decide
theorem test_decode_inSolve_least :
    commandOf ⟨0x1302, [0x0000000080000000]⟩ = some (.inSolve 2 (-2 ^ 31)) := by decide
theorem test_decode_illegal :
    [0x0400#16, 0x0F00#16, 0x1400#16, 0x2000#16, 0xFFFF#16].map (fun h => commandOf ⟨h, []⟩) =
      [none, none, none, none, none] := by decide
theorem test_table_word :
    decodeTableWord 80 (0x3FF0000000000000 * 2 ^ 16 + 0x0103) =
      some (.rsInput 3 0x3FF0000000000000) := by decide
/-- R92's form of a command. -/
theorem test_command_text : commandText (.inSolve 2 (-17)) = "IN.SOLVE 2, -17" := by decide +kernel
/-- R92's and R93's examples, read. -/
theorem test_command_of_text :
    commandOfText Binary64.ops "RS.CONFIG 0, 985248, 44100, 20000" =
        some (.rsConfig 0 0x412E114000000000 0x40E5888000000000 0x40D3880000000000) ∧
      commandOfText Binary64.ops "IN.SOLVE 2, -17" = some (.inSolve 2 (-17)) ∧
      commandOfText Binary64.ops "RS.OUTPUT 256" = none := by decide +kernel

/-! ### Numerics (R149, V1, V3, V4) -/

theorem test_attenuation : attenuation params = 0x4058151824C7587F := by decide +kernel
theorem test_kaiserBeta : kaiserBeta params = 0x40235045B3248FA3 := by decide +kernel
theorem test_kaiserI0Beta : kaiserI0Beta params = 0x409FC7A2EA4BF752 := by decide +kernel
theorem test_i0_of_one : i0 Binary64.ops Binary64.one = 0x3FF441CE4B17E4B1 := by decide +kernel
/-- R110 past the unrolled passes: the loop for 100 ends after 76 of them (evaluated apart from the model). -/
theorem test_i0_of_hundred : i0 Binary64.ops (Binary64.ofInt 100) = 0x48A8A6F17ACCAA82 := by
  rw [i0_eq_loop _ _ 80]
  decide +kernel
theorem test_sqrt_constant :
    Binary64.sqrt (Binary64.mul (Binary64.ofLit params.resErrK) (Binary64.ofInt 65536)) =
      0x4071C61071B700AE := by decide +kernel
theorem test_convolve_order :
    convolve Binary64.ops [Binary64.ofInt (10 ^ 16), Binary64.one, Binary64.ofInt (-10 ^ 16)]
      [Binary64.one, Binary64.one, Binary64.one] = Binary64.zero := by decide +kernel
theorem test_quant16_ties_up :
    quant16 Binary64.ops (Binary64.ofLit ⟨25, 1⟩) = some 3 ∧ quant16 Binary64.ops (Binary64.ofLit ⟨-5, 1⟩) = some 0 ∧
      quant16 Binary64.ops (Binary64.ofLit ⟨6553549, 2⟩) = some 65535 := by decide +kernel
theorem test_quant16_rejects :
    quant16 Binary64.ops (Binary64.ofLit ⟨655355, 1⟩) = none ∧ quant16 Binary64.ops (Binary64.ofLit ⟨-5000001, 7⟩) = none ∧
      quant16 Binary64.ops 0x7FF0000000000000 = none := by decide +kernel

/-! ### RS.CONFIG (V5, P4) -/

theorem test_design_pal :
    designOf 0x412E114000000000 0x40E5888000000000 0x40D3880000000000 =
      some ⟨1475, 13, 0x4036575A7CF8448C, 22877⟩ := by decide +kernel
theorem test_design_refused :
    designError 0x40E5888000000000 0x40E7700000000000 0x40D3880000000000 = some .eRatio ∧
      designError 0x412E848000000000 0x40D3880000000000 0x40C1940000000000 = some .eLen ∧
      designError 0x412E114000000000 0x40E5888000000000 0x40D588C000000000 = some .eArg := by
  decide +kernel
/-- V15's first row. -/
theorem test_rsConfig_response :
    rspOf (exec (.rsConfig 1 0x401C000000000000 0x4008000000000000 0x3FE8000000000000) demo) =
      some 0x0000007A0000001D0000000000010000 := by decide +kernel
/-- R211, log 13: a subnormal output rate whose half is rounded up to the passband edge, which is above it. -/
theorem test_design_subnormal_rate : designError 3 3 2 = some .eArg ∧
    Binary64.le 2 (Binary64.div 3 (Binary64.ofInt 2)) = true := by decide +kernel
/-- The output of a unit whose length is below 1 is the empty sum, a positive zero (log 27). -/
theorem test_rsInput_negative_length :
    (rsOf 0 (exec (.rsInput 0 Binary64.pi)
        { demoRs { resampler with
            cps := 1024, out := Binary64.one, len := -17, res := 285, rbits := Binary64.one } with
          cache := [(⟨-17, 285, Binary64.one⟩, tableOfKey params ⟨-17, 285, Binary64.one⟩)] })).map
        (fun v => (v.out, v.ready, v.acc)) = some (0, true, 0) := by decide +kernel
/-- V5, the column `N/L (alt)`: the other `ORDER_ROUND` gives 125 taps. -/
theorem test_alternative_order_round :
    rspOf (stepWith { params with orderRound := .nearestIntThenUpToEven }
        (demo.present ⟨0x0001, [0x412E114000000000, 0x40F7700000000000, 0x40D3880000000000]⟩)) =
      some 0x0000001C0000007D0000000000010000 := by decide +kernel
/-- R140 with `H` of 1475 and 1476 on R150's length 1475, and R133 with registers of 15 and 16 bits on its
`CPS` 22877. -/
theorem test_other_widths :
    [{ params with ringHalf := 1475 }, { params with ringHalf := 1476 }, { params with accW := 15 },
      { params with accW := 16 }].map (fun P => (rspOf (execWith P
        (.rsConfig 1 0x412E114000000000 0x40E5888000000000 0x40D3880000000000) demo)).map rspCode) =
      [some 2, some 0, some 3, some 0] := by decide +kernel

/-! ### RS.INPUT, RS.OUTPUT, RS.RESET (V7, V15, P3, and R162 by hand) -/

/-- V7, row k = 1: no output, the accumulator falls by 1024. -/
theorem test_rsInput_without_output :
    (rsOf 0 (exec (.rsInput 0 0x3FF0000000000000) (demoRs { resampler with acc := 1365 }))).map
        (fun v => (v.acc, v.ready, v.cur, v.hist.read 0, v.hist.read 2048)) =
      some (341, false, 1, 0x3FF0000000000000, 0x3FF0000000000000) := by decide +kernel
/-- By hand from R162: window 1, 2, 3 against row 1, window 2, 3, 4 against row 0, remainder 512. -/
theorem test_rsInput_wraps_the_row :
    (rsOf 0 (exec (.rsInput 0 (Binary64.ofInt 4))
        { demoRs { resampler with
            len := 3, res := 2, acc := 768, cur := 3
            hist := [(0, Binary64.ofInt 1), (1, Binary64.ofInt 2), (2, Binary64.ofInt 3),
              (2048, Binary64.ofInt 1), (2049, Binary64.ofInt 2), (2050, Binary64.ofInt 3)] } with
          cache := [(⟨3, 2, 0x4002AAAAAAAAAAAB⟩,
            [[0, 0, Binary64.one], [Binary64.one, 0, 0]])] })).map
        (fun v => (v.out, v.ready, v.acc)) =
      some (Binary64.ofLit ⟨25, 1⟩, true, 2133) := by decide +kernel
/-- P3, rows 9 and 10: the old output is returned and READY stays. -/
theorem test_rsOutput :
    rspOf (exec (.rsOutput 0) (demoRs { resampler with ready := true, out := 0x3F37F4B91DF53830 })) =
      some 0x3F37F4B91DF538300000000000030000 := by decide +kernel
/-- P3, row 9: cursor and output stay, history and accumulator are zeroed. -/
theorem test_rsReset :
    rsOf 0 (exec (.rsReset 0) (demoRs { resampler with
        ready := true, out := 0x3F37F4B91DF53830, acc := 1706, cur := 5
        hist := [(4, 7), (2052, 7)] })) =
      some { resampler with out := 0x3F37F4B91DF53830, cur := 5 } := by decide +kernel

/-! ### IN.CONFIG, IN.SETFC, IN.SETV, IN.SOLVE (V11, V12, P4) -/

theorem test_inConfig :
    rspOf (exec (.inConfig 1 1 0x40130A3D70A3D70A 0x3FE999999999999A 0x3F91B71758E21965
      0x3FF4CCCCCCCCCCCD 0x40C0D1D99999999A) demo) =
      some 0x000000000000A98B0000000000010000 := by decide +kernel
theorem test_inConfig_qrange :
    rspOf (exec (.inConfig 1 1 0x40130A3D70A3D70A 0x3FE999999999999A 0x3F91B71758E21965
      0x3FF4CCCCCCCCCCCD 0x40D3880000000000) demo) =
      some 0x00000000000000000000000000400004 := by decide +kernel
theorem test_inSetfc :
    (inOf 0 (exec (.inSetfc 0 0x3FF0000000000000) demo)).map (·.ndac) = some 142 := by decide +kernel
theorem test_inSetfc_qrange :
    (inOf 0 (exec (.inSetfc 0 0x407F400000000000) demo)).map (fun n => (n.ndac, n.err)) =
      some (142, 4) := by decide +kernel
theorem test_inSetv :
    (inOf 0 (exec (.inSetv 0 0x3FFFFBE76C8B4396) demo)).map (·.nvgt) = some 63858 := by
  decide +kernel
theorem test_inSetv_open_interval :
    (inOf 0 (exec (.inSetv 0 0x3FF0000000000000) demo)).map (fun n => (n.nvgt, n.err)) =
      some (43403, 1) := by decide +kernel
/-- V12, row 5: the floor shifts of a negative difference and of a negative charge. -/
theorem test_inSolve_negative :
    (inOf 0 (exec (.inSolve 0 (-17)) demo)).map (fun n => (n.vc.toInt, n.vx)) =
      some (-6532, 16383) ∧
    rspOf (exec (.inSolve 0 (-17)) demo) = some 0x00000000000040000000000000030000 := by
  decide +kernel
/-- P4, step 17, and V15: a fault of unit 0 here, so FUNIT is 0. -/
theorem test_inSolve_subthreshold :
    rspOf (exec (.inSolve 0 20000) (demoIn { integrator with vx := 50000 })) =
      some 0x00000000000000000000001100030007 := by decide +kernel

/-- R13, R141, log 25: a `RES_ERR_K` of 10^310 is infinity as a binary64, and so is the quotient. -/
theorem test_phaseResolution_not_finite :
    phaseResolution { params with resErrK := ⟨10 ^ 310, 0⟩ } Binary64.one =
      (Config.nonFiniteRat 0x7FF0000000000000).ceil := by
  have h : Binary64.div (Binary64.sqrt (Binary64.mul (Binary64.ofLit ⟨10 ^ 310, 0⟩)
      (Binary64.ofInt 65536))) Binary64.one = 0x7FF0000000000000 := by decide +kernel
  simp only [phaseResolution, params_num, Binary64.ops_toRat, Binary64.ops_div, Binary64.ops_sqrt,
    Binary64.ops_mul, Binary64.ops_ofLit, Binary64.ops_ofInt, h]
  rw [Binary64.toRat_of_not_isFinite (by decide)]

/-! ### Another `NUM`, over another type `F` (R9, R13) -/

/-- Exact rationals, a slot read as an unsigned integer; of its square root and sine nothing is tested. -/
def exactNum : Num where
  F := ℚ
  decEq := inferInstance
  ops :=
    { zero := 0, one := 1, pi := 3, ofInt := fun z => z, ofLit := fun l => l.mantissa / 10 ^ l.places
      add := (· + ·), sub := (· - ·), mul := (· * ·), div := (· / ·), sqrt := id, sin := id
      abs := fun a => if a < 0 then -a else a, lt := fun a b => decide (a < b)
      le := fun a b => decide (a ≤ b), ge := fun a b => decide (b ≤ a), eq := fun a b => decide (a = b)
      isFinite := fun _ => true, toRat := id, bits := fun a => BitVec.ofInt 64 a.floor
      ofBits := fun w => w.toNat }

def exactParams : Params ℚ := paramsOf ⟨exactNum, params.toSettings, [[]]⟩

/-- R186 by hand: `NKP = 1/4096` and `wl = 5` give `8192 * (1/4096) * 5 = 10`. -/
theorem test_setfc_over_rationals :
    (match execWith exactParams (.inSetfc 0 5) { resetFor exactParams [[]] with
        ins := [{ InUnit.reset with cfgv := true, nkp := 1 / 4096 }] } with
      | .next t => t.ins.map fun n => (n.ndac, n.ndacv, n.err)
      | _ => []) = [(10, true, 0)] := by decide +kernel
/-- R160 by hand: the sample 5, read as the rational 5, is stored twice. -/
theorem test_input_over_rationals :
    (match execWith exactParams (.rsInput 0 5) { resetFor exactParams [[]] with
        rs := [{ RsUnit.reset with cfgv := true, acc := 1024, cps := 2048 }] } with
      | .next t => t.rs.map fun u => (u.hist.read 0, u.hist.read 2048, u.hist.read 1, u.acc)
      | _ => []) = [(5, 5, 0, 0)] := by decide +kernel

/-! ### The small core satisfies the invariants -/

theorem test_demo_resampler_sound : RsSound params demo.cache resampler where
  histForm := rfl
  mirrored := fun _ _ => rfl
  errCode := by decide
  cursor := fun _ => by decide
  lenOdd := fun _ => by decide
  lenShort := fun _ => by decide
  resPositive := fun _ => by decide
  ratio := fun _ => by decide
  ratioTruncated := fun _ => by decide +kernel
  phase := fun _ => by decide
  table := fun _ => rfl

theorem test_reset_resampler_sound (P : Params F) (c : Cache F) : RsSound P c RsUnit.reset where
  histForm := rfl
  mirrored := fun _ _ => rfl
  errCode := by decide
  cursor := nofun
  lenOdd := nofun
  lenShort := nofun
  resPositive := nofun
  ratio := nofun
  ratioTruncated := nofun
  phase := nofun
  table := nofun

theorem test_demo_sound : demo.Sound params where
  rsCount := by decide
  inCount := by decide
  ttCount := by decide
  tables := by decide
  resamplers := by
    intro unit h
    rcases List.mem_cons.1 h with rfl | h
    · exact test_demo_resampler_sound
    · rw [List.mem_singleton.1 h]
      exact test_reset_resampler_sound _ _
  integrators := by
    intro unit h
    rcases List.mem_cons.1 h with rfl | h
    · exact ⟨by decide, by decide, by decide, by decide⟩
    · rw [List.mem_singleton.1 h]
      exact ⟨by decide, by decide, by decide, by decide⟩
  cache := ⟨rfl, fun e h => by rw [List.mem_singleton.1 h]; decide,
    fun e h => by rw [List.mem_singleton.1 h]; decide, fun e h => by rw [List.mem_singleton.1 h]⟩
  fault := .inl rfl
  response := nofun

/-! ### Witnesses: every statement's hypotheses can be met -/

theorem test_witness_EncodedCommandDecodesBack :
    (Instr.inConfig 255 255 0 0 0 0 0).WellFormed = true ∧
      (Instr.inSolve 255 (-2 ^ 31)).WellFormed = true ∧
      (Instr.inSolve 0 (2 ^ 31 - 1)).WellFormed = true := by decide
theorem test_witness_DecodedCommandKeepsHeader : decode ⟨0x02FF, []⟩ = .ok (.rsOutput 255) := rfl
theorem test_witness_IgnoredSlotBits :
    headerOpcode 0x13FF = 0x13#8 ∧
      (0x00000000FFFFFFEF : Slot).setWidth 32 = (0xDEADBEEFFFFFFFEF : Slot).setWidth 32 ∧
      headerOpcode 0x1000 = 0x10#8 ∧ (0x102 : Slot).setWidth 8 = (0x02 : Slot).setWidth 8 ∧
      commandOf ⟨0x1302, [0xFFFFFFEF]⟩ = commandOf ⟨0x1302, [0xDEADBEEFFFFFFFEF]⟩ ∧
      commandOf ⟨0x1302, [0xFFFFFFEF]⟩ = some (.inSolve 2 (-17)) := by decide
theorem test_witness_OpcodeMapSelectsTheRow :
    0x00FF#16 &&& 0xFF00#16 = 0x0000#16 ∧ 0x01FF#16 &&& 0xFF00#16 = 0x0100#16 ∧
      0x0200#16 &&& 0xFF00#16 = 0x0200#16 ∧ 0x03FF#16 &&& 0xFF00#16 = 0x0300#16 ∧
      0x1000#16 &&& 0xFF00#16 = 0x1000#16 ∧ 0x11FF#16 &&& 0xFF00#16 = 0x1100#16 ∧
      0x1200#16 &&& 0xFF00#16 = 0x1200#16 ∧ 0x13FF#16 &&& 0xFF00#16 = 0x1300#16 ∧
      0x0400#16 &&& 0xFF00#16 ∉ [0x0000#16, 0x0100#16, 0x0200#16, 0x0300#16, 0x1000#16, 0x1100#16,
        0x1200#16, 0x1300#16] := by decide
theorem test_witness_ByteTransportRoundTrip :
    ([0, 1, 2] : List Slot)[2]? = some 2 ∧ 7 < 8 ∧
      ([0, 1, 2] : List Slot).length = slotCount 0x00FF := by decide
theorem test_witness_StepRunsPresentedCommand :
    (demo.present ⟨0x0200, []⟩).events = .frame ⟨0x0200, []⟩ :: [] ∧
      commandOf ⟨0x0200, []⟩ = some (.rsOutput 0) ∧ decodeTableWord 16 0x0200 = some (.rsOutput 0) := by
  decide
theorem test_witness_WaitingCoreStays : demo.events = [] := rfl
theorem test_witness_IllegalFramesAnswered :
    demo.halted = false ∧
      (demo.present ⟨0x0400, []⟩).events = .frame ⟨0x0400, []⟩ :: [] ∧
      4 ≤ (0x0400 : Header).toNat / 256 % 16 ∧ 2 ≤ (0x2000 : Header).toNat / 4096 ∧
      ¬ unitPresent (.rsOutput 2) demo ∧ demo.ins[1]? = some InUnit.reset ∧ demo.tt.length ≤ 2 ∧
      ([] : List Slot).length = slotCount 0xFFFF := by
  refine ⟨rfl, rfl, by decide, by decide, ?_, rfl, by decide, by decide⟩
  simp [unitPresent, resamplerCommand, unitOf, demo]
theorem test_witness_HardwareResetClears :
    ({ demoHalted with events := [.hardwareReset] } : State).events = .hardwareReset :: [] := rfl
theorem test_witness_UnspecifiedValuesAreUnobservable :
    (State.resetWith 1 1 [[]]).observable =
        ({ State.resetWith 1 1 [[]] with rs := [{ RsUnit.reset with cur := 7, acc := 5 }] } :
          State).observable ∧
      (State.resetWith 1 1 [[]] : State) ≠
        { State.resetWith 1 1 [[]] with rs := [{ RsUnit.reset with cur := 7, acc := 5 }] } ∧
      ∃ t, step (State.resetWith 1 1 [[]]) = .next t := ⟨by decide, by decide, _, rfl⟩
theorem test_witness_ResetStateIsSound :
    1 ≤ 1 ∧ 256 ≤ 256 ∧ 1 ≤ ([[]] : List (Memory U16)).length ∧
      ∀ m ∈ ([[]] : List (Memory U16)), m.wf 65536 = true := by decide
theorem test_demo_lengths : demo.LengthsInRange where
  units := by
    intro unit h
    rcases List.mem_cons.1 h with rfl | h
    · exact fun _ => by decide
    · rw [List.mem_singleton.1 h]
      nofun
  keys := fun e h => by rw [List.mem_singleton.1 h]; decide
theorem test_witness_EveryStepKeepsInvariants :
    demo.Sound params ∧ demo.LengthsInRange ∧ ∃ t, step demo = .next t :=
  ⟨test_demo_sound, test_demo_lengths, _, rfl⟩
theorem test_witness_SoundCoreNeverStops :
    demo.Sound params ∧ ∀ e rest, demo.events = e :: rest → e.legal = true :=
  ⟨test_demo_sound, nofun⟩
/-- The other `ORDER_ROUND`, `H = 16`, registers of 20 bits, one unit of each class. -/
def otherParams : Params F :=
  { params with orderRound := .nearestIntThenUpToEven, ringHalf := 16, accW := 20, nrs := 1, nin := 1 }

theorem test_other_params_sound : (resetFor otherParams [[]]).Sound otherParams where
  rsCount := by decide
  inCount := by decide
  ttCount := by decide
  tables := by decide
  resamplers := by
    intro unit h
    rw [List.mem_singleton.1 h]
    exact test_reset_resampler_sound _ _
  integrators := by
    intro unit h
    rw [List.mem_singleton.1 h]
    exact ⟨by decide, by decide, by decide, by decide⟩
  cache := ⟨rfl, nofun, nofun, nofun⟩
  fault := .inl rfl
  response := nofun

/-- V5: `1, 1, 0.25` gives 13 taps, which fit. -/
theorem test_witness_OtherSettingsKeepInvariants :
    otherParams.num = Binary64.ops ∧ otherParams.resErrK = params.resErrK ∧ 1 ≤ otherParams.ringHalf ∧
      (resetFor otherParams [[]]).Sound otherParams ∧
      (rspOf (stepWith otherParams ((resetFor otherParams [[]]).present
        ⟨0x0000, [0x3FF0000000000000, 0x3FF0000000000000, 0x3FD0000000000000]⟩))).map rspCode = some 0 ∧
      (∀ e rest, (resetFor otherParams [[]]).events = e :: rest → e.legal = true) ∧
      1 ≤ otherParams.nrs ∧ otherParams.nin ≤ 256 ∧
      ∀ m ∈ ([[]] : List (Memory U16)), m.wf 65536 = true :=
  ⟨rfl, rfl, by decide, test_other_params_sound, by decide +kernel, nofun, by decide, by decide, by decide⟩
theorem test_witness_HaltedCoreAnswersOnly :
    demoHalted.halted = true ∧ decode ⟨0x2000, []⟩ = .error .illegalHeader ∧
      (∃ t, step { demoHalted with events := [.hardwareReset] } = .next t ∧ t.halted = false) :=
  ⟨rfl, rfl, _, rfl, rfl⟩
/-- A success, an error and a fault: the three ways of R210. -/
theorem test_witness_ResponsesCarryStatusAndResult :
    (∃ t r, exec (.inSolve 0 (-17)) demo = .next t ∧ t.rsp = some r ∧ r.extractLsb' 0 4 = 0) ∧
      (∃ t r, exec (.rsOutput 1) demo = .next t ∧ t.rsp = some r ∧ r.extractLsb' 0 4 = 5) ∧
      (∃ t, step (demo.present ⟨0x2000, []⟩) = .next t) :=
  ⟨⟨_, _, rfl, rfl, by decide +kernel⟩, ⟨_, _, rfl, rfl, by decide +kernel⟩, _, rfl⟩
theorem test_witness_ErrFieldRecordsOutcome :
    (demo.halted = false ∧ unitPresent (.rsOutput 1) demo ∧
        ∃ t, exec (.rsOutput 1) demo = .next t ∧ t.halted = false) ∧
      (∃ t, exec (.inSolve 0 20000) (demoIn { integrator with vx := 50000 }) = .next t ∧
        t.halted = true) ∧
      ¬ unitPresent (.rsOutput 2) demo := by
  refine ⟨⟨rfl, ?_, _, rfl, rfl⟩, ⟨_, rfl, by decide +kernel⟩, ?_⟩
  · simp [unitPresent, resamplerCommand, unitOf, demo]
  · simp [unitPresent, resamplerCommand, unitOf, demo]
theorem test_witness_RefusedCommandWritesOnlyErr :
    (∃ t r, exec (.rsOutput 1) demo = .next t ∧ t.rsp = some r ∧ r.extractLsb' 0 4 ≠ 0) ∧
      ∃ t r, exec (.rsOutput 1) demoHalted = .next t ∧ t.rsp = some r ∧ r.extractLsb' 0 4 = 7 :=
  ⟨⟨_, _, rfl, rfl, by decide +kernel⟩, _, _, rfl, rfl, by decide +kernel⟩
theorem test_witness_FaultEntryIsPrecise :
    (demoIn { integrator with vx := 50000 }).halted = false ∧
      ∃ t, exec (.inSolve 0 20000) (demoIn { integrator with vx := 50000 }) = .next t ∧
        t.halted = true := ⟨rfl, _, rfl, by decide +kernel⟩
theorem test_witness_FaultRegisterWrittenByFaultsOnly :
    demo.Sound params ∧ demo.faultReg.getLsbD 0 = false ∧ ∃ t, step demo = .next t :=
  ⟨test_demo_sound, rfl, _, rfl⟩
theorem test_witness_CommandTouchesOwnUnitOnly :
    (∃ t, exec (.rsOutput 1) demo = .next t) ∧ resamplerCommand (.rsOutput 1) = true ∧
      0 ≠ unitOf (.rsOutput 1) := ⟨⟨_, rfl⟩, rfl, by decide⟩
theorem test_witness_DifferentUnitsCommute :
    demo.Sound params ∧ differentUnits (.rsOutput 0) (.inSolve 0 (-17)) ∧
      ∃ a ab, exec (.rsOutput 0) demo = .next a ∧ exec (.inSolve 0 (-17)) a = .next ab ∧
        ab.halted = false :=
  ⟨test_demo_sound, .inl (by decide), _, _, rfl, rfl, by decide +kernel⟩
/-- A halted core: both commands are answered, in either order. -/
theorem test_witness_DifferentUnitsCommute_halted :
    differentUnits (.rsOutput 0) (.inSolve 0 0) ∧ demoHalted.halted = true ∧
      ∃ a ab, exec (.rsOutput 0) demoHalted = .next a ∧ exec (.inSolve 0 0) a = .next ab :=
  ⟨.inl (by decide), rfl, _, _, rfl, rfl⟩
theorem test_witness_TransferTablesReadOnly : ∃ t, step demo = .next t := ⟨_, rfl⟩

/-- The fault that `solveFault` names for a unit, one clause of `SolveFaultOrder` after the other, at the
boundaries of V12: `vx = nvgt`; `d` one step over 2^31 - 1; `i` over; `vc = 2^31`; index 65536; index -1. -/
theorem test_witness_SolveFaultOrder :
    demo.halted = false ∧ demo.ins[0]? = some integrator ∧ (InUnit.reset : InUnit F).cfgv = false ∧
      solveFault params { integrator with vx := 43403 } 0 = some .subthreshold ∧
      solveFault params { integrator with nvgt := 46341, ndac := 1 } 46341 = some .overflow ∧
      solveFault params { integrator with ndac := 65475 } 43403 = some .overflow ∧
      solveFault params { integrator with ndac := 1, vc := 2147426159 } 43403 = some .overflow ∧
      solveFault params { integrator with ndac := 1, vc := 1073684335 } 43403 = some .index ∧
      solveFault params { integrator with ndac := 1, vc := -1073741824 } (-2950) = some .index := by
  decide +kernel
/-- V12, row 1 and R201: `d = 1336120000`, `i = vc = 5790050`, index 32944. -/
theorem test_witness_SolveRunsOneCycle :
    demo.halted = false ∧ demo.ins[0]? = some integrator ∧ integrator.cfgv = true ∧
      integrator.ndacv = true ∧ demo.tt[integrator.ttsel]?.isSome = true ∧
      integrator.vx.toInt < integrator.nvgt.toNat ∧
      driveDifference integrator 20000 = 1336120000 ∧
      driveCurrent params integrator 20000 = 5790050 ∧ newCharge params integrator 20000 = 5790050 ∧
      chargeIndex params 5790050 = 32944 := by decide +kernel
theorem test_witness_SolveKeepsRanges :
    chargeIndex params (-2 ^ 30) = 0 ∧ chargeIndex params (2 ^ 30 - 1) = 65535 ∧
      ∃ t r, exec (.inSolve 0 (-17)) demo = .next t ∧ t.rsp = some r ∧ r.extractLsb' 0 4 = 0 :=
  ⟨by decide, by decide, _, _, rfl, rfl, by decide +kernel⟩
theorem test_witness_SolveMovesChargeTowardInput :
    demo.halted = false ∧ demo.ins[0]? = some integrator ∧ integrator.cfgv = true ∧
      integrator.ndacv = true ∧
      (∃ t, exec (.inSolve 0 (-17)) demo = .next t ∧ t.halted = false ∧
        -17 < integrator.vx.toInt) ∧
      (∃ t, exec (.inSolve 0 0) demo = .next t ∧ t.halted = false ∧ integrator.vx.toInt = 0) :=
  ⟨rfl, rfl, rfl, rfl, ⟨_, rfl, by decide +kernel, by decide⟩, _, rfl, by decide +kernel, by decide⟩

/-- The gate voltage of V11 for the multiplier 1.5: 43402.968, quantized to 43403. -/
theorem test_witness_gate_voltage :
    Binary64.isFinite (Binary64.mul integrator.n16 (Binary64.sub (Binary64.sub (Binary64.mul
        integrator.vdc (Binary64.ofLit ⟨15, 1⟩)) integrator.vth) integrator.vmin)) = true ∧
      (Binary64.toRat (Binary64.mul integrator.n16 (Binary64.sub (Binary64.sub (Binary64.mul
        integrator.vdc (Binary64.ofLit ⟨15, 1⟩)) integrator.vth) integrator.vmin)) + 1 / 2).floor =
        43403 := by decide +kernel
theorem test_witness_InConfigConstructs :
    demo.halted = false ∧ demo.ins[1]? = some InUnit.reset ∧ 1 < demo.tt.length ∧
      ∀ c ∈ [integrator.vdc, integrator.vth, integrator.nkp, integrator.vmin, integrator.n16],
        Binary64.isFinite c = true :=
  ⟨rfl, rfl, by decide, List.all_eq_true.1 (by decide)⟩
/-- A bad table select, an infinite constant, and P4's step 9 (scale 20000). -/
theorem test_witness_InConfigRefusals :
    demo.tt.length ≤ 2 ∧ 1 < demo.tt.length ∧ Binary64.isFinite 0x7FF0000000000000 = false ∧
      65535 < (Binary64.toRat (Binary64.mul 0x40D3880000000000 (Binary64.sub (Binary64.sub
        (Binary64.mul integrator.vdc (Binary64.ofLit ⟨15, 1⟩)) integrator.vth) integrator.vmin)) +
          1 / 2).floor := by decide +kernel
/-- V11: 1.0 gives 142, 462.5 is out of range, infinity is no argument. -/
theorem test_witness_SetfcQuantizesTheDrive :
    demo.halted = false ∧ demo.ins[0]? = some integrator ∧ (InUnit.reset : InUnit F).cfgv = false ∧
      Binary64.isFinite 0x7FF0000000000000 = false ∧
      (Binary64.toRat (Binary64.mul (Binary64.mul (Binary64.ofInt 8192) integrator.nkp)
        Binary64.one) + 1 / 2).floor = 142 ∧
      65535 < (Binary64.toRat (Binary64.mul (Binary64.mul (Binary64.ofInt 8192) integrator.nkp)
        (Binary64.ofLit ⟨4625, 1⟩)) + 1 / 2).floor := by decide +kernel
/-- V11: 1.999 gives 63858; 1.0 and 2.0 are outside; a scale of 20000 puts 1.5 out of range. -/
theorem test_witness_SetvQuantizesTheGate :
    demo.halted = false ∧ demo.ins[0]? = some integrator ∧ (InUnit.reset : InUnit F).cfgv = false ∧
      ¬ 1 < Binary64.toRat Binary64.one ∧ ¬ Binary64.toRat (Binary64.ofInt 2) < 2 ∧
      1 < Binary64.toRat 0x3FFFFBE76C8B4396 ∧ Binary64.toRat 0x3FFFFBE76C8B4396 < 2 ∧
      65535 < (Binary64.toRat (Binary64.mul 0x40D3880000000000 (Binary64.sub (Binary64.sub
        (Binary64.mul integrator.vdc 0x3FF8000000000000) integrator.vth) integrator.vmin)) +
          1 / 2).floor := by decide +kernel
theorem test_witness_QuantizerRoundsToNearest :
    Binary64.isFinite 0x7FF8000000000000 = false ∧ Binary64.isFinite (Binary64.ofLit ⟨-5, 1⟩) = true := by
  decide +kernel

/-- The hypotheses of `RsConfigConstructs` on three operands, but for those on each operand alone. -/
def rsConfigAccepts (fclk fs fpass : F) : Bool :=
  let two := Binary64.ofInt 2
  let a := Binary64.ofLit ⟨9632959861247399, 14⟩
  let r := Binary64.div fclk fs
  let cps := (Binary64.toRat r * 1024).floor
  let dw := Binary64.mul (Binary64.mul (Binary64.sub Binary64.one
    (Binary64.div (Binary64.mul two fpass) fs)) Binary64.pi) two
  let xo := Binary64.div (Binary64.sub a (Binary64.ofLit ⟨795, 2⟩))
    (Binary64.mul (Binary64.ofLit ⟨2285, 3⟩) dw)
  let order := 2 * (Binary64.toRat xo / 2 + 1 / 2).floor
  let p := Binary64.mul (Binary64.ofInt order) r
  let taps := (Binary64.toRat p).floor + 1
  let len := if taps % 2 = 0 then taps + 1 else taps
  Binary64.le fpass (Binary64.div fs two) && decide (2 * Binary64.toRat fpass ≤ Binary64.toRat fs) &&
    Binary64.isFinite r && Binary64.le Binary64.one r &&
    decide (cps ≤ 2 ^ 31 - 1024) && Binary64.isFinite xo && Binary64.isFinite p &&
    decide (len < 2048)

/-- The configurations `7, 3, 0.75` and, with 2047 taps, `660000, 20000, 9000` (V5) meet them. -/
theorem test_witness_RsConfigConstructs_checks :
    rsConfigAccepts 0x401C000000000000 0x4008000000000000 0x3FE8000000000000 = true ∧
      rsConfigAccepts (Binary64.ofInt 660000) (Binary64.ofInt 20000) (Binary64.ofInt 9000) = true := by
  decide +kernel
/-- The configuration `7, 3, 0.75` (V5) meets every check. -/
theorem test_witness_RsConfigConstructs :
    demo.halted = false ∧ demo.rs[1]? = some RsUnit.reset ∧
      designOf 0x401C000000000000 0x4008000000000000 0x3FE8000000000000 =
        some ⟨29, 122, 0x4002AAAAAAAAAAAB, 2389⟩ ∧
      Binary64.le 0x3FE8000000000000 (Binary64.div 0x4008000000000000 (Binary64.ofInt 2)) = true ∧
      Binary64.isFinite (Binary64.div 0x401C000000000000 0x4008000000000000) = true ∧
      Binary64.le Binary64.one (Binary64.div 0x401C000000000000 0x4008000000000000) = true := by
  decide +kernel
theorem test_witness_RsConfigConstructs_args :
    ∀ x ∈ [(0x401C000000000000 : F), 0x4008000000000000, 0x3FE8000000000000],
      Binary64.isFinite x = true ∧ Binary64.lt Binary64.zero x = true := by
  have h : [(0x401C000000000000 : F), 0x4008000000000000, 0x3FE8000000000000].all (fun x =>
      Binary64.isFinite x && Binary64.lt Binary64.zero x) = true := by decide
  simpa using h
/-- One operand triple for each refusal, a second E_ARG one for the exact half (log 13), the two E_LEN ones with `xo` infinite and with 2053 taps (V5). -/
theorem test_witness_RsConfigRefusals :
    demo.rs[1]? = some RsUnit.reset ∧
      designError 0x401C000000000000 0x4008000000000000 0x3FF8000000000001 = some .eArg ∧
      designError 3 3 2 = some .eArg ∧
      designError 0x3FF0000000000000 0x4008000000000000 0x3FE8000000000000 = some .eRatio ∧
      designError 0x3FF0000000000000 0x3FF0000000000000 0x3FE0000000000000 = some .eLen ∧
      designError (Binary64.ofInt 662000) (Binary64.ofInt 20000) (Binary64.ofInt 9000) =
        some .eLen := by decide +kernel
theorem test_witness_DesignIsWithinBounds :
    designFilter params 0x401C000000000000 0x4008000000000000 0x3FE8000000000000 =
      .ok ⟨29, 122, 0x4002AAAAAAAAAAAB, 2389⟩ := by
  have h := test_witness_RsConfigConstructs.2.2.1
  rw [designOf] at h
  split at h
  · next hd => rw [hd, Option.some.inj h]
  · cases h
theorem test_witness_FilterLengthAtLeastSeven :
    designFilter params 0x401C000000000000 0x4008000000000000 0x3FE8000000000000 =
      .ok ⟨29, 122, 0x4002AAAAAAAAAAAB, 2389⟩ := test_witness_DesignIsWithinBounds
/-- A construction in the second unit: accepted, and refused for its ratio. -/
theorem test_witness_CacheLookupOrBuild :
    demo.Sound params ∧
      (rspOf (exec (.rsConfig 1 0x401C000000000000 0x4008000000000000 0x3FE8000000000000) demo)).map
        (·.extractLsb' 0 4) = some 0 ∧
      (rspOf (exec (.rsConfig 1 0x3FF0000000000000 0x4008000000000000 0x3FE8000000000000) demo)).map
        (·.extractLsb' 0 4) = some 3 ∧
      demo.cache.find? key = some (tableOfKey params key) :=
  ⟨test_demo_sound, by decide +kernel, by decide +kernel, rfl⟩
theorem test_witness_CachedTablesPersist :
    (∃ t, step demo = .next t) ∧ (∀ rest, demo.events ≠ .hardwareReset :: rest) ∧
      demo.cache.find? key = some (tableOfKey params key) := ⟨⟨_, rfl⟩, nofun, rfl⟩
theorem test_witness_CentreTapIsScale :
    (29 : Int) % 2 = 1 ∧ (1 : Int) ≤ 122 ∧ (122 : Int) ≤ 285 ∧
      Binary64.isFinite 0x4002AAAAAAAAAAAB = true ∧
      Binary64.le Binary64.one 0x4002AAAAAAAAAAAB = true := by decide

/-- An unconfigured unit, a unit with an output due, and one with none due (V7, rows 0 and 1). -/
theorem test_witness_RsInputStoresAndAdvances :
    demo.Sound params ∧ demo.halted = false ∧ demo.rs[1]? = some RsUnit.reset ∧
      (RsUnit.reset : RsUnit F).cfgv = false ∧ demo.rs[0]? = some resampler ∧ resampler.cfgv = true ∧
      resampler.acc.toInt < 1024 ∧ 1024 ≤ ({ resampler with acc := 1365 } : RsUnit F).acc.toInt :=
  ⟨test_demo_sound, rfl, rfl, rfl, rfl, rfl, by decide, by decide⟩
/-- One row that wraps and two that do not (phases 1023 and 0); and the empty rows of a negative length. -/
theorem test_witness_FilteringStepFormula :
    Cache.find? [((⟨1, 2, 0⟩ : FilterKey), [[Binary64.one], [Binary64.zero]])] ⟨1, 2, 0⟩ =
        some [[Binary64.one], [Binary64.zero]] ∧
      (∀ row ∈ [[Binary64.one], [Binary64.zero]], row.length = 1) ∧
      ({ resampler with len := 1, res := 2, rbits := 0, acc := 1023 } : RsUnit F).acc.toInt =
        (1023 : Nat) ∧
      1023 * 2 / 1024 + 1 = 2 ∧ 0 * 2 / 1024 + 1 ≠ 2 ∧
      Cache.find? [((⟨-17, 2, 0⟩ : FilterKey), [[], []])] ⟨-17, 2, 0⟩ =
        some ([[], []] : FilterTable F) ∧
      ∀ row ∈ ([[], []] : FilterTable F), row.length = (-17 : Int).toNat := by decide
theorem test_witness_MirroredHistoryHoldsSamples :
    resampler.hist.wf 4096 = true ∧ resampler.cur < 2048 ∧ 0 < [Binary64.one].length := by decide
theorem test_witness_HistoryWindowSlides :
    resampler.hist.wf 4096 = true ∧
      (∀ k < 2048, resampler.hist.read k = resampler.hist.read (k + 2048)) ∧
      resampler.len < 2048 ∧
      (∃ pushed, pushSample params resampler Binary64.one = some pushed) ∧
      ∃ pushed, pushSample params { resampler with cur := 2047 } Binary64.one = some pushed :=
  ⟨rfl, fun _ _ => rfl, by decide, ⟨_, rfl⟩, _, rfl⟩
theorem test_witness_silent : Silent params resampler := ⟨fun _ _ => rfl, rfl⟩
/-- One row of one finite coefficient: the new sample meets it, and the product is finite; and the operands of
a filter with one row (ratio 300, V5 with a length that fits). -/
theorem test_witness_FirstOutputIsZero_one_row :
    Silent params { resampler with len := 1, res := 1, rbits := 0 } ∧
      Cache.find? [((⟨1, 1, 0⟩ : FilterKey), [[Binary64.one]])] ⟨1, 1, 0⟩ = some [[Binary64.one]] ∧
      [[Binary64.one]].head? = some [Binary64.one] ∧ [Binary64.one].getLast? = some Binary64.one ∧
      Binary64.isFinite (Binary64.mul Binary64.pi Binary64.one) = true ∧
      (1801 : Int) % 2 = 1 ∧ Binary64.isFinite (Binary64.ofInt 300) = true ∧
      Binary64.le Binary64.one (Binary64.ofInt 300) = true :=
  ⟨⟨fun _ _ => rfl, rfl⟩, by decide, rfl, rfl, by decide +kernel, by decide, by decide +kernel,
    by decide +kernel⟩
theorem test_witness_FirstOutputIsZero :
    Silent params { resampler with len := 1, res := 2, rbits := 0 } ∧
      Cache.find? [((⟨1, 2, 0⟩ : FilterKey), [[Binary64.one], [Binary64.zero]])] ⟨1, 2, 0⟩ =
        some [[Binary64.one], [Binary64.zero]] ∧
      1024 ≤ resampler.cps.toInt ∧ resampler.cps.toInt ≤ 2 ^ 31 - 1024 ∧
      (∀ row ∈ [[Binary64.one], [Binary64.zero]], row.length = 1) ∧
      ∀ row ∈ [[Binary64.one], [Binary64.zero]].take 2, ∀ c ∈ row, Binary64.isFinite c = true := by
  refine ⟨⟨fun _ _ => rfl, rfl⟩, by decide, by decide, by decide, by decide, ?_⟩
  have h : ([[Binary64.one], [Binary64.zero]].take 2).all (fun row =>
      row.all Binary64.isFinite) = true := by decide
  intro row hr c hc
  exact List.all_eq_true.1 (List.all_eq_true.1 h row hr) c hc
theorem test_witness_CadenceOfOutputs :
    demo.Sound params ∧ demo.halted = false ∧ demo.rs[0]? = some resampler ∧
      resampler.cfgv = true ∧ resampler.acc = 0 := ⟨test_demo_sound, rfl, rfl, rfl, rfl⟩
/-- Two units of equal configuration, the second with another cursor and an old output. -/
theorem test_witness_ResetEquivalence :
    ({ demo with rs := [resampler, { resampler with cur := 5, out := 1 }] } : State).Sound params ∧
      Silent params { resampler with cur := 5, out := 1 } ∧
      (rspOf (exec (.rsReset 0) demo)).map (·.extractLsb' 0 4) = some 0 ∧
      (rspOf (exec (.rsConfig 1 0x401C000000000000 0x4008000000000000 0x3FE8000000000000) demo)).map
        (·.extractLsb' 0 4) = some 0 := by
  refine ⟨{ test_demo_sound with
    rsCount := by decide
    resamplers := ?_
    response := nofun }, ⟨fun _ _ => rfl, rfl⟩, by decide +kernel, by decide +kernel⟩
  intro unit h
  rcases List.mem_cons.1 h with rfl | h
  · exact test_demo_resampler_sound
  · rw [List.mem_singleton.1 h]
    exact { test_demo_resampler_sound with
      cursor := fun _ => by decide }
theorem test_witness_RsOutputReturnsLast :
    demo.halted = false ∧ demo.rs[0]? = some resampler ∧ resampler.cfgv = true ∧
      demo.rs[1]? = some RsUnit.reset ∧ (RsUnit.reset : RsUnit F).cfgv = false := ⟨rfl, rfl, rfl, rfl, rfl⟩
theorem test_witness_RsResetClears :
    demo.halted = false ∧ demo.rs[0]? = some resampler ∧ resampler.cfgv = true ∧
      demo.rs[1]? = some RsUnit.reset ∧ (RsUnit.reset : RsUnit F).cfgv = false := ⟨rfl, rfl, rfl, rfl, rfl⟩

theorem test_witness_ArithmeticRoundsToNearestEven :
    Binary64.isFinite Binary64.one = true ∧ Binary64.isFinite Binary64.pi = true ∧
      Binary64.isFinite (Binary64.add Binary64.one Binary64.pi) = true ∧
      Binary64.isFinite (Binary64.sub Binary64.one Binary64.pi) = true ∧
      Binary64.isFinite (Binary64.mul Binary64.one Binary64.pi) = true ∧
      Binary64.toRat Binary64.pi ≠ 0 ∧
      Binary64.isFinite (Binary64.div Binary64.one Binary64.pi) = true := by decide +kernel
theorem test_witness_SquareRootRoundsToNearest :
    Binary64.isFinite (Binary64.ofInt 2) = true ∧ 0 ≤ Binary64.toRat (Binary64.ofInt 2) := by
  decide +kernel
theorem test_witness_LiteralsRoundToNearestEven :
    Binary64.isFinite (Binary64.ofInt (2 ^ 53 + 1)) = true ∧
      Binary64.isFinite (Binary64.ofLit ⟨1, 6⟩) = true := by decide +kernel
/-- An argument on which the loop ends, and 2^1000, on which its first pass gives infinities (log 12). -/
theorem test_witness_BesselAtZeroAndEven :
    Binary64.isFinite Binary64.one = true ∧ Binary64.isFinite 0x7E70000000000000 = true ∧
      (besselAfter Binary64.ops (Binary64.div 0x7E70000000000000 (Binary64.ofInt 2)) 1).1 =
        0x7FF0000000000000 := by decide +kernel
/-- R114: 14 passes for beta itself, and no fewer. -/
theorem test_witness_BesselSeriesEnds :
    Binary64.le Binary64.zero (kaiserBeta params) = true ∧
      Binary64.le (kaiserBeta params) (kaiserBeta params) = true ∧
      (∀ k < 15, 1 ≤ k →
        let after := besselAfter Binary64.ops (Binary64.div (kaiserBeta params) (Binary64.ofInt 2)) k
        besselDone Binary64.ops after.1 after.2.1 = decide (k = 14)) := by decide +kernel
theorem test_witness_KaiserWindowEdges :
    Binary64.ge (Binary64.abs Binary64.one) Binary64.one = true ∧
      Binary64.lt (Binary64.abs 0x3FEFFFFFFFFFFFFF) Binary64.one = true := by decide
theorem test_witness_ConvolutionOrder : ([Binary64.one] : List F).length = [Binary64.pi].length := rfl
theorem test_witness_SilenceConvolvesToZero :
    ∀ c ∈ [Binary64.one, Binary64.pi], Binary64.isFinite c = true :=
  List.all_eq_true.1 (by decide)

end Sys2Proof.Tests
end

