-- ==== Sys2Proof/Proofs/MirroredHistory.lean ====
section
/-!
PROOF. The mirrored history (spec/20_memory.md R65): what one mirrored write leaves, that a history which holds
its samples by age still does after it, and so after any sequence of them.
-/

namespace Sys2Proof.Machine

/-! ### One mirrored write -/

section push

variable {α : Type} [Inhabited α] [DecidableEq α] {P : Params α} {unit pushed : RsUnit α} {x : α}

/-- A cursor in the first half takes a sample. -/
theorem exists_pushSample (x : α) (hcur : unit.cur < P.ringHalf) :
    ∃ pushed, pushSample P unit x = some pushed := by
  rw [pushSample, if_pos hcur]
  exact ⟨_, rfl⟩

theorem pushSample_cur (h : pushSample P unit x = some pushed) :
    pushed.cur = (unit.cur + 1) % P.ringHalf := by
  obtain ⟨-, rfl⟩ := pushSample_some h
  rfl

theorem pushSample_wf (h : pushSample P unit x = some pushed)
    (hwf : unit.hist.wf (2 * P.ringHalf) = true) : pushed.hist.wf (2 * P.ringHalf) = true := by
  obtain ⟨hcur, rfl⟩ := pushSample_some h
  exact Memory.wf_write (Memory.wf_write hwf (by omega)) (by omega)

/-- The sample stands at the two mirrored places and every other element is kept. -/
theorem pushSample_read (h : pushSample P unit x = some pushed)
    (hwf : unit.hist.wf (2 * P.ringHalf) = true) (k : Nat) :
    pushed.hist.read k =
      if k = unit.cur ∨ k = unit.cur + P.ringHalf then x else unit.hist.read k := by
  obtain ⟨hcur, rfl⟩ := pushSample_some h
  by_cases hhigh : k = unit.cur + P.ringHalf
  · rw [if_pos (.inr hhigh), hhigh]
    exact Memory.read_write_same _ _ _ _ (Memory.wf_write hwf (by omega))
  · rw [Memory.read_write_other _ _ _ _ hhigh]
    by_cases hlow : k = unit.cur
    · rw [if_pos (.inl hlow), hlow, Memory.read_write_same _ _ _ _ hwf]
    · rw [if_neg (not_or.mpr ⟨hlow, hhigh⟩), Memory.read_write_other _ _ _ _ hlow]

end push

/-! ### The place of a sample by its age -/

/-- `(cur - 1 - d) mod H`, where the sample written `d` inputs ago stands in the first half (R65). -/
def ageIndex (cur d : Nat) : Nat := (cur + 2047 - d) % 2048

theorem ageIndex_lt (cur d : Nat) : ageIndex cur d < 2048 := Nat.mod_lt _ (by decide)

theorem ageIndex_advance_zero {cur : Nat} (h : cur < 2048) : ageIndex ((cur + 1) % 2048) 0 = cur := by
  simp only [ageIndex]
  omega

theorem ageIndex_advance_succ {cur d : Nat} (h : cur < 2048) (hd : d < 2047) :
    ageIndex ((cur + 1) % 2048) (d + 1) = ageIndex cur d := by
  simp only [ageIndex]
  omega

/-- Only the sample of age 2047 stands at the cursor, where the next write goes. -/
theorem ageIndex_ne_cur {cur d : Nat} (h : cur < 2048) (hd : d < 2047) : ageIndex cur d ≠ cur := by
  simp only [ageIndex]
  omega

/-! ### The history holds its samples -/

/-- The unit's history holds the last samples of `xs` by age, in both halves (R65). -/
structure HoldsByAge (xs : List F) (unit : RsUnit F) : Prop where
  form : unit.hist.wf 4096 = true
  cursor : unit.cur < 2048
  samples : ∀ d, d < xs.length → d < 2048 →
    xs[xs.length - 1 - d]? = some (unit.hist.read (ageIndex unit.cur d)) ∧
    xs[xs.length - 1 - d]? = some (unit.hist.read (ageIndex unit.cur d + 2048))

/-- A mirrored write makes its sample the newest and every other sample one input older. -/
theorem HoldsByAge.push {xs : List F} {unit pushed : RsUnit F} {x : F} (hold : HoldsByAge xs unit)
    (h : pushSample params unit x = some pushed) : HoldsByAge (xs ++ [x]) pushed := by
  obtain ⟨hform, hcursor, hsamples⟩ := hold
  have hcur : pushed.cur = (unit.cur + 1) % 2048 := pushSample_cur h
  have hread : ∀ k, pushed.hist.read k =
      if k = unit.cur ∨ k = unit.cur + 2048 then x else unit.hist.read k := pushSample_read h hform
  refine ⟨pushSample_wf h hform, by omega, fun d hlen hd => ?_⟩
  rw [hcur]
  cases d with
  | zero =>
    rw [ageIndex_advance_zero hcursor]
    simp [hread]
  | succ d =>
    have hlen' : d < xs.length := by simpa using hlen
    have hne := ageIndex_ne_cur hcursor (d := d) (by omega)
    have hlt := ageIndex_lt unit.cur d
    have hindex : (xs ++ [x]).length - 1 - (d + 1) = xs.length - 1 - d := by
      rw [List.length_append, List.length_singleton]
      omega
    rw [ageIndex_advance_succ hcursor (by omega), hindex, List.getElem?_append_left (by omega),
      hread, hread, if_neg (by omega), if_neg (by omega)]
    exact hsamples d hlen' (by omega)

/-- Any sequence of samples is stored, and the history holds it: by induction on its last sample. -/
theorem foldlM_pushSample {unit : RsUnit F} (hform : unit.hist.wf 4096 = true)
    (hcursor : unit.cur < 2048) (xs : List F) :
    ∃ unit', xs.foldlM (fun v x => pushSample params v x) unit = some unit' ∧
      unit'.cur = (unit.cur + xs.length) % 2048 ∧ HoldsByAge xs unit' := by
  induction xs using List.reverseRecOn with
  | nil => exact ⟨unit, rfl, (Nat.mod_eq_of_lt hcursor).symm, hform, hcursor, nofun⟩
  | append_singleton xs x ih =>
    obtain ⟨mid, hmid, hcur, hold⟩ := ih
    obtain ⟨pushed, hpush⟩ := exists_pushSample (P := params) x hold.cursor
    have hadvance : pushed.cur = (mid.cur + 1) % 2048 := pushSample_cur hpush
    refine ⟨pushed, by simp [List.foldlM_append, hmid, hpush], ?_, hold.push hpush⟩
    rw [hadvance, hcur, List.length_append, List.length_singleton]
    omega

/-- Settles O44, by induction on the samples from the last. -/
theorem mirroredHistoryHoldsSamples : Obligations.MirroredHistoryHoldsSamples := by
  intro unit xs hform hcursor
  obtain ⟨unit', hfold, hcur, hold⟩ := foldlM_pushSample hform hcursor xs
  exact ⟨unit', hfold, hcur, hold.samples⟩

end Sys2Proof.Machine
end

