-- ==== Sys2Proof/Proofs/Encoding.lean ====
section
/-!
PROOF. Frames and responses (spec/30_encoding.md): the bits of a frame that carry no meaning (R87), which headers
are illegal and what is answered to them, to a missing unit and to a table select out of range (R86), and the
fields of every response (R88).
-/

namespace Sys2Proof.Machine

/-! ## The bits of a frame that carry no meaning (R87) -/

/-! ### What an operand slot is read from -/

/-- An `s32` operand is read from its slot's low 32 bits (R83). -/
theorem s32Of_eq_setWidth (w : Slot) : s32Of w = (w.setWidth 32).toInt := by
  rw [s32Of, ← BitVec.setWidth_eq_extractLsb' (by decide)]

/-- A `tsel` operand is read from its slot's low 8 bits (R83). -/
theorem tselOf_eq_setWidth (w : Slot) : tselOf w = (w.setWidth 8).toNat := by
  rw [tselOf, ← BitVec.setWidth_eq_extractLsb' (by decide)]

/-! ### What the frame at the front of the stream is decoded to is all a step sees of it -/

section step
variable {s : State} {f : Frame} {rest : List HostEvent}

theorem step_of_command {i : Instr} (he : s.events = .frame f :: rest) (hd : decode f = .ok i) :
    step s = exec i s.takeEvent := by
  simp [step, stepBy, fetch, he, hd]

theorem step_of_illegalHeader (he : s.events = .frame f :: rest) (hd : decode f = .error .illegalHeader) :
    step s = .next (illegalFrame s.takeEvent) := by
  simp [step, stepBy, fetch, he, hd]

theorem step_of_notAFrame (he : s.events = .frame f :: rest) (hd : decode f = .error .notAFrame) :
    step s = .refused .notAFrame := by
  simp [step, stepBy, fetch, he, hd]

end step

/-- Taking the event of a presented frame gives back the state it was presented to. -/
@[simp] theorem takeEvent_present {F : Type} (s : State.Over F) (f : Frame) : (s.present f).takeEvent = s := rfl

/-- Two frames that decode alike give the same step. -/
theorem step_present_congr (s : State) {f f' : Frame} (h : decode f = decode f') :
    step (s.present f) = step (s.present f') := by
  cases hd : decode f' with
  | ok i => rw [step_of_command rfl (h.trans hd), step_of_command rfl hd, takeEvent_present, takeEvent_present]
  | error e =>
    cases e with
    | illegalHeader =>
      rw [step_of_illegalHeader rfl (h.trans hd), step_of_illegalHeader rfl hd, takeEvent_present,
        takeEvent_present]
    | notAFrame => rw [step_of_notAFrame rfl (h.trans hd), step_of_notAFrame rfl hd]

/-! ### Frames that decode alike -/

/-- Under a legal header, slots that make the same command decode alike. -/
theorem decode_congr_of_row {h : Header} {r : Row} {ws ws' : List Slot} (hrow : headerOpcode h = opcodeOf r)
    (hcommand : commandOfRow r (headerUnit h) ws = commandOfRow r (headerUnit h) ws') :
    decode ⟨h, ws⟩ = decode ⟨h, ws'⟩ := by
  simp only [decode, rowOf_eq_some.mpr hrow, hcommand]

/-- Slots of the same select make the same `IN.CONFIG`, and the same refusal where their number is wrong. -/
theorem commandOfRow_inConfig_congr (u : Nat) {w w' : Slot} (ws : List Slot) (h : tselOf w = tselOf w') :
    commandOfRow .inConfig u (w :: ws) = commandOfRow .inConfig u (w' :: ws) := by
  rcases ws with _ | ⟨a, _ | ⟨b, _ | ⟨c, _ | ⟨d, _ | ⟨e, _ | ⟨g, ws⟩⟩⟩⟩⟩⟩ <;> simp [commandOfRow, h]

/-! ### The header of a command -/

/-- The row of a command (R84). -/
def rowOfCommand : Instr → Row
  | .rsConfig .. => .rsConfig
  | .rsInput .. => .rsInput
  | .rsOutput .. => .rsOutput
  | .rsReset .. => .rsReset
  | .inConfig .. => .inConfig
  | .inSetfc .. => .inSetfc
  | .inSetv .. => .inSetv
  | .inSolve .. => .inSolve

/-- A command made of a row's slots tells the row and the unit. -/
theorem row_unit_of_commandOfRow {r : Row} {u : Nat} {ws : List Slot} {i : Instr}
    (h : commandOfRow r u ws = some i) : r = rowOfCommand i ∧ u = unitOf i := by
  rcases commandOfRow_eq_some h with ⟨a, b, c, rfl, -, rfl⟩ | ⟨a, rfl, -, rfl⟩ | ⟨rfl, -, rfl⟩ | ⟨rfl, -, rfl⟩ |
    ⟨k, a, b, c, d, e, rfl, -, rfl⟩ | ⟨a, rfl, -, rfl⟩ | ⟨a, rfl, -, rfl⟩ | ⟨a, rfl, -, rfl⟩ <;>
  exact ⟨rfl, rfl⟩

theorem headerOpcode_toNat (h : Header) : (headerOpcode h).toNat = h.toNat / 256 := by
  have : h.toNat < 2 ^ 16 := h.isLt
  rw [headerOpcode, BitVec.extractLsb'_toNat, Nat.shiftRight_eq_div_pow]
  omega

theorem headerUnit_eq (h : Header) : headerUnit h = h.toNat % 256 := by
  rw [headerUnit, BitVec.extractLsb'_toNat, Nat.shiftRight_zero]

/-- A header is its opcode and its unit: no bit is in neither (R81). -/
theorem header_ext {h h' : Header} (ho : headerOpcode h = headerOpcode h') (hu : headerUnit h = headerUnit h') :
    h = h' := by
  have high := congrArg BitVec.toNat ho
  rw [headerOpcode_toNat, headerOpcode_toNat] at high
  rw [headerUnit_eq, headerUnit_eq] at hu
  exact BitVec.eq_of_toNat_eq (by omega)

/-- The opcode and the unit of a decoded frame's header, told by the command (R84). -/
theorem header_of_decode {f : Frame} {i : Instr} (h : decode f = .ok i) :
    headerOpcode f.hdr = opcodeOf (rowOfCommand i) ∧ headerUnit f.hdr = unitOf i := by
  obtain ⟨r, hrow, hcommand⟩ := decode_eq_ok.mp h
  obtain ⟨rfl, hunit⟩ := row_unit_of_commandOfRow hcommand
  exact ⟨rowOf_eq_some.mp hrow, hunit⟩

/-- Settles O3: the two operands are read from their slots' low bits, and a header is its opcode and unit. -/
theorem ignoredSlotBits : Obligations.IgnoredSlotBits := by
  refine ⟨fun s h w w' hop hw => ?_, fun s h w w' ws hop hw => ?_, fun h h' ws ws' i hd hd' => ?_⟩
  · have hvalue : s32Of w = s32Of w' := by rw [s32Of_eq_setWidth, hw, ← s32Of_eq_setWidth]
    exact step_present_congr s (decode_congr_of_row (r := .inSolve) hop (by simp [commandOfRow, oneSlot, hvalue]))
  · have hselect : tselOf w = tselOf w' := by rw [tselOf_eq_setWidth, hw, ← tselOf_eq_setWidth]
    exact step_present_congr s
      (decode_congr_of_row (r := .inConfig) hop (commandOfRow_inConfig_congr _ ws hselect))
  · obtain ⟨hop, hunit⟩ := header_of_decode hd
    obtain ⟨hop', hunit'⟩ := header_of_decode hd'
    exact header_ext (hop.trans hop'.symm) (hunit.trans hunit'.symm)

/-! ## Illegal headers, missing units and table selects (R86) -/

/-! ### The illegal headers -/

/-- CLASS is 2 or more, or OP is 4 or more (R86). -/
def HeaderOutOfMap (h : Header) : Prop := 2 ≤ h.toNat / 4096 ∨ 4 ≤ h.toNat / 256 % 16

/-- The eight opcodes are those with a CLASS of 0 or 1 and an OP of 0 to 3 (R84). -/
theorem exists_opcodeOf_iff (b : BitVec 8) :
    (∃ r, b = opcodeOf r) ↔ ¬ (2 ≤ b.toNat / 16 ∨ 4 ≤ b.toNat % 16) := by
  constructor
  · rintro ⟨r, rfl⟩
    cases r <;> decide
  · intro h
    have hcases : b.toNat = 0x00 ∨ b.toNat = 0x01 ∨ b.toNat = 0x02 ∨ b.toNat = 0x03 ∨
        b.toNat = 0x10 ∨ b.toNat = 0x11 ∨ b.toNat = 0x12 ∨ b.toNat = 0x13 := by omega
    rcases hcases with hb | hb | hb | hb | hb | hb | hb | hb
    · exact ⟨.rsConfig, BitVec.eq_of_toNat_eq hb⟩
    · exact ⟨.rsInput, BitVec.eq_of_toNat_eq hb⟩
    · exact ⟨.rsOutput, BitVec.eq_of_toNat_eq hb⟩
    · exact ⟨.rsReset, BitVec.eq_of_toNat_eq hb⟩
    · exact ⟨.inConfig, BitVec.eq_of_toNat_eq hb⟩
    · exact ⟨.inSetfc, BitVec.eq_of_toNat_eq hb⟩
    · exact ⟨.inSetv, BitVec.eq_of_toNat_eq hb⟩
    · exact ⟨.inSolve, BitVec.eq_of_toNat_eq hb⟩

/-- A header selects a row exactly when its CLASS and OP are in the map (R84, R86). -/
theorem exists_rowOf_iff (h : Header) : (∃ r, rowOf h = some r) ↔ ¬ HeaderOutOfMap h := by
  have hmap := exists_opcodeOf_iff (headerOpcode h)
  rw [headerOpcode_toNat, Nat.div_div_eq_div_mul] at hmap
  simpa only [rowOf_eq_some, HeaderOutOfMap, Nat.reduceMul] using hmap

theorem rowOf_eq_none_iff (h : Header) : rowOf h = none ↔ HeaderOutOfMap h := by
  rw [← not_iff_not, ← exists_rowOf_iff, ← ne_eq, Option.ne_none_iff_exists']

/-- With the header's number of slots, a frame is a command exactly when its header selects a row (R82). -/
theorem exists_decode_iff {h : Header} {ws : List Slot} (hlen : ws.length = slotCount h) :
    (∃ i, decode ⟨h, ws⟩ = .ok i) ↔ ∃ r, rowOf h = some r := by
  constructor
  · rintro ⟨i, hd⟩
    obtain ⟨r, hrow, -⟩ := decode_eq_ok.mp hd
    exact ⟨r, hrow⟩
  · rintro ⟨r, hrow⟩
    have hslots : ws.length = rowSlots r := by rw [hlen, slotCount, hrow]
    obtain ⟨i, hi⟩ := Option.isSome_iff_exists.mp (commandOfRow_isSome (u := headerUnit h).mpr hslots)
    exact ⟨i, decode_eq_ok.mpr ⟨r, hrow, hi⟩⟩

/-- A header outside the map has no slot and is illegal (R82, R86). -/
theorem decode_of_outOfMap {h : Header} {ws : List Slot} (hlen : ws.length = slotCount h)
    (hout : HeaderOutOfMap h) : decode ⟨h, ws⟩ = .error .illegalHeader := by
  have hrow := (rowOf_eq_none_iff h).mpr hout
  rw [slotCount, hrow, List.length_eq_zero_iff] at hlen
  exact decode_eq_illegal.mpr ⟨hrow, hlen⟩

/-! ### The unit-range check -/

section absent
variable {F : Type} {s : State.Over F} {u : Nat}

theorem onRs_absent (command : RsUnit F → Result F) (hh : s.halted = false) (hu : s.rs[u]? = none) :
    onRs u s command = .next s.answerIllegal := by
  simp [onRs, hh, hu]

theorem onIn_absent (command : InUnit F → Result F) (hh : s.halted = false) (hu : s.ins[u]? = none) :
    onIn u s command = .next s.answerIllegal := by
  simp [onIn, hh, hu]

theorem illegalFrame_of_running (hh : s.halted = false) : illegalFrame s = s.answerIllegal := by
  simp [illegalFrame, hh]

end absent

/-- Every command of the class `RS` makes the checks of R90 on its unit first. -/
theorem exec_eq_onRs {i : Instr} (h : resamplerCommand i = true) (s : State) :
    ∃ command, exec i s = onRs (unitOf i) s command := by
  cases i with
  | rsConfig | rsInput | rsOutput | rsReset => exact ⟨_, rfl⟩
  | inConfig | inSetfc | inSetv | inSolve => cases h

/-- Every command of the class `IN` makes the checks of R90 on its unit first. -/
theorem exec_eq_onIn {i : Instr} (h : resamplerCommand i = false) (s : State) :
    ∃ command, exec i s = onIn (unitOf i) s command := by
  cases i with
  | rsConfig | rsInput | rsOutput | rsReset => cases h
  | inConfig | inSetfc | inSetv | inSolve => exact ⟨_, rfl⟩

/-- A command to a unit that a running core does not have is answered E_ILLEGAL (R86). -/
theorem exec_of_absent {i : Instr} {s : State} (hh : s.halted = false) (h : ¬ unitPresent i s) :
    exec i s = .next s.answerIllegal := by
  cases hc : resamplerCommand i with
  | true =>
    obtain ⟨command, hexec⟩ := exec_eq_onRs hc s
    rw [hexec]
    exact onRs_absent command hh (by simpa [unitPresent, hc] using h)
  | false =>
    obtain ⟨command, hexec⟩ := exec_eq_onIn hc s
    rw [hexec]
    exact onIn_absent command hh (by simpa [unitPresent, hc] using h)

/-! ### The table select -/

theorem checkCalibration_of_select {F : Type} (P : Params F) {ntt k : Nat} (vdc vth nkp vmin n16 : F)
    (h : ntt ≤ k) : checkCalibration P ntt k vdc vth nkp vmin n16 = .error .eIllegal := by
  rw [checkCalibration, if_pos h]

/-- A table select out of range is E_ILLEGAL on the unit (R181). -/
theorem exec_inConfig_of_select {s : State} {n k : Nat} {unit : InUnit F} (vdc vth nkp vmin n16 : F)
    (hh : s.halted = false) (hn : s.ins[n]? = some unit) (hk : s.tt.length ≤ k) :
    exec (.inConfig n k vdc vth nkp vmin n16) s = .next (s.inError n unit .eIllegal) := by
  rw [exec, execInConfig, inConfigWith, onIn_unit _ hh hn, checkCalibration_of_select _ _ _ _ _ _ hk]

/-- Settles O9: one lemma for each of R86's three answers, and the map for the last clause. -/
theorem illegalFramesAnswered : Obligations.IllegalFramesAnswered := by
  refine ⟨fun s h rest hh he hout => ?_, fun s i hh habsent => exec_of_absent hh habsent,
    fun s n k vdc vth nkp vmin n16 unit hh hn hk => exec_inConfig_of_select vdc vth nkp vmin n16 hh hn hk,
    fun h ws hlen => ⟨(exists_decode_iff hlen).trans (exists_rowOf_iff h), decode_of_outOfMap hlen⟩⟩
  have hrow := (rowOf_eq_none_iff h).mpr hout
  rw [step_of_illegalHeader he (decode_eq_illegal.mpr ⟨hrow, rfl⟩),
    illegalFrame_of_running (s := s.takeEvent) hh, State.Over.takeEvent, he]
  rfl

/-! ## The fields of a response (R88) -/

/-! ### The codes and the zero bits of a response -/

/-- Every code is one of R211's eight. -/
theorem codeBits_le (c : RspCode) : (codeBits c).toNat ≤ 7 := by
  cases c <;> decide

theorem codeBits_eq_zero {c : RspCode} : codeBits c = 0 ↔ c = .ok :=
  ⟨fun h => codeBits_injective (c' := .ok) h, fun h => by rw [h]; rfl⟩

section fields
variable (c : RspCode) (st fr : BitVec 16) (v : BitVec 64)

/-- Bits 3:0 of a response are the code (R88). -/
theorem responseOf_code : (responseOf c st fr v).extractLsb' 0 4 = codeBits c :=
  rspCode_responseOf c st fr v

/-- Bits 127:64 of a response are the value (R88). -/
theorem responseOf_value : (responseOf c st fr v).extractLsb' 64 64 = v :=
  rspValue_responseOf c st fr v

/-- Bits 15:4 of a response are 0 (R88). -/
theorem responseOf_zero_low : (responseOf c st fr v).extractLsb' 4 12 = 0 := by
  ext i hi
  simpa [hi] using responseOf_zero_bits c st fr v (4 + i) (by omega)

/-- Bits 63:48 of a response are 0 (R88). -/
theorem responseOf_zero_high : (responseOf c st fr v).extractLsb' 48 16 = 0 := by
  ext i hi
  simpa [hi] using responseOf_zero_bits c st fr v (48 + i) (by omega)

/-- Bits 31:16 of a response are the status (R88). -/
theorem responseOf_status_bits {i : Nat} (hi : 16 ≤ i ∧ i < 32) :
    (responseOf c st fr v).getLsbD i = st.getLsbD (i - 16) := by
  have hfield := congrArg (BitVec.getLsbD · (i - 16)) (rspStatus_responseOf c st fr v)
  simpa [rspStatus, show i - 16 < 16 by omega, show 16 + (i - 16) = i by omega] using hfield

/-- Bits 127:64 of a response are the value (R88). -/
theorem responseOf_value_bits {i : Nat} (hi : 64 ≤ i ∧ i < 128) :
    (responseOf c st fr v).getLsbD i = v.getLsbD (i - 64) := by
  have hfield := congrArg (BitVec.getLsbD · (i - 64)) (rspValue_responseOf c st fr v)
  simpa [rspValue, show i - 64 < 64 by omega, show 64 + (i - 64) = i by omega] using hfield

/-- With status 0, bits 31:4 of a response are 0. -/
theorem responseOf_zero_status : (responseOf c 0 fr v).extractLsb' 4 28 = 0 := by
  ext i hi
  rw [BitVec.getElem_extractLsb']
  by_cases hlow : 4 + i < 16
  · rw [responseOf_zero_bits c 0 fr v (4 + i) (by omega)]
    simp
  · rw [responseOf_status_bits c 0 fr v (by omega)]
    simp

/-- With value 0, bits 127:48 of a response are 0. -/
theorem responseOf_zero_value : (responseOf c st fr 0).extractLsb' 48 80 = 0 := by
  ext i hi
  rw [BitVec.getElem_extractLsb']
  by_cases hlow : 48 + i < 64
  · rw [responseOf_zero_bits c st fr 0 (48 + i) (by omega)]
    simp
  · rw [responseOf_value_bits c st fr 0 (by omega)]
    simp

end fields

/-! ### The result values of R84 -/

/-- The result value of a command, read from the state after it (R84): the one of the addressed unit's registers
that the command returns. -/
def commandResult (i : Instr) (t : State) : Option (BitVec 64) :=
  match i with
  | .rsConfig u _ _ _ => t.rs[u]?.map fun unit => BitVec.ofInt 32 unit.res ++ BitVec.ofInt 32 unit.len
  | .rsInput _ _ => some 0
  | .rsOutput u => t.rs[u]?.map (·.out)
  | .rsReset _ => some 0
  | .inConfig n _ _ _ _ _ _ => t.ins[n]?.map fun unit => unit.nvgt.setWidth 64
  | .inSetfc n _ => t.ins[n]?.map fun unit => unit.ndac.setWidth 64
  | .inSetv n _ => t.ins[n]?.map fun unit => unit.nvgt.setWidth 64
  | .inSolve n _ => t.ins[n]?.map fun unit => BitVec.ofInt 64 (unit.vx.toInt - unit.vc.toInt / 2 ^ 14)

/-- VALUE of `RS.CONFIG` is RES above L (R84). -/
theorem configValue_eq_append (d : Design F) :
    configValue d = BitVec.ofInt 32 d.res ++ BitVec.ofInt 32 d.len := by
  ext i hi
  simp [configValue, fieldAt]
  grind

theorem fitsS32_iff {v : Int} : fitsS32 v = true ↔ -2 ^ 31 ≤ v ∧ v ≤ 2 ^ 31 - 1 := by
  simp only [fitsS32, Bool.and_eq_true, decide_eq_true_eq]

/-- A register of 32 bits holds the integer it was given, where that fits (R12). -/
theorem toInt_ofInt_of_fitsS32 {v : Int} (h : fitsS32 v = true) : (BitVec.ofInt 32 v).toInt = v := by
  rw [fitsS32_iff] at h
  rw [BitVec.toInt_ofInt, Int.bmod_eq_of_le] <;> omega

/-- The sign extension of an s32 is the 64-bit pattern of its value. -/
theorem sextValue_eq_ofInt {v : Int} (h : fitsS32 v = true) : sextValue v = BitVec.ofInt 64 v := by
  rw [sextValue_of_fits h, BitVec.signExtend, toInt_ofInt_of_fitsS32 h]

/-- A u16 fits an s32. -/
theorem fitsS32_u16 (x : U16) : fitsS32 x.toNat = true := by
  have := x.isLt
  rw [fitsS32_iff]
  omega

/-- The result of a step whose index is in the table fits an s32 (R197). -/
theorem fitsS32_solveResult (x : U16) {vc : Int}
    (hidx : 0 ≤ chargeIndex params vc ∧ chargeIndex params vc ≤ 65535) :
    fitsS32 (solveResult params x.toNat vc) = true := by
  have := x.isLt
  simp only [chargeIndex, floorShift, params_shIdx, params_idxBias] at hidx
  simp only [fitsS32_iff, solveResult, floorShift, params_shOut]
  omega

/-! ### The codes a command is refused with -/

theorem gateQuant_error_ne_ok {N : NumOps F} {vdc vth vmin n16 m : F} {c : RspCode}
    (h : gateQuant N vdc vth vmin n16 m = .error c) : c ≠ .ok := by
  rw [gateQuant] at h
  split at h
  · split at h <;> cases h
    decide
  · cases h
    decide

theorem driveQuant_error_ne_ok {P : Params F} {nkp wl : F} {c : RspCode}
    (h : driveQuant P nkp wl = .error c) : c ≠ .ok := by
  rw [driveQuant] at h
  split at h
  · split at h <;> cases h
    decide
  · cases h
    decide

theorem checkCalibration_error_ne_ok {P : Params F} {ntt k : Nat} {vdc vth nkp vmin n16 : F} {c : RspCode}
    (h : checkCalibration P ntt k vdc vth nkp vmin n16 = .error c) : c ≠ .ok := by
  rw [checkCalibration] at h
  split at h
  · cases h
    decide
  · split at h
    · cases h
      decide
    · exact gateQuant_error_ne_ok h

theorem designFilter_error_ne_ok {P : Params F} {fclk fs fpass : F} {c : RspCode}
    (h : designFilter P fclk fs fpass = .error c) : c ≠ .ok := by
  rcases designFilter_eq_error h with rfl | rfl | rfl <;> decide

/-! ### Every way a command ends answers as R88 says -/

/-- The response that stands in `t` is one to command `i`: it carries the addressed unit's status and `FAULTREG`
as they are in `t`, and the command's result where its code is OK, else 0 (R88). -/
def Answers (i : Instr) (t : State) : Prop :=
  ∃ code value, t.rsp = some (responseOf code (addressedStatus i t) t.faultReg value) ∧
    (code ≠ .ok → value = 0) ∧ (code = .ok → commandResult i t = some value)

section endings
variable {i : Instr} {s t : State}

/-- The status of a Resampler unit that was just written. -/
theorem addressedStatus_of_rs {unit : RsUnit F} (hi : resamplerCommand i = true)
    (hu : t.rs[unitOf i]? = some unit) : addressedStatus i t = rsStatus unit := by
  simp [addressedStatus, hi, State.Over.rsStatusAt, hu]

theorem addressedStatus_of_in {unit : InUnit F} (hi : resamplerCommand i = false)
    (hu : t.ins[unitOf i]? = some unit) : addressedStatus i t = inStatus unit := by
  simp [addressedStatus, hi, State.Over.inStatusAt, hu]

/-- A unit the core does not have has the status 0 (R88). -/
theorem addressedStatus_of_rs_none (hi : resamplerCommand i = true) (hu : s.rs[unitOf i]? = none) :
    addressedStatus i s = 0 := by
  simp [addressedStatus, hi, State.Over.rsStatusAt, hu]

theorem addressedStatus_of_in_none (hi : resamplerCommand i = false) (hu : s.ins[unitOf i]? = none) :
    addressedStatus i s = 0 := by
  simp [addressedStatus, hi, State.Over.inStatusAt, hu]

/-- The status depends on the units alone. -/
theorem addressedStatus_congr (hrs : t.rs = s.rs) (hins : t.ins = s.ins) :
    addressedStatus i t = addressedStatus i s := by
  simp only [addressedStatus, State.Over.rsStatusAt, State.Over.inStatusAt, hrs, hins]

/-- A refusal that writes no unit answers with the status the unit has (R86, R220, R221). -/
theorem answers_of_refused {code : RspCode} (hcode : code ≠ .ok) (hrs : t.rs = s.rs) (hins : t.ins = s.ins)
    (hrsp : t.rsp = some (responseOf code (addressedStatus i s) t.faultReg 0)) : Answers i t :=
  ⟨code, 0, by rw [hrsp, addressedStatus_congr hrs hins], fun _ => rfl, fun h => absurd h hcode⟩

theorem answers_answerHalted : Answers i (s.answerHalted (addressedStatus i s)) :=
  answers_of_refused (s := s) (code := .eHalted) (by decide) rfl rfl rfl

theorem answers_answerIllegal (h : addressedStatus i s = 0) : Answers i s.answerIllegal :=
  answers_of_refused (s := s) (code := .eIllegal) (by decide) rfl rfl (by rw [h]; rfl)

section rs
variable {unit : RsUnit F}

/-- A command that writes a Resampler unit answers with that unit's new status (R210). -/
theorem answers_rsFinish {unit' : RsUnit F} {code : RspCode} {value : BitVec 64}
    (hi : resamplerCommand i = true) (hu : s.rs[unitOf i]? = some unit)
    (hvalue : code = .ok → ∀ t : State, t.rs[unitOf i]? = some unit' → commandResult i t = some value) :
    Answers i (s.rsFinish (unitOf i) unit' code value) := by
  have hset : (s.rsFinish (unitOf i) unit' code value).rs[unitOf i]? = some unit' := by
    simp [List.getElem?_set_self', hu]
  refine ⟨code, if code = .ok then value else 0, by simp [addressedStatus_of_rs hi hset], fun hne => if_neg hne,
    fun hok => ?_⟩
  rw [if_pos hok, hvalue hok _ hset]

theorem answers_rsError {code : RspCode} (hi : resamplerCommand i = true) (hu : s.rs[unitOf i]? = some unit)
    (hcode : code ≠ .ok) : Answers i (s.rsError (unitOf i) unit code) :=
  answers_rsFinish hi hu fun hok => absurd hok hcode

theorem answers_rsOk {unit' : RsUnit F} {value : BitVec 64} (hi : resamplerCommand i = true)
    (hu : s.rs[unitOf i]? = some unit)
    (hvalue : ∀ t : State, t.rs[unitOf i]? = some { unit' with err := codeBits .ok } →
      commandResult i t = some value) : Answers i (s.rsOk (unitOf i) unit' value) :=
  answers_rsFinish hi hu fun _ => hvalue

end rs

section ins
variable {unit : InUnit F}

/-- A command that writes an Integrator unit answers with that unit's new status (R210). -/
theorem answers_inFinish {unit' : InUnit F} {code : RspCode} {value : BitVec 64}
    (hi : resamplerCommand i = false) (hu : s.ins[unitOf i]? = some unit)
    (hvalue : code = .ok → ∀ t : State, t.ins[unitOf i]? = some unit' → commandResult i t = some value) :
    Answers i (s.inFinish (unitOf i) unit' code value) := by
  have hset : (s.inFinish (unitOf i) unit' code value).ins[unitOf i]? = some unit' := by
    simp [List.getElem?_set_self', hu]
  refine ⟨code, if code = .ok then value else 0, by simp [addressedStatus_of_in hi hset], fun hne => if_neg hne,
    fun hok => ?_⟩
  rw [if_pos hok, hvalue hok _ hset]

theorem answers_inError {code : RspCode} (hi : resamplerCommand i = false) (hu : s.ins[unitOf i]? = some unit)
    (hcode : code ≠ .ok) : Answers i (s.inError (unitOf i) unit code) :=
  answers_inFinish hi hu fun hok => absurd hok hcode

theorem answers_inOk {unit' : InUnit F} {value : BitVec 64} (hi : resamplerCommand i = false)
    (hu : s.ins[unitOf i]? = some unit)
    (hvalue : ∀ t : State, t.ins[unitOf i]? = some { unit' with err := codeBits .ok } →
      commandResult i t = some value) : Answers i (s.inOk (unitOf i) unit' value) :=
  answers_inFinish hi hu fun _ => hvalue

/-- A fault answers with the unit's status, which it does not write, and the new `FAULTREG` (R220). -/
theorem answers_raise {c : FaultCode} (hi : resamplerCommand i = false) : Answers i (s.raise (unitOf i) c) :=
  answers_of_refused (s := s) (code := .eHalted) (by decide) rfl rfl (by simp [addressedStatus, hi])

end ins

end endings

/-! ### Each command answers -/

section commands
variable {s t : State}

theorem rsConfig_answers {u : Nat} {fclk fs fpass : Slot} (h : exec (.rsConfig u fclk fs fpass) s = .next t) :
    Answers (.rsConfig u fclk fs fpass) t := by
  rcases rsConfigWith_next h with ⟨-, rfl⟩ | ⟨-, hu, rfl⟩ | ⟨unit, c, -, hu, hd, rfl⟩ | ⟨unit, d, -, hu, -, rfl⟩
  · exact answers_answerHalted
  · exact answers_answerIllegal (addressedStatus_of_rs_none rfl hu)
  · exact answers_rsError rfl hu (designFilter_error_ne_ok hd)
  · refine answers_rsOk rfl hu fun t (ht : t.rs[u]? = _) => ?_
    simp [commandResult, ht, configValue_eq_append, constructedRs]

theorem rsInput_answers {u : Nat} {x : Slot} (h : exec (.rsInput u x) s = .next t) :
    Answers (.rsInput u x) t := by
  rcases rsInputWith_next h with ⟨-, rfl⟩ | ⟨-, hu, rfl⟩ | ⟨unit, -, hu, -, rfl⟩ | ⟨unit, unit', -, hu, -, -, rfl⟩
  · exact answers_answerHalted
  · exact answers_answerIllegal (addressedStatus_of_rs_none rfl hu)
  · exact answers_rsError rfl hu (by decide)
  · exact answers_rsOk rfl hu fun _ _ => rfl

theorem rsOutput_answers {u : Nat} (h : exec (.rsOutput u) s = .next t) : Answers (.rsOutput u) t := by
  rcases rsOutputWith_next h with ⟨-, rfl⟩ | ⟨-, hu, rfl⟩ | ⟨unit, -, hu, -, rfl⟩ | ⟨unit, -, hu, -, rfl⟩
  · exact answers_answerHalted
  · exact answers_answerIllegal (addressedStatus_of_rs_none rfl hu)
  · exact answers_rsError rfl hu (by decide)
  · refine answers_rsOk rfl hu fun t (ht : t.rs[u]? = _) => ?_
    simp [commandResult, ht]

theorem rsReset_answers {u : Nat} (h : exec (.rsReset u) s = .next t) : Answers (.rsReset u) t := by
  rcases rsResetWith_next h with ⟨-, rfl⟩ | ⟨-, hu, rfl⟩ | ⟨unit, -, hu, -, rfl⟩ | ⟨unit, -, hu, -, rfl⟩
  · exact answers_answerHalted
  · exact answers_answerIllegal (addressedStatus_of_rs_none rfl hu)
  · exact answers_rsError rfl hu (by decide)
  · exact answers_rsOk rfl hu fun _ _ => rfl

theorem inConfig_answers {n k : Nat} {vdc vth nkp vmin n16 : Slot}
    (h : exec (.inConfig n k vdc vth nkp vmin n16) s = .next t) :
    Answers (.inConfig n k vdc vth nkp vmin n16) t := by
  rcases inConfigWith_next h with ⟨-, rfl⟩ | ⟨-, hn, rfl⟩ | ⟨unit, c, -, hn, hq, rfl⟩ | ⟨unit, q, -, hn, -, rfl⟩
  · exact answers_answerHalted
  · exact answers_answerIllegal (addressedStatus_of_in_none rfl hn)
  · exact answers_inError rfl hn (checkCalibration_error_ne_ok hq)
  · refine answers_inOk rfl hn fun t (ht : t.ins[n]? = _) => ?_
    simp [commandResult, ht, constructedIn, zextValue]

theorem inSetfc_answers {n : Nat} {wl : Slot} (h : exec (.inSetfc n wl) s = .next t) :
    Answers (.inSetfc n wl) t := by
  rcases inSetfcWith_next h with ⟨-, rfl⟩ | ⟨-, hn, rfl⟩ | ⟨unit, -, hn, -, rfl⟩ |
    ⟨unit, c, -, hn, -, hq, rfl⟩ | ⟨unit, q, -, hn, -, -, rfl⟩
  · exact answers_answerHalted
  · exact answers_answerIllegal (addressedStatus_of_in_none rfl hn)
  · exact answers_inError rfl hn (by decide)
  · exact answers_inError rfl hn (driveQuant_error_ne_ok hq)
  · refine answers_inOk rfl hn fun t (ht : t.ins[n]? = _) => ?_
    simp [commandResult, ht, zextValue]

theorem inSetv_answers {n : Nat} {m : Slot} (h : exec (.inSetv n m) s = .next t) : Answers (.inSetv n m) t := by
  rcases inSetvWith_next h with ⟨-, rfl⟩ | ⟨-, hn, rfl⟩ | ⟨unit, -, hn, -, rfl⟩ |
    ⟨unit, c, -, hn, -, hq, rfl⟩ | ⟨unit, q, -, hn, -, -, rfl⟩
  · exact answers_answerHalted
  · exact answers_answerIllegal (addressedStatus_of_in_none rfl hn)
  · exact answers_inError rfl hn (by decide)
  · exact answers_inError rfl hn (gateQuant_error_ne_ok hq)
  · refine answers_inOk rfl hn fun t (ht : t.ins[n]? = _) => ?_
    simp [commandResult, ht, zextValue]

theorem inSolve_answers {n : Nat} {vi : Int} (h : exec (.inSolve n vi) s = .next t) :
    Answers (.inSolve n vi) t := by
  rcases inSolveWith_next h with ⟨-, rfl⟩ | ⟨-, hn, rfl⟩ | ⟨unit, -, hn, -, rfl⟩ |
    ⟨unit, c, -, -, -, -, -, rfl⟩ | ⟨unit, table, -, hn, -, -, hf, -, rfl⟩
  · exact answers_answerHalted
  · exact answers_answerIllegal (addressedStatus_of_in_none rfl hn)
  · exact answers_inError rfl hn (by decide)
  · exact answers_raise rfl
  · obtain ⟨-, -, -, hvc, hidx⟩ := solveFault_eq_none hf
    refine answers_inOk rfl hn fun t (ht : t.ins[n]? = _) => ?_
    rw [sextValue_eq_ofInt (fitsS32_solveResult _ hidx)]
    simp only [commandResult, ht, Option.map_some, toInt_ofInt_of_fitsS32 hvc,
      toInt_ofInt_of_fitsS32 (fitsS32_u16 _), solveResult, floorShift, params_shOut]

/-- Every command that ends in a next state answers there (R88). -/
theorem exec_answers {i : Instr} (h : exec i s = .next t) : Answers i t := by
  cases i with
  | rsConfig => exact rsConfig_answers h
  | rsInput => exact rsInput_answers h
  | rsOutput => exact rsOutput_answers h
  | rsReset => exact rsReset_answers h
  | inConfig => exact inConfig_answers h
  | inSetfc => exact inSetfc_answers h
  | inSetv => exact inSetv_answers h
  | inSolve => exact inSolve_answers h

end commands

/-! ### An illegal header -/

/-- An illegal header is answered with no status, E_HALTED where the core is halted and else E_ILLEGAL (R86). -/
theorem illegalFrame_rsp (s : State) :
    ∃ code, (code = .eIllegal ∨ code = .eHalted) ∧
      (illegalFrame s).rsp = some (responseOf code 0 (illegalFrame s).faultReg 0) := by
  cases hh : s.halted with
  | true => exact ⟨.eHalted, .inr rfl, by simp [illegalFrame, hh]⟩
  | false => exact ⟨.eIllegal, .inl rfl, by simp [illegalFrame, hh]⟩

/-- Settles O16: each clause is a field of the response that `Answers` names, or a result of `commandResult`. -/
theorem responsesCarryStatusAndResult : Obligations.ResponsesCarryStatusAndResult := by
  refine ⟨fun s t i h => ?_, fun s t f rest he hd h => ?_⟩
  · obtain ⟨code, value, hrsp, hrefused, hresult⟩ := exec_answers h
    refine ⟨_, hrsp, (responseOf_code ..).symm ▸ codeBits_le code, responseOf_zero_low ..,
      rspStatus_responseOf .., rspFaultReg_responseOf .., responseOf_zero_high .., ?_, ?_⟩
    · intro hne
      rw [responseOf_code, ne_eq, codeBits_eq_zero] at hne
      rw [responseOf_value, hrefused hne]
    · intro hok
      rw [responseOf_code, codeBits_eq_zero] at hok
      have hres := hresult hok
      rw [responseOf_value]
      cases i with
      | rsInput | rsReset => exact (Option.some.inj hres).symm
      | rsConfig | rsOutput | inConfig | inSetfc | inSetv | inSolve =>
        obtain ⟨unit, hunit, hv⟩ := Option.map_eq_some_iff.mp hres
        exact ⟨unit, hunit, hv.symm⟩
  · rw [step_of_illegalHeader he hd] at h
    obtain rfl := Host.Outcome.next.inj h
    obtain ⟨code, hcode, hrsp⟩ := illegalFrame_rsp s.takeEvent
    refine ⟨_, hrsp, ?_, responseOf_zero_status .., rspFaultReg_responseOf .., responseOf_zero_value ..⟩
    rw [responseOf_code]
    rcases hcode with rfl | rfl
    · exact .inl rfl
    · exact .inr rfl

end Sys2Proof.Machine
end

