-- ==== Sys2Proof/Proofs/Quantizer.lean ====
section
/-!
PROOF. The quantizer (spec/40_numeric_primitives.md R121): the half-open interval of the values that round to
an integer with ties upward, and the values whose rounding is no `u16`.
-/

namespace Sys2Proof.Machine

/-! ### To nearest, ties upward -/

theorem le_floor_add_half_iff {t : ℚ} {z : ℤ} : z ≤ (t + 1 / 2).floor ↔ (z : ℚ) - 1 / 2 ≤ t := by
  rw [Rat.le_floor_iff, sub_le_iff_le_add]

theorem floor_add_half_lt_iff {t : ℚ} {z : ℤ} : (t + 1 / 2).floor < z ↔ t < (z : ℚ) - 1 / 2 := by
  rw [← not_le, le_floor_add_half_iff, not_le]

/-- The values that R121's rounding takes to `z` reach from half a unit below it, a tie, up to the next tie. -/
theorem floor_add_half_eq_iff {t : ℚ} {z : ℤ} :
    (t + 1 / 2).floor = z ↔ (z : ℚ) - 1 / 2 ≤ t ∧ t < (z : ℚ) + 1 / 2 := by
  have hbounds : (t + 1 / 2).floor = z ↔ z ≤ (t + 1 / 2).floor ∧ (t + 1 / 2).floor < z + 1 := by omega
  have hnext : ((z + 1 : ℤ) : ℚ) - 1 / 2 = (z : ℚ) + 1 / 2 := by push_cast; ring
  rw [hbounds, le_floor_add_half_iff, floor_add_half_lt_iff, hnext]

/-! ### What the quantizer rejects -/

section quantizer

variable {F : Type} {N : NumOps F} {t : F}

theorem quant16_of_not_isFinite (hf : N.isFinite t = false) : quant16 N t = none := by
  simp [quant16, hf]

/-- A finite value is rejected exactly when its rounding is below 0 or above 65535 (R121). -/
theorem quant16_eq_none_iff (hf : N.isFinite t = true) :
    quant16 N t = none ↔ (N.toRat t + 1 / 2).floor < 0 ∨ 65536 ≤ (N.toRat t + 1 / 2).floor := by
  rw [quant16, if_pos hf]
  dsimp only
  split
  next hq => simp only [reduceCtorEq, false_iff]; omega
  next hq => simp only [true_iff]; omega

end quantizer

/-- Settles O33: the interval of each `u16`, and the two ends of the range for a rejection. -/
theorem quantizerRoundsToNearest : Obligations.QuantizerRoundsToNearest := by
  refine fun t => ⟨fun hf => quant16_of_not_isFinite hf, fun hf => ⟨fun q => ?_, ?_⟩⟩
  · have hsome : quant16 Binary64.ops t = some q ↔ (Binary64.toRat t + 1 / 2).floor = (q.toNat : ℤ) :=
      quant16_eq_some.trans (and_iff_right hf)
    rw [hsome, floor_add_half_eq_iff, Int.cast_natCast]
  · rw [quant16_eq_none_iff hf, floor_add_half_lt_iff, le_floor_add_half_iff, Binary64.ops_toRat]
    norm_num

end Sys2Proof.Machine
end

