-- ==== Sys2Proof/Proofs/ResamplerConfig.lean ====
section
/-!
PROOF. Resampler construction (spec/41_resampler_config.md): operands that pass every check of R130's pseudocode
have a design, and the construction writes every register of the unit from it (R148).
-/

namespace Sys2Proof.Machine

/-! ### A ratio from one on (R133) -/

namespace Binary64

theorem lt_eq_false_of_le {a b : F} (h : le a b = true) : lt b a = false := by
  simp only [le, Bool.and_eq_true, decide_eq_true_eq] at h
  simp [lt, h.2]

/-- The sign bit of a value from one on is clear. -/
theorem sign_of_one_le {w : F} (h : le one w = true) : sign w = false := by
  have hrank : rank one ≤ rank w := by
    simp only [le, Bool.and_eq_true, decide_eq_true_eq] at h
    exact h.2
  have hone : 0 < rank one := by decide
  cases hs : sign w with
  | false => rfl
  | true =>
    rw [rank.eq_def w, if_pos hs] at hrank
    omega

theorem toRat_nonneg_of_sign {w : F} (hf : isFinite w = true) (hs : sign w = false) : 0 ≤ toRat w := by
  have hunits : 0 ≤ units w := by simp [units, hs]
  rw [toRat_of_isFinite hf, Rat.mkRat_eq_div]
  positivity

end Binary64

/-! ### Operands that pass every check have a design -/

section design
variable {F : Type} {P : Params F}

/-- The converse of `ratioFixed_eq_some`. -/
theorem ratioFixed_of_accepted {r : F} (hf : P.num.isFinite r = true) (hone : P.num.lt r P.num.one = false)
    (hcps : (P.num.toRat r * 1024).floor ≤ accLimit P - 1024) :
    ratioFixed P r = some (P.num.toRat r * 1024).floor := by
  simp [ratioFixed, hf, hone, not_lt.mpr hcps]

/-- The converse of `filterLength_eq_some`, the order, the scaled order and the length each under a name. -/
theorem filterLength_of_accepted {r dw xo p : F} {len : Int} (hxo : realOrder P dw = xo)
    (hp : P.num.mul (P.num.ofInt (roundOrder P xo)) r = p) (hlen : oddLength P.num p = len)
    (hxoFinite : P.num.isFinite xo = true) (hpFinite : P.num.isFinite p = true) (hshort : len < P.ringHalf) :
    filterLength P r dw = some len := by
  subst hxo hp hlen
  simp [filterLength, hxoFinite, hpFinite, not_le.mpr hshort]

/-- The converse of `designFilter_eq_ok`. -/
theorem designFilter_of_accepted {fclk fs fpass r : F} {cps len res : Int}
    (hargs : checkArgs P.num fclk fs fpass = true) (hr : clockRatio P.num fclk fs = r)
    (hcps : ratioFixed P r = some cps) (hlen : filterLength P r (transition P.num fs fpass) = some len)
    (hres : phaseResolution P r = res) : designFilter P fclk fs fpass = .ok ⟨len, res, r, cps⟩ := by
  subst hr hres
  simp [designFilter, hargs, hcps, hlen]

end design

/-- Step 4a at the values of R9 (R137). -/
theorem realOrder_params (dw : F) :
    realOrder params dw =
      Binary64.div (Binary64.sub (Binary64.ofLit ⟨9632959861247399, 14⟩) (Binary64.ofLit ⟨795, 2⟩))
        (Binary64.mul (Binary64.ofLit ⟨2285, 3⟩) dw) := by
  rw [realOrder, attenuation]
  simp only [params_num, params_aDb, params_ordA0, params_ordK, Binary64.ops_div, Binary64.ops_sub,
    Binary64.ops_mul, Binary64.ops_ofLit]

/-- Step 4b at the values of R9: to the nearest even integer, ties upward (R138). -/
theorem roundOrder_params (xo : F) : roundOrder params xo = 2 * (Binary64.toRat xo / 2 + 1 / 2).floor := by
  simp only [roundOrder, params_orderRound, params_num, Binary64.ops_toRat]

/-- Step 5 at the values of R9 (R141). -/
theorem phaseResolution_params (r : F) :
    phaseResolution params r = (Binary64.toRat (Binary64.div (Binary64.sqrt
      (Binary64.mul (Binary64.ofLit ⟨1234, 3⟩) (Binary64.ofInt 65536))) r)).ceil := by
  rw [phaseResolution, params_num, params_resErrK, Binary64.ops_toRat, Binary64.ops_div, Binary64.ops_sqrt,
    Binary64.ops_mul, Binary64.ops_ofLit, Binary64.ops_ofInt]

/-! ### What a design is written to (R148) -/

/-- The status of a unit just constructed: configured, not ready, no error (R37, R148). -/
theorem rsStatus_constructedRs (d : Design F) : rsStatus (constructedRs params d) = 0x0001#16 := by
  have hview : statusView (codeBits .ok) false true = 0x0001#16 := by decide
  rw [← hview, rsStatus, constructedRs]

/-- The history of a unit just constructed reads zero everywhere (R148). -/
theorem constructedRs_hist_read (d : Design F) (k : Nat) : (constructedRs params d).hist.read k = 0 := by
  rw [constructedRs, silentHistory_params, Memory.read_nil, default_bitVec]
  rfl

/-- The ERR that success writes is the one a construction leaves (R148, R216). -/
theorem rsOk_constructedRs (s : State) (u : Nat) (d : Design F) (value : BitVec 64) :
    s.rsOk u (constructedRs params d) value = s.rsFinish u (constructedRs params d) .ok value := by
  rw [State.Over.rsOk, constructedRs]

/-- Where the operands have a design, `RS.CONFIG` writes it to the unit, the cache and the response, and nothing
else (R130, R148). -/
theorem exec_rsConfig_of_design {s : State} {u : Nat} {fclk fs fpass : F} {unit : RsUnit F} {d : Design F}
    (hh : s.halted = false) (hu : s.rs[u]? = some unit) (hd : designFilter params fclk fs fpass = .ok d) :
    exec (.rsConfig u fclk fs fpass) s = .next { s with
      cache := lookupOrBuild params s.cache (designKey params d)
      rs := s.rs.set u (constructedRs params d)
      rsp := some (responseOf .ok 0x0001#16 s.faultReg (BitVec.ofInt 32 d.res ++ BitVec.ofInt 32 d.len)) } := by
  have hexec : exec (.rsConfig u fclk fs fpass) s =
      .next ({ s with cache := lookupOrBuild params s.cache (designKey params d) }.rsOk u
        (constructedRs params d) (configValue d)) := by
    refine (onRs_unit _ hh hu).trans ?_
    simp [hd]
  rw [hexec, rsOk_constructedRs, State.Over.rsFinish, State.Over.respond, if_pos rfl, rsStatus_constructedRs,
    configValue_eq_append]

/-- Settles O34: the operands have a design, whose registers are the obligation's; `CPS` fits its register, since
a ratio from one on is not negative. -/
theorem rsConfigConstructs : Obligations.RsConfigConstructs := by
  intro s u fclk fs fpass unit hh hu two a r cps dw xo order p taps len res hops hhalf hexact hr hone hcps hxo hp
    hlen
  have hargs : checkArgs params.num fclk fs fpass = true := by
    simp only [List.forall_mem_cons] at hops
    obtain ⟨⟨hfclk, hfclk0⟩, ⟨hfs, hfs0⟩, ⟨hfpass, hfpass0⟩, -⟩ := hops
    exact checkArgs_eq_true.mpr ⟨⟨hfclk, hfs, hfpass⟩, ⟨hfclk0, hfs0, hfpass0⟩, hhalf, hexact⟩
  have hratio : ratioFixed params r = some cps :=
    ratioFixed_of_accepted hr (Binary64.lt_eq_false_of_le hone) hcps
  have hxoEq : realOrder params (transition params.num fs fpass) = xo := realOrder_params dw
  have hpEq : params.num.mul (params.num.ofInt (roundOrder params xo)) r = p := by
    rw [roundOrder_params]
    rfl
  have hlength : filterLength params r (transition params.num fs fpass) = some len :=
    filterLength_of_accepted hxoEq hpEq rfl hxo hp hlen
  have hdesign : designFilter params fclk fs fpass = .ok ⟨len, res, r, cps⟩ :=
    designFilter_of_accepted hargs rfl hratio hlength (phaseResolution_params r)
  have hcps0 : 0 ≤ cps := by
    have hr0 := Binary64.toRat_nonneg_of_sign hr (Binary64.sign_of_one_le hone)
    exact Rat.le_floor_iff.mpr (by push_cast; positivity)
  have hfits : fitsS32 cps = true := fitsS32_iff.mpr ⟨by omega, by omega⟩
  exact ⟨constructedRs params ⟨len, res, r, cps⟩, exec_rsConfig_of_design hh hu hdesign, rfl, rfl, rfl,
    toInt_ofInt_of_fitsS32 hfits, constructedRs_hist_read _, rfl, rfl, rfl, rfl, rfl, rfl⟩

end Sys2Proof.Machine
end

