-- ==== Sys2Proof/Proofs/ResamplerStream.lean ====
section
/-!
PROOF. `RS.OUTPUT` and `RS.RESET` (spec/42_resampler_stream.md R172, R174): both refuse an unconfigured unit in
the same way, and else write to the addressed unit and the response only.
-/

namespace Sys2Proof.Machine

section outcomes
variable {F : Type} (s : State.Over F) (u : Nat) (unit : RsUnit F)

/-- All that success on a Resampler unit writes (R210, R216). -/
theorem rsOk_eq (value : BitVec 64) :
    s.rsOk u unit value = { s with
      rs := s.rs.set u { unit with err := 0 }
      rsp := some (responseOf .ok (rsStatus { unit with err := 0 }) s.faultReg value) } := rfl

/-- All that E_UNCONFIG on a Resampler unit writes (R214). -/
theorem rsError_eUnconfig_eq :
    s.rsError u unit .eUnconfig = { s with
      rs := s.rs.set u { unit with err := 5 }
      rsp := some (responseOf .eUnconfig (rsStatus { unit with err := 5 }) s.faultReg 0) } := rfl

end outcomes

/-! ### The check of the streaming commands: the unit is configured -/

section configured
variable {F : Type} {s : State.Over F} {u : Nat} {unit : RsUnit F} (command : RsUnit F → Result F)

/-- A command that needs a configured unit refuses an unconfigured one, whatever it does else. -/
theorem onRs_of_unconfigured (hh : s.halted = false) (hu : s.rs[u]? = some unit) (hc : unit.cfgv = false) :
    (onRs u s fun unit => if !unit.cfgv then .next (s.rsError u unit .eUnconfig) else command unit) =
      .next { s with
        rs := s.rs.set u { unit with err := 5 }
        rsp := some (responseOf .eUnconfig (rsStatus { unit with err := 5 }) s.faultReg 0) } := by
  rw [onRs_unit _ hh hu, if_pos (by simp [hc]), rsError_eUnconfig_eq]

/-- A command that needs a configured unit runs on a configured one. -/
theorem onRs_of_configured (hh : s.halted = false) (hu : s.rs[u]? = some unit) (hc : unit.cfgv = true) :
    (onRs u s fun unit => if !unit.cfgv then .next (s.rsError u unit .eUnconfig) else command unit) =
      command unit := by
  rw [onRs_unit _ hh hu, if_neg (by simp [hc])]

end configured

/-! ### RS.OUTPUT and RS.RESET on a configured unit -/

section commands
variable {s : State} {u : Nat} {unit : RsUnit F}

/-- The last output's pattern is the response's value, and only ERR is written (R172). -/
theorem exec_rsOutput_of_configured (hh : s.halted = false) (hu : s.rs[u]? = some unit)
    (hc : unit.cfgv = true) :
    exec (.rsOutput u) s = .next { s with
      rs := s.rs.set u { unit with err := 0 }
      rsp := some (responseOf .ok (rsStatus { unit with err := 0 }) s.faultReg unit.out) } := by
  have hexec : exec (.rsOutput u) s = .next (s.rsOk u unit (params.num.bits unit.out)) :=
    onRs_of_configured _ hh hu hc
  rw [hexec, rsOk_eq, params_num, Binary64.ops_bits]

/-- The unit is the cleared one, with ERR zeroed as well, and the value is 0 (R174). -/
theorem exec_rsReset_of_configured (hh : s.halted = false) (hu : s.rs[u]? = some unit)
    (hc : unit.cfgv = true) :
    exec (.rsReset u) s = .next { s with
      rs := s.rs.set u { clearedRs params unit with err := 0 }
      rsp := some (responseOf .ok (rsStatus { clearedRs params unit with err := 0 }) s.faultReg 0) } := by
  have hexec : exec (.rsReset u) s = .next (s.rsOk u (clearedRs params unit) 0) :=
    onRs_of_configured _ hh hu hc
  rw [hexec, rsOk_eq]

/-- The history of a cleared unit reads zero everywhere (R174). -/
theorem clearedRs_hist_read (unit : RsUnit F) (k : Nat) : (clearedRs params unit).hist.read k = 0 := by
  rw [clearedRs, silentHistory_params, Memory.read_nil, default_bitVec]
  rfl

end commands

/-- Settles O49: an unconfigured unit is refused, and a configured one answers its last output. -/
theorem rsOutputReturnsLast : Obligations.RsOutputReturnsLast := by
  intro s u unit hh hu
  exact ⟨fun hc => onRs_of_unconfigured _ hh hu hc, fun hc => exec_rsOutput_of_configured hh hu hc⟩

/-- Settles O50: an unconfigured unit is refused, and a configured one becomes the cleared unit, whose history is
the obligation's. -/
theorem rsResetClears : Obligations.RsResetClears := by
  intro s u unit hh hu
  refine ⟨fun hc => onRs_of_unconfigured _ hh hu hc, fun hc => ?_⟩
  exact ⟨(clearedRs params unit).hist, clearedRs_hist_read unit, exec_rsReset_of_configured hh hu hc⟩

end Sys2Proof.Machine
end

