-- ==== Sys2Proof/Proofs/Integrator.lean ====
section
/-!
PROOF. The Integrator's commands (spec/43_integrator.md): the checks of `IN.SOLVE` in R198's order and what a
fault writes (R220), and the unit that `IN.CONFIG` constructs where every check of R181 passes (R184).
-/

namespace Sys2Proof.Machine

/-! ### All that a command writes to the state -/

/-- The parts of `FAULTREG` after a fault, from the top: FUNIT, FCODE, the reserved bits, FAULT (R22). -/
theorem faultRegOf_eq_append (n : Nat) (c : FaultCode) :
    faultRegOf n c = BitVec.ofNat 8 n ++ faultBits c ++ 0#3 ++ 1#1 := by
  ext i hi
  simp [faultRegOf, fieldAt]
  grind

section outcomes
variable {F : Type} (s : State.Over F) (n : Nat) (unit : InUnit F)

/-- All that an error on an Integrator unit writes (R214). -/
theorem inError_eq (c : RspCode) :
    s.inError n unit c = { s with
      ins := s.ins.set n { unit with err := codeBits c }
      rsp := some (responseOf c (inStatus { unit with err := codeBits c }) s.faultReg 0) } := by
  rw [State.Over.inError, State.Over.inFinish, State.Over.respond, ite_self]

variable {s n unit}

/-- All that a fault of an Integrator unit writes: `FAULTREG` and the response (R220). -/
theorem raise_eq (hn : s.ins[n]? = some unit) (c : FaultCode) :
    s.raise n c = { s with
      faultReg := BitVec.ofNat 8 n ++ faultBits c ++ 0#3 ++ 1#1
      rsp := some (responseOf .eHalted (inStatus unit)
        (BitVec.ofNat 8 n ++ faultBits c ++ 0#3 ++ 1#1) 0) } := by
  have hstatus : s.inStatusAt n = inStatus unit := by rw [State.Over.inStatusAt, hn]
  rw [State.Over.raise, State.Over.respond, hstatus, faultRegOf_eq_append, ite_self]

end outcomes

/-! ### The first check of IN.SOLVE that fails (R198) -/

section solveFault
variable {F : Type} {P : Params F} {unit : InUnit F} {vi : Int}

theorem solveFault_of_subthreshold (hvx : (unit.nvgt.toNat : Int) ≤ unit.vx.toInt) :
    solveFault P unit vi = some .subthreshold := by
  rw [solveFault, if_pos (not_lt.mpr hvx)]

/-- Above the threshold the overflow check comes next, whichever of `d`, `i`, `vc` fails it. -/
theorem solveFault_of_overflow (hvx : unit.vx.toInt < unit.nvgt.toNat)
    (hfits : ¬ (fitsS32 (driveDifference unit vi) = true ∧ fitsS32 (driveCurrent P unit vi) = true ∧
      fitsS32 (newCharge P unit vi) = true)) : solveFault P unit vi = some .overflow := by
  rw [solveFault, if_neg (not_not.mpr hvx)]
  cases hd : fitsS32 (driveDifference unit vi) with
  | false => simp
  | true =>
    cases hi : fitsS32 (driveCurrent P unit vi) with
    | false => simp
    | true =>
      have hvc : fitsS32 (newCharge P unit vi) = false := by simpa [hd, hi] using hfits
      simp [hvc]

/-- Where nothing overflows, the table index is all that is left to fail. -/
theorem solveFault_of_index (hvx : unit.vx.toInt < unit.nvgt.toNat)
    (hd : fitsS32 (driveDifference unit vi) = true) (hi : fitsS32 (driveCurrent P unit vi) = true)
    (hvc : fitsS32 (newCharge P unit vi) = true)
    (hidx : ¬ (0 ≤ chargeIndex P (newCharge P unit vi) ∧ chargeIndex P (newCharge P unit vi) ≤ 65535)) :
    solveFault P unit vi = some .index := by
  simp only [solveFault, hvx, hd, hi, hvc, hidx, not_true_eq_false, not_false_eq_true, Bool.not_true,
    Bool.false_eq_true, if_true, if_false]

end solveFault

section solve
variable {s : State} {n : Nat} {unit : InUnit F}

/-- A unit without a calibration or without a drive factor is refused before any check of the step (R198). -/
theorem exec_inSolve_of_unconfigured (vi : Int) (hh : s.halted = false) (hn : s.ins[n]? = some unit)
    (hc : unit.cfgv = false ∨ unit.ndacv = false) :
    exec (.inSolve n vi) s = .next (s.inError n unit .eUnconfig) := by
  have hcheck : (!unit.cfgv || !unit.ndacv) = true := by simpa using hc
  refine (onIn_unit _ hh hn).trans ?_
  rw [if_pos hcheck]

/-- On a unit ready to step, the first check that fails is the fault raised (R198, R220). -/
theorem exec_inSolve_of_fault {vi : Int} {c : FaultCode} (hh : s.halted = false) (hn : s.ins[n]? = some unit)
    (hc : unit.cfgv = true) (hv : unit.ndacv = true) (hf : solveFault params unit vi = some c) :
    exec (.inSolve n vi) s = .next (s.raise n c) := by
  refine (onIn_unit _ hh hn).trans ?_
  simp [hc, hv, hf]

end solve

/-- Settles O25, one clause after the other in R198's order: which check fails first, and what its answer
writes. -/
theorem solveFaultOrder : Obligations.SolveFaultOrder := by
  intro s n vi unit hh hn nvgt vgst vgdt d i vc idx fits fault
  have hd : fitsS32 (driveDifference unit vi) = true ↔ fits d := fitsS32_iff
  have hi : fitsS32 (driveCurrent params unit vi) = true ↔ fits i := fitsS32_iff
  have hvc : fitsS32 (newCharge params unit vi) = true ↔ fits vc := fitsS32_iff
  have hidx : chargeIndex params (newCharge params unit vi) = idx := rfl
  refine ⟨fun hc => ?_, fun hc hv => ?_⟩
  · rw [exec_inSolve_of_unconfigured vi hh hn hc, inError_eq]
    rfl
  have hraise (c : FaultCode) (hf : solveFault params unit vi = some c) :
      exec (.inSolve n vi) s = .next (fault (faultBits c)) := by
    rw [exec_inSolve_of_fault hh hn hc hv hf, raise_eq hn]
  refine ⟨fun hvx => hraise .subthreshold (solveFault_of_subthreshold hvx), fun hvx => ⟨fun hover => ?_, ?_⟩⟩
  · rw [← hd, ← hi, ← hvc] at hover
    exact hraise .overflow (solveFault_of_overflow hvx hover)
  · intro fitsD fitsI fitsVc hout
    have houtside : ¬ (0 ≤ chargeIndex params (newCharge params unit vi) ∧
        chargeIndex params (newCharge params unit vi) ≤ 65535) := by
      rw [hidx]
      omega
    exact hraise .index (solveFault_of_index hvx (hd.mpr fitsD) (hi.mpr fitsI) (hvc.mpr fitsVc) houtside)

/-! ### The gate voltage of IN.CONFIG (R181, R182) -/

section calibration
variable {F : Type} {P : Params F} {N : NumOps F}

/-- A finite value whose rounding is in the range of a u16 is quantized to it (R121). -/
theorem exists_quant16_of_inRange {t : F} (hf : N.isFinite t = true)
    (h0 : 0 ≤ (N.toRat t + 1 / 2).floor) (h1 : (N.toRat t + 1 / 2).floor ≤ 65535) :
    ∃ q, quant16 N t = some q ∧ (q.toNat : Int) = (N.toRat t + 1 / 2).floor := by
  obtain ⟨q, hq⟩ : ∃ q, quant16 N t = some q :=
    Option.ne_none_iff_exists'.mp fun hnone => by
      rcases (quant16_eq_none_iff hf).mp hnone with h | h <;> omega
  exact ⟨q, hq, (quant16_eq_some.mp hq).2.symm⟩

/-- A multiplier strictly between 1 and 2 leaves the gate voltage to the quantizer (R182). -/
theorem gateQuant_of_quantized {vdc vth vmin n16 m : F} {q : U16} (hf : N.isFinite m = true)
    (hlo : N.lt N.one m = true) (hhi : N.lt m (N.ofInt 2) = true)
    (hq : quant16 N (N.mul n16 (N.sub (N.sub (N.mul vdc m) vth) vmin)) = some q) :
    gateQuant N vdc vth vmin n16 m = .ok q := by
  simp [gateQuant, hf, hlo, hhi, hq]

/-- With a table select in range and finite constants, the gate voltage decides (R181). -/
theorem checkCalibration_of_finite {ntt k : Nat} {vdc vth nkp vmin n16 : F} (hk : k < ntt)
    (hfinite : ∀ c ∈ [vdc, vth, nkp, vmin, n16], P.num.isFinite c = true) :
    checkCalibration P ntt k vdc vth nkp vmin n16 =
      gateQuant P.num vdc vth vmin n16 (P.num.ofLit P.mDefault) := by
  simp only [List.forall_mem_cons] at hfinite
  obtain ⟨hvdc, hvth, hnkp, hvmin, hn16, -⟩ := hfinite
  rw [checkCalibration, if_neg (not_le.mpr hk)]
  simp [hvdc, hvth, hnkp, hvmin, hn16]

end calibration

/-- `M_DEFAULT` is a multiplier that R182 admits: a finite value strictly between 1 and 2. -/
theorem mDefault_admitted :
    params.num.isFinite (params.num.ofLit params.mDefault) = true ∧
      params.num.lt params.num.one (params.num.ofLit params.mDefault) = true ∧
      params.num.lt (params.num.ofLit params.mDefault) (params.num.ofInt 2) = true := by
  decide +kernel

/-- The gate voltage of `IN.CONFIG` at the values of R9 (R184). -/
theorem gateQuant_mDefault_of_quantized {vdc vth vmin n16 : F} {q : U16}
    (hq : quant16 Binary64.ops (Binary64.mul n16 (Binary64.sub (Binary64.sub
      (Binary64.mul vdc (Binary64.ofLit ⟨15, 1⟩)) vth) vmin)) = some q) :
    gateQuant params.num vdc vth vmin n16 (params.num.ofLit params.mDefault) = .ok q := by
  obtain ⟨hf, hlo, hhi⟩ := mDefault_admitted
  refine gateQuant_of_quantized hf hlo hhi ?_
  simpa only [params_num, params_mDefault, Binary64.ops_mul, Binary64.ops_sub, Binary64.ops_ofLit] using hq

/-! ### The unit that IN.CONFIG constructs (R184) -/

section construction
variable {F : Type} (unit : InUnit F) (k : Nat) (vdc vth nkp vmin n16 : F) (q : U16)

/-- The status of a unit just constructed: configured, no drive factor, no error (R49, R184). -/
theorem inStatus_constructedIn : inStatus (constructedIn unit k vdc vth nkp vmin n16 q) = 0x0001#16 := by
  have hview : statusView (codeBits .ok) false true = 0x0001#16 := by decide
  rw [← hview, inStatus, constructedIn]

/-- All that a construction writes: ERR, which success writes, is already 0 in the unit (R184, R216). -/
theorem inOk_constructedIn (s : State.Over F) (n : Nat) (value : BitVec 64) :
    s.inOk n (constructedIn unit k vdc vth nkp vmin n16 q) value = { s with
      ins := s.ins.set n (constructedIn unit k vdc vth nkp vmin n16 q)
      rsp := some (responseOf .ok 0x0001#16 s.faultReg value) } := by
  rw [← inStatus_constructedIn unit k vdc vth nkp vmin n16 q, State.Over.inOk, State.Over.inFinish,
    State.Over.respond, if_pos rfl, constructedIn]

end construction

/-- A u16 result is the 64-bit pattern of its integer (R84). -/
theorem zextValue_eq_ofInt (q : U16) : zextValue q = BitVec.ofInt 64 q.toNat := by
  rw [BitVec.ofInt_natCast, zextValue, BitVec.ofNat_toNat]

/-- Where every check passes, `IN.CONFIG` writes the constructed unit and the response, and nothing else (R184). -/
theorem exec_inConfig_of_accepted {s : State} {n k : Nat} {vdc vth nkp vmin n16 : F} {unit : InUnit F} {q : U16}
    (hh : s.halted = false) (hn : s.ins[n]? = some unit)
    (hq : checkCalibration params s.tt.length k vdc vth nkp vmin n16 = .ok q) :
    exec (.inConfig n k vdc vth nkp vmin n16) s = .next { s with
      ins := s.ins.set n (constructedIn unit k vdc vth nkp vmin n16 q)
      rsp := some (responseOf .ok 0x0001#16 s.faultReg (BitVec.ofInt 64 q.toNat)) } := by
  have hexec : exec (.inConfig n k vdc vth nkp vmin n16) s =
      .next (s.inOk n (constructedIn unit k vdc vth nkp vmin n16 q) (zextValue q)) := by
    refine (onIn_unit _ hh hn).trans ?_
    simp [hq]
  rw [hexec, inOk_constructedIn, zextValue_eq_ofInt]

/-- Settles O29: the operands pass every check of R181, and the unit is the one R184 constructs. -/
theorem inConfigConstructs : Obligations.InConfigConstructs := by
  intro s n k vdc vth nkp vmin n16 unit hh hn hk hfinite m g q hg h0 h1
  obtain ⟨gate, hquant, hgate⟩ := exists_quant16_of_inRange (N := Binary64.ops) hg h0 h1
  have hcheck : checkCalibration params s.tt.length k vdc vth nkp vmin n16 = .ok gate :=
    (checkCalibration_of_finite hk hfinite).trans (gateQuant_mDefault_of_quantized hquant)
  have hexec := exec_inConfig_of_accepted hh hn hcheck
  rw [hgate] at hexec
  exact ⟨constructedIn unit k vdc vth nkp vmin n16 gate, hexec, rfl, rfl, rfl, rfl, rfl, rfl, hgate,
    rfl, rfl, rfl, rfl, rfl⟩

end Sys2Proof.Machine
end

