-- ==== Sys2Proof/Proofs/Exceptions.lean ====
section
/-!
PROOF. Errors, faults and the halted state (spec/60_exceptions.md): every way a command ends (R210), what it
leaves in ERR (R216), what a fault writes (R220), and what a halted core does (R221).
-/

namespace Sys2Proof.Machine

/-! ### The halted core (R221) -/

/-- A halted core answers every command with E_HALTED, before any other check (R90). -/
theorem exec_of_halted {s : State} (hh : s.halted = true) (i : Instr) :
    exec i s = .next (s.answerHalted (addressedStatus i s)) := by
  cases hc : resamplerCommand i with
  | true =>
    obtain ⟨command, hexec⟩ := exec_eq_onRs hc s
    rw [hexec, onRs_halted command hh, addressedStatus, if_pos hc]
  | false =>
    obtain ⟨command, hexec⟩ := exec_eq_onIn hc s
    rw [hexec, onIn_halted command hh, addressedStatus, if_neg (by simp [hc])]

section halted
variable {F : Type} {s : State.Over F}

theorem illegalFrame_of_halted (hh : s.halted = true) : illegalFrame s = s.answerHalted 0 := by
  rw [illegalFrame, if_pos hh]

/-- All that E_HALTED writes: the response (R221). -/
theorem answerHalted_eq (s : State.Over F) (ustatus : BitVec 16) :
    s.answerHalted ustatus = { s with rsp := some (responseOf .eHalted ustatus s.faultReg 0) } := by
  rw [State.Over.answerHalted, State.Over.respond, ite_self]

end halted

/-- A step of a halted core leaves it halted, unless it is the hardware reset (R221, R240). -/
theorem halted_of_step {s t : State} (hh : s.halted = true) (h : step s = .next t) :
    (∃ rest, s.events = .hardwareReset :: rest) ∨ t.halted = true := by
  rcases step_next h with ⟨-, rfl⟩ | ⟨rest, he, -⟩ | ⟨f, rest, -, -, rfl⟩ | ⟨f, rest, i, -, -, hexec⟩
  · exact .inr hh
  · exact .inl ⟨rest, he⟩
  · rw [illegalFrame_of_halted (s := s.takeEvent) hh]
    exact .inr hh
  · rw [exec_of_halted (s := s.takeEvent) hh] at hexec
    obtain rfl := Host.Outcome.next.inj hexec
    exact .inr hh

/-- Settles O15: E_HALTED to every command and every illegal header, and no step but the reset clears FAULT. -/
theorem haltedCoreAnswersOnly : Obligations.HaltedCoreAnswersOnly := by
  refine ⟨fun s i hh => ?_, fun s f rest hh he hd => ?_, fun s t hh h hrun => ?_⟩
  · rw [exec_of_halted hh, answerHalted_eq]
  · rw [step_of_illegalHeader he hd, illegalFrame_of_halted (s := s.takeEvent) hh, answerHalted_eq,
      State.Over.takeEvent, he]
    rfl
  · exact (halted_of_step hh h).resolve_right (by simp [hrun])

/-! ### The ways a command ends (R210) -/

/-- Every way command `i` can end in a next state from `s`: it is refused by one of the two checks of R90 and
writes nothing but the response; it writes the addressed unit, with the code it answers in ERR (R216), and of the
rest at most the cache; or it is an `IN.SOLVE` that faults. -/
inductive Ending (i : Instr) (s : State) : State → Prop
  | halted (hh : s.halted = true) : Ending i s (s.answerHalted (addressedStatus i s))
  | absent (hh : s.halted = false) (hu : ¬ unitPresent i s) : Ending i s s.answerIllegal
  | rsWritten (cache : Cache F) {unit : RsUnit F} (unit' : RsUnit F) (code : RspCode) (value : BitVec 64)
      (hi : resamplerCommand i = true) (hh : s.halted = false) (hu : s.rs[unitOf i]? = some unit) :
      Ending i s ({ s with cache := cache }.rsFinish (unitOf i) { unit' with err := codeBits code } code value)
  | inWritten {unit : InUnit F} (unit' : InUnit F) (code : RspCode) (value : BitVec 64)
      (hi : resamplerCommand i = false) (hh : s.halted = false) (hn : s.ins[unitOf i]? = some unit) :
      Ending i s (s.inFinish (unitOf i) { unit' with err := codeBits code } code value)
  | faulted {n : Nat} {vi : Int} {unit : InUnit F} (c : FaultCode) (hi : i = .inSolve n vi)
      (hh : s.halted = false) (hn : s.ins[n]? = some unit) : Ending i s (s.raise n c)

section endings
variable {i : Instr} {s : State}

theorem Ending.of_rs_none (hi : resamplerCommand i = true) (hh : s.halted = false)
    (hu : s.rs[unitOf i]? = none) : Ending i s s.answerIllegal :=
  .absent hh (by simpa [unitPresent, hi] using hu)

theorem Ending.of_in_none (hi : resamplerCommand i = false) (hh : s.halted = false)
    (hn : s.ins[unitOf i]? = none) : Ending i s s.answerIllegal :=
  .absent hh (by simpa [unitPresent, hi] using hn)

theorem Ending.rsError {unit : RsUnit F} (code : RspCode) (hi : resamplerCommand i = true)
    (hh : s.halted = false) (hu : s.rs[unitOf i]? = some unit) : Ending i s (s.rsError (unitOf i) unit code) :=
  .rsWritten s.cache unit code 0 hi hh hu

theorem Ending.rsOk {unit : RsUnit F} (unit' : RsUnit F) (value : BitVec 64) (hi : resamplerCommand i = true)
    (hh : s.halted = false) (hu : s.rs[unitOf i]? = some unit) : Ending i s (s.rsOk (unitOf i) unit' value) :=
  .rsWritten s.cache unit' .ok value hi hh hu

theorem Ending.inError {unit : InUnit F} (code : RspCode) (hi : resamplerCommand i = false)
    (hh : s.halted = false) (hn : s.ins[unitOf i]? = some unit) : Ending i s (s.inError (unitOf i) unit code) :=
  .inWritten unit code 0 hi hh hn

theorem Ending.inOk {unit : InUnit F} (unit' : InUnit F) (value : BitVec 64) (hi : resamplerCommand i = false)
    (hh : s.halted = false) (hn : s.ins[unitOf i]? = some unit) : Ending i s (s.inOk (unitOf i) unit' value) :=
  .inWritten unit' .ok value hi hh hn

end endings

/-- Every command that ends in a next state ends in one of these ways. -/
theorem exec_ending {i : Instr} {s t : State} (h : exec i s = .next t) : Ending i s t := by
  cases i with
  | rsConfig =>
    rcases rsConfigWith_next h with ⟨hh, rfl⟩ | ⟨hh, hu, rfl⟩ |
      ⟨unit, c, hh, hu, -, rfl⟩ | ⟨unit, d, hh, hu, -, rfl⟩
    · exact .halted hh
    · exact .of_rs_none rfl hh hu
    · exact .rsError c rfl hh hu
    · exact .rsWritten (lookupOrBuild params s.cache (designKey params d)) (constructedRs params d) .ok _
        rfl hh hu
  | rsInput =>
    rcases rsInputWith_next h with ⟨hh, rfl⟩ | ⟨hh, hu, rfl⟩ | ⟨unit, hh, hu, -, rfl⟩ |
      ⟨unit, unit', hh, hu, -, -, rfl⟩
    · exact .halted hh
    · exact .of_rs_none rfl hh hu
    · exact .rsError _ rfl hh hu
    · exact .rsOk unit' _ rfl hh hu
  | rsOutput =>
    rcases rsOutputWith_next h with ⟨hh, rfl⟩ | ⟨hh, hu, rfl⟩ | ⟨unit, hh, hu, -, rfl⟩ | ⟨unit, hh, hu, -, rfl⟩
    · exact .halted hh
    · exact .of_rs_none rfl hh hu
    · exact .rsError _ rfl hh hu
    · exact .rsOk unit _ rfl hh hu
  | rsReset =>
    rcases rsResetWith_next h with ⟨hh, rfl⟩ | ⟨hh, hu, rfl⟩ | ⟨unit, hh, hu, -, rfl⟩ | ⟨unit, hh, hu, -, rfl⟩
    · exact .halted hh
    · exact .of_rs_none rfl hh hu
    · exact .rsError _ rfl hh hu
    · exact .rsOk (clearedRs params unit) _ rfl hh hu
  | inConfig =>
    rcases inConfigWith_next h with ⟨hh, rfl⟩ | ⟨hh, hn, rfl⟩ |
      ⟨unit, c, hh, hn, -, rfl⟩ | ⟨unit, q, hh, hn, -, rfl⟩
    · exact .halted hh
    · exact .of_in_none rfl hh hn
    · exact .inError c rfl hh hn
    · exact .inOk _ _ rfl hh hn
  | inSetfc =>
    rcases inSetfcWith_next h with ⟨hh, rfl⟩ | ⟨hh, hn, rfl⟩ | ⟨unit, hh, hn, -, rfl⟩ |
      ⟨unit, c, hh, hn, -, -, rfl⟩ | ⟨unit, q, hh, hn, -, -, rfl⟩
    · exact .halted hh
    · exact .of_in_none rfl hh hn
    · exact .inError _ rfl hh hn
    · exact .inError c rfl hh hn
    · exact .inOk _ _ rfl hh hn
  | inSetv =>
    rcases inSetvWith_next h with ⟨hh, rfl⟩ | ⟨hh, hn, rfl⟩ | ⟨unit, hh, hn, -, rfl⟩ |
      ⟨unit, c, hh, hn, -, -, rfl⟩ | ⟨unit, q, hh, hn, -, -, rfl⟩
    · exact .halted hh
    · exact .of_in_none rfl hh hn
    · exact .inError _ rfl hh hn
    · exact .inError c rfl hh hn
    · exact .inOk _ _ rfl hh hn
  | inSolve =>
    rcases inSolveWith_next h with ⟨hh, rfl⟩ | ⟨hh, hn, rfl⟩ | ⟨unit, hh, hn, -, rfl⟩ |
      ⟨unit, c, hh, hn, -, -, -, rfl⟩ | ⟨unit, table, hh, hn, -, -, -, -, rfl⟩
    · exact .halted hh
    · exact .of_in_none rfl hh hn
    · exact .inError _ rfl hh hn
    · exact .faulted c rfl hh hn
    · exact .inOk _ _ rfl hh hn

/-! ### ERR (R216) -/

section err
variable {i : Instr} {s t : State}

theorem addressedErr_rsFinish {unit unit' : RsUnit F} {code : RspCode} {value : BitVec 64}
    (hi : resamplerCommand i = true) (hu : s.rs[unitOf i]? = some unit) :
    addressedErr i (s.rsFinish (unitOf i) unit' code value) = some unit'.err := by
  simp [addressedErr, hi, List.getElem?_set_self', hu]

theorem addressedErr_inFinish {unit unit' : InUnit F} {code : RspCode} {value : BitVec 64}
    (hi : resamplerCommand i = false) (hn : s.ins[unitOf i]? = some unit) :
    addressedErr i (s.inFinish (unitOf i) unit' code value) = some unit'.err := by
  simp [addressedErr, hi, List.getElem?_set_self', hn]

/-- A command to a unit of a running core that does not fault leaves the code it answers in the unit's ERR. -/
theorem Ending.err_eq_code (h : Ending i s t) (hh : s.halted = false) (hu : unitPresent i s)
    (ht : t.halted = false) : ∃ r, t.rsp = some r ∧ addressedErr i t = some (r.extractLsb' 0 4) := by
  cases h with
  | halted hhalted => simp [hh] at hhalted
  | absent _ habsent => exact absurd hu habsent
  | rsWritten cache unit' code value hi _ hunit =>
    refine ⟨_, rsFinish_rsp .., ?_⟩
    rw [responseOf_code, addressedErr_rsFinish (s := { s with cache := cache }) hi hunit]
  | inWritten unit' code value hi _ hunit =>
    refine ⟨_, inFinish_rsp .., ?_⟩
    rw [responseOf_code, addressedErr_inFinish hi hunit]
  | faulted c => simp [State.Over.halted] at ht

/-- A command that leaves the core halted has written no unit: it was halted before, or it faulted. -/
theorem Ending.units_of_halted (h : Ending i s t) (ht : t.halted = true) : t.rs = s.rs ∧ t.ins = s.ins := by
  cases h with
  | halted | absent | faulted => exact ⟨rfl, rfl⟩
  | rsWritten _ _ _ _ _ hh | inWritten _ _ _ _ hh => exact absurd (ht.symm.trans hh) (by decide)

/-- A command that the checks of R90 refuse has written no unit. -/
theorem units_of_refused (hs : s.halted = true ∨ ¬ unitPresent i s) (h : exec i s = .next t) :
    t.rs = s.rs ∧ t.ins = s.ins := by
  cases hh : s.halted with
  | true =>
    rw [exec_of_halted hh] at h
    obtain rfl := Host.Outcome.next.inj h
    exact ⟨rfl, rfl⟩
  | false =>
    rw [exec_of_absent hh (hs.resolve_left (by simp [hh]))] at h
    obtain rfl := Host.Outcome.next.inj h
    exact ⟨rfl, rfl⟩

/-- The answer to an illegal header writes no unit (R86). -/
theorem illegalFrame_units (s : State) : (illegalFrame s).rs = s.rs ∧ (illegalFrame s).ins = s.ins := by
  cases hh : s.halted with
  | true =>
    rw [illegalFrame_of_halted hh]
    exact ⟨rfl, rfl⟩
  | false =>
    rw [illegalFrame_of_running hh]
    exact ⟨rfl, rfl⟩

end err

/-- Settles O17, from the ways a command ends. -/
theorem errFieldRecordsOutcome : Obligations.ErrFieldRecordsOutcome := by
  refine ⟨fun s t i hh hu h => ⟨(exec_ending h).err_eq_code hh hu, (exec_ending h).units_of_halted⟩,
    fun s t i hs h => units_of_refused hs h, fun s t f rest he hd h => ?_⟩
  rw [step_of_illegalHeader he hd] at h
  obtain rfl := Host.Outcome.next.inj h
  exact illegalFrame_units s.takeEvent

/-! ### Fault entry (R220) -/

/-- FCODE is one of R22's three codes. -/
theorem faultBits_cases (c : FaultCode) : faultBits c = 1 ∨ faultBits c = 2 ∨ faultBits c = 3 := by
  cases c with
  | subthreshold => exact .inl rfl
  | index => exact .inr (.inl rfl)
  | overflow => exact .inr (.inr rfl)

/-- The only ending that halts a running core is the fault of an `IN.SOLVE` on an existing unit. -/
theorem Ending.fault_of_halts {i : Instr} {s t : State} (h : Ending i s t) (hh : s.halted = false)
    (ht : t.halted = true) :
    ∃ n vi unit c, i = .inSolve n vi ∧ s.ins[n]? = some unit ∧ t = s.raise n c := by
  cases h with
  | faulted c hi _ hn => exact ⟨_, _, _, c, hi, hn, rfl⟩
  | halted | absent | rsWritten | inWritten => exact absurd (ht.symm.trans hh) (by decide)

/-- Settles O19: the command faulted, and `raise_eq` is all that a fault writes. -/
theorem faultEntryIsPrecise : Obligations.FaultEntryIsPrecise := by
  intro s t i hh h ht
  obtain ⟨n, vi, unit, c, hi, hn, rfl⟩ := (exec_ending h).fault_of_halts hh ht
  exact ⟨n, vi, unit, faultBits c, hi, hn, faultBits_cases c, raise_eq hn c⟩

end Sys2Proof.Machine
end

/-!
PROOF. The command frame both ways (spec/30_encoding.md R81 to R84, R93) and its bytes on a serial transport
(spec/20_memory.md R62).
-/

namespace Sys2Proof.Machine

/-! ## Decoding and encoding -/

/-! ### The slots of the two operands that are not whole slots -/

theorem tselOf_lt (w : Slot) : tselOf w < 256 := (w.extractLsb' 0 8).isLt

theorem tselOf_tselSlot {k : Nat} (h : k < 256) : tselOf (tselSlot k) = k := by
  rw [tselOf_eq_setWidth, tselSlot, BitVec.toNat_setWidth, BitVec.toNat_ofNat]
  omega

theorem s32Fits_s32Of (w : Slot) : s32Fits (s32Of w) = true := by
  rw [s32Of_eq_setWidth]
  have low := BitVec.le_toInt (w.setWidth 32)
  have high := BitVec.toInt_lt (x := w.setWidth 32)
  simp only [s32Fits, Bool.and_eq_true, decide_eq_true_eq]
  omega

theorem s32Of_s32Slot {v : Int} (h : s32Fits v = true) : s32Of (s32Slot v) = v := by
  simp only [s32Fits, Bool.and_eq_true, decide_eq_true_eq] at h
  rw [s32Of_eq_setWidth, s32Slot, BitVec.setWidth_setWidth_of_le _ (by decide), BitVec.setWidth_eq,
    BitVec.toInt_ofInt, Int.bmod_eq_of_le] <;> omega

/-! ### The frame of a command -/

theorem encode_hdr (i : Instr) : (encode i).hdr = header (opcodeOf (rowOfCommand i)) (unitOf i) := by
  cases i <;> rfl

theorem encode_slots_length (i : Instr) : (encode i).slots.length = rowSlots (rowOfCommand i) := by
  cases i <;> rfl

theorem unitOf_lt_of_wellFormed {i : Instr} (h : i.WellFormed = true) : unitOf i < 256 := by
  cases i <;> simp_all [Instr.WellFormed, unitFits, unitOf]

/-- The slots of an encoded command make the command again under its row (R83, R84). -/
theorem commandOfRow_encode {i : Instr} (h : i.WellFormed = true) :
    commandOfRow (rowOfCommand i) (unitOf i) (encode i).slots = some i := by
  cases i with
  | rsConfig | rsInput | rsOutput | rsReset | inSetfc | inSetv => rfl
  | inConfig u k vdc vth nkp vmin n16 =>
    have hk : k < 256 := by
      simp only [Instr.WellFormed, tselFits, Bool.and_eq_true, decide_eq_true_eq] at h
      exact h.2
    simp [commandOfRow, rowOfCommand, encode, unitOf, tselOf_tselSlot hk]
  | inSolve u vi =>
    have hvi : s32Fits vi = true := by
      simp only [Instr.WellFormed, Bool.and_eq_true] at h
      exact h.2
    simp [commandOfRow, rowOfCommand, encode, unitOf, oneSlot, s32Of_s32Slot hvi]

/-- Settles O1: the header gives back row and unit, and the slots the operands. -/
theorem encodedCommandDecodesBack : Obligations.EncodedCommandDecodesBack := by
  intro i h
  obtain ⟨hrow, hunit⟩ := Laws.header_row (rowOfCommand i) (unitOf i) (unitOf_lt_of_wellFormed h)
  rw [decode_eq_ok, encode_hdr]
  exact ⟨_, hrow, by rw [hunit, commandOfRow_encode h]⟩

/-! ### The command of a frame -/

theorem headerUnit_lt (h : Header) : headerUnit h < 256 := (h.extractLsb' 0 8).isLt

/-- Every operand that a row's slots give is one a frame can carry (R83). -/
theorem wellFormed_of_commandOfRow {r : Row} {u : Nat} {ws : List Slot} {i : Instr} (hu : u < 256)
    (h : commandOfRow r u ws = some i) : i.WellFormed = true := by
  rcases commandOfRow_eq_some h with ⟨a, b, c, -, -, rfl⟩ | ⟨a, -, -, rfl⟩ | ⟨-, -, rfl⟩ | ⟨-, -, rfl⟩ |
    ⟨k, a, b, c, d, e, -, -, rfl⟩ | ⟨a, -, -, rfl⟩ | ⟨a, -, -, rfl⟩ | ⟨a, -, -, rfl⟩ <;>
  simp [Instr.WellFormed, unitFits, tselFits, tselOf_lt, s32Fits_s32Of, hu]

/-- Settles O2: the header of a decoded frame is the one its row and unit make. -/
theorem decodedCommandKeepsHeader : Obligations.DecodedCommandKeepsHeader := by
  intro f i hd
  obtain ⟨r, hrow, hcommand⟩ := decode_eq_ok.mp hd
  obtain ⟨hop, hunit⟩ := header_of_decode hd
  obtain ⟨rfl, -⟩ := row_unit_of_commandOfRow hcommand
  have hu : unitOf i < 256 := hunit ▸ headerUnit_lt f.hdr
  obtain ⟨hop', hunit'⟩ := Laws.header_fields (opcodeOf (rowOfCommand i)) (unitOf i) hu
  refine ⟨wellFormed_of_commandOfRow (headerUnit_lt f.hdr) hcommand, ?_, ?_⟩
  · rw [encode_hdr]
    exact header_ext (hop'.trans hop.symm) (hunit'.trans hunit.symm)
  · rw [encode_slots_length]
    exact (commandOfRow_isSome.mp (Option.isSome_iff_exists.mpr ⟨i, hcommand⟩)).symm

/-! ### The opcode map -/

/-- The UNIT field is what the mask 0x00FF leaves (R81). -/
theorem headerUnit_eq_and (h : Header) : headerUnit h = (h &&& 0x00FF#16).toNat := by
  rw [headerUnit_eq, BitVec.toNat_and]
  exact (Nat.and_two_pow_sub_one_eq_mod h.toNat 8).symm

/-- CLASS and OP, at their place, are what the mask 0xFF00 leaves (R82, R84). -/
theorem fieldAt_headerOpcode (h : Header) : fieldAt 16 8 (headerOpcode h) = h &&& 0xFF00#16 := by
  have hmask : ∀ i < 16, (0xFF00#16).getLsbD i = decide (8 ≤ i) := by decide
  ext i hi
  have hbit := hmask i hi
  simp [fieldAt, headerOpcode] at hbit ⊢
  grind

/-- The `match` value of a row at the place of the mask is told from every other (R84). -/
theorem headerOpcode_of_match {h : Header} {r : Row} (hm : h &&& 0xFF00#16 = fieldAt 16 8 (opcodeOf r)) :
    headerOpcode h = opcodeOf r := by
  have hback (b : BitVec 8) : headerOpcode (fieldAt 16 8 b) = b := by
    ext i hi
    simp [headerOpcode, fieldAt]
    grind
  rw [← hback (headerOpcode h), fieldAt_headerOpcode, hm, hback]

/-- A frame under the match value of a row, with slots that make a command of it, is that command. -/
theorem decode_of_match {h : Header} {ws : List Slot} {i : Instr} (r : Row)
    (hm : h &&& 0xFF00#16 = fieldAt 16 8 (opcodeOf r))
    (hc : commandOfRow r (h &&& 0x00FF#16).toNat ws = some i) : decode ⟨h, ws⟩ = .ok i :=
  decode_eq_ok.mpr ⟨r, rowOf_eq_some.mpr (headerOpcode_of_match hm), by rw [headerUnit_eq_and]; exact hc⟩

/-- The eight match values are those that the obligation lists (R84). -/
theorem match_mem (r : Row) : fieldAt 16 8 (opcodeOf r) ∈
    [0x0000#16, 0x0100#16, 0x0200#16, 0x0300#16, 0x1000#16, 0x1100#16, 0x1200#16, 0x1300#16] := by
  cases r <;> decide

theorem tselOf_eq_mod (w : Slot) : tselOf w = w.toNat % 256 := by
  rw [tselOf_eq_setWidth, BitVec.toNat_setWidth]

/-- Settles O4, row by row. -/
theorem opcodeMapSelectsTheRow : Obligations.OpcodeMapSelectsTheRow := by
  intro h ws u row
  refine ⟨?_, ?_, ?_, ?_, ?_, ?_, ?_, ?_, fun hout => ?_⟩
  · rintro hm a b c rfl
    exact decode_of_match .rsConfig hm rfl
  · rintro hm a rfl
    exact decode_of_match .rsInput hm rfl
  · rintro hm rfl
    exact decode_of_match .rsOutput hm rfl
  · rintro hm rfl
    exact decode_of_match .rsReset hm rfl
  · rintro hm a b c d e g rfl
    rw [← tselOf_eq_mod]
    exact decode_of_match .inConfig hm rfl
  · rintro hm a rfl
    exact decode_of_match .inSetfc hm rfl
  · rintro hm a rfl
    exact decode_of_match .inSetv hm rfl
  · rintro hm a rfl
    rw [← s32Of_eq_setWidth]
    exact decode_of_match .inSolve hm rfl
  · have hnone : rowOf h = none := by
      refine Option.eq_none_iff_forall_ne_some.mpr fun r hr => hout ?_
      have hmatch : row = fieldAt 16 8 (opcodeOf r) := by
        rw [← rowOf_eq_some.mp hr, fieldAt_headerOpcode]
      exact hmatch ▸ match_mem r
    exact ⟨by rw [slotCount, hnone], fun hws => decode_eq_illegal.mpr ⟨hnone, hws⟩⟩

/-- The upper half of an `s32` slot is not read (R83, R93). -/
theorem s32Of_append (hi v : BitVec 32) : s32Of (hi ++ v) = v.toInt := by
  have hlow : (hi ++ v).setWidth 32 = v := by
    ext i h
    simp
    grind
  rw [s32Of_eq_setWidth, hlow]

/-- Settles O5: the first and the last frame are evaluated, the second leaves its upper half open. -/
theorem wordsWrittenOutDecode : Obligations.WordsWrittenOutDecode := by
  refine ⟨by decide +kernel, fun hi => ?_, by decide +kernel⟩
  have hvalue : s32Of (hi ++ 0xFFFFFFEF#32) = -17 := (s32Of_append ..).trans (by decide)
  refine decode_of_match .inSolve (by decide) ?_
  rw [commandOfRow, oneSlot, hvalue]
  rfl

/-! ## The bytes of a frame (R62) -/

theorem leBytes_length (k v : Nat) : (leBytes k v).length = k := by
  induction k generalizing v with
  | zero => rfl
  | succ k ih => rw [leBytes, List.length_cons, ih]

/-- Byte `j` holds the bits from `8 * j` on. -/
theorem leBytes_getElem? {k j : Nat} (hj : j < k) (v : Nat) :
    (leBytes k v)[j]? = some (BitVec.ofNat 8 (v / 256 ^ j)) := by
  induction k generalizing v j with
  | zero => omega
  | succ k ih =>
    cases j with
    | zero => simp [leBytes]
    | succ j => rw [leBytes, List.getElem?_cons_succ, ih (by omega), Nat.div_div_eq_div_mul, ← pow_succ']

theorem ofLeBytes_leBytes (k v : Nat) : ofLeBytes (leBytes k v) = v % 256 ^ k := by
  induction k generalizing v with
  | zero => rw [leBytes, ofLeBytes, pow_zero, Nat.mod_one]
  | succ k ih =>
    have hbyte : (BitVec.ofNat 8 v).toNat = v % 256 := BitVec.toNat_ofNat ..
    rw [leBytes, ofLeBytes, ih, hbyte, pow_succ', Nat.mod_mul]

/-- Byte `j` of a bit vector is the vector shifted down to it. -/
theorem ofNat_div_eq_shift {w : Nat} (x : BitVec w) (j : Nat) :
    BitVec.ofNat 8 (x.toNat / 256 ^ j) = (x >>> (8 * j)).setWidth 8 := by
  refine BitVec.eq_of_toNat_eq ?_
  have hbytes : 256 ^ j = 2 ^ (8 * j) := (pow_mul 2 8 j).symm
  rw [BitVec.toNat_ofNat, BitVec.toNat_setWidth, BitVec.toNat_ushiftRight, Nat.shiftRight_eq_div_pow, hbytes]

/-- Slot `j` of a frame stands in the eight bytes from `8 * j` on. -/
theorem flatMap_leBytes_getElem? {ws : List Slot} {j k : Nat} {w : Slot} (hw : ws[j]? = some w) (hk : k < 8) :
    (ws.flatMap fun w => leBytes 8 w.toNat)[8 * j + k]? = some ((w >>> (8 * k)).setWidth 8) := by
  induction ws generalizing j with
  | nil => simp at hw
  | cons v ws ih =>
    rw [List.flatMap_cons]
    cases j with
    | zero =>
      obtain rfl : v = w := by simpa using hw
      rw [List.getElem?_append_left (by rw [leBytes_length]; omega), Nat.mul_zero, Nat.zero_add,
        leBytes_getElem? hk, ofNat_div_eq_shift]
    | succ j =>
      rw [List.getElem?_append_right (by rw [leBytes_length]; omega), leBytes_length,
        show 8 * (j + 1) + k - 8 = 8 * j + k by omega]
      exact ih (by simpa using hw)

/-- A value of as many bytes is read back from them. -/
theorem ofNat_ofLeBytes_take {w : Nat} (x : BitVec w) (k : Nat) (hw : w = 8 * k) (rest : List (BitVec 8)) :
    BitVec.ofNat w (ofLeBytes ((leBytes k x.toNat ++ rest).take k)) = x := by
  have hlt : x.toNat < 256 ^ k := by
    have hbits : 256 ^ k = 2 ^ w := by
      rw [hw]
      exact (pow_mul 2 8 k).symm
    exact hbits ▸ x.isLt
  rw [List.take_append_of_le_length (by rw [leBytes_length]),
    List.take_of_length_le (by rw [leBytes_length]), ofLeBytes_leBytes, Nat.mod_eq_of_lt hlt, BitVec.ofNat_toNat,
    BitVec.setWidth_eq]

theorem drop_leBytes_append (k v : Nat) (rest : List (BitVec 8)) : (leBytes k v ++ rest).drop k = rest := by
  rw [List.drop_append_of_le_length (by rw [leBytes_length]), List.drop_of_length_le (by rw [leBytes_length]),
    List.nil_append]

/-- The slots at the front of a stream are read back, with the bytes after them. -/
theorem takeSlots_flatMap (ws : List Slot) (rest : List (BitVec 8)) :
    takeSlots ws.length ((ws.flatMap fun w => leBytes 8 w.toNat) ++ rest) = some (ws, rest) := by
  induction ws with
  | nil => rfl
  | cons w ws ih =>
    rw [List.flatMap_cons, List.append_assoc, List.length_cons, takeSlots,
      if_neg (by rw [List.length_append, leBytes_length]; omega), drop_leBytes_append, ih]
    simp only [ofNat_ofLeBytes_take w 8 rfl]

/-- Settles O6: the header's bytes and the slots' bytes, written and read back. -/
theorem byteTransportRoundTrip : Obligations.ByteTransportRoundTrip := by
  intro f
  refine ⟨?_, fun j w hw k hk => ?_, fun rest hlen => ?_⟩
  · rw [Frame.toBytes, List.take_append_of_le_length (by rw [leBytes_length]),
      List.take_of_length_le (by rw [leBytes_length])]
    have hlow := ofNat_div_eq_shift f.hdr 0
    have hhigh := ofNat_div_eq_shift f.hdr 1
    simp only [pow_zero, Nat.div_one, pow_one, Nat.mul_zero, BitVec.ushiftRight_zero, Nat.mul_one] at hlow hhigh
    rw [leBytes, leBytes, leBytes, hlow, hhigh]
  · rw [Frame.toBytes, List.getElem?_append_right (by rw [leBytes_length]; omega), leBytes_length,
      show 2 + 8 * j + k - 2 = 8 * j + k by omega, flatMap_leBytes_getElem? hw hk]
  · rw [frameOfBytes, Frame.toBytes, List.append_assoc,
      if_neg (by rw [List.length_append, leBytes_length]; omega), drop_leBytes_append]
    simp only [ofNat_ofLeBytes_take f.hdr 2 rfl, ← hlen, takeSlots_flatMap]

end Sys2Proof.Machine

/-!
PROOF. Rounding to nearest, ties to even (spec/00_scope.md R14). The finite magnitudes are a strictly increasing
sequence of integers in units of 2^(-1074); a rounding is told by the midpoints between neighbours, and from that
follow exactness, monotonicity and the nearest value.
-/

namespace Sys2Proof.Machine.Binary64

/-! ### The magnitudes in order -/

/-- The magnitude of a pattern in units of 2^(-1074); past the finite ones the binades go on. -/
def unitsOfMag (m : Nat) : Nat :=
  if m / 2 ^ 52 = 0 then m % 2 ^ 52 else (2 ^ 52 + m % 2 ^ 52) * 2 ^ (m / 2 ^ 52 - 1)

theorem magUnits_eq (w : F) : magUnits w = unitsOfMag (magField w) := by
  rw [magUnits, expField_eq, fracField_eq, unitsOfMag]

/-- A multiple of the quantum `2^sh`, as a pattern; the last one is the first of the next binade. -/
theorem unitsOfMag_multiple {sh k : Nat} (hk : k ≤ 2 ^ 53) (hlow : sh = 0 ∨ 2 ^ 52 ≤ k) :
    unitsOfMag (sh * 2 ^ 52 + k) = k * 2 ^ sh := by
  rcases Nat.lt_or_ge k (2 ^ 52) with hsub | hnormal
  · obtain rfl : sh = 0 := by omega
    rw [unitsOfMag, if_pos (by omega)]
    omega
  · rcases hk.lt_or_eq with hk | rfl
    · have hexp : (sh * 2 ^ 52 + k) / 2 ^ 52 = sh + 1 := by omega
      have hfrac : (sh * 2 ^ 52 + k) % 2 ^ 52 = k - 2 ^ 52 := by omega
      rw [unitsOfMag, hexp, hfrac, if_neg (by omega), Nat.add_sub_cancel, Nat.add_sub_cancel' hnormal]
    · have hexp : (sh * 2 ^ 52 + 2 ^ 53) / 2 ^ 52 = sh + 2 := by omega
      have hfrac : (sh * 2 ^ 52 + 2 ^ 53) % 2 ^ 52 = 0 := by omega
      rw [unitsOfMag, hexp, hfrac, if_neg (by omega), show sh + 2 - 1 = sh + 1 by omega, pow_succ]
      omega

/-- Every pattern is such a multiple, and not the last one of its binade. -/
theorem exists_multiple (m : Nat) :
    ∃ sh k, k < 2 ^ 53 ∧ (sh = 0 ∨ 2 ^ 52 ≤ k) ∧ m = sh * 2 ^ 52 + k :=
  ⟨m / 2 ^ 52 - 1, m - (m / 2 ^ 52 - 1) * 2 ^ 52, by omega, by omega, by omega⟩

theorem unitsOfMag_strictMono : StrictMono unitsOfMag := by
  refine strictMono_nat_of_lt_succ fun m => ?_
  obtain ⟨sh, k, hk, hlow, rfl⟩ := exists_multiple m
  rw [Nat.add_assoc, unitsOfMag_multiple hk.le hlow, unitsOfMag_multiple (by omega) (by omega)]
  exact Nat.mul_lt_mul_of_pos_right (by omega) (by positivity)

theorem unitsOfMag_lt {a b : Nat} (h : a < b) : unitsOfMag a < unitsOfMag b := unitsOfMag_strictMono h

theorem unitsOfMag_le {a b : Nat} (h : a ≤ b) : unitsOfMag a ≤ unitsOfMag b := unitsOfMag_strictMono.monotone h

theorem unitsOfMag_zero : unitsOfMag 0 = 0 := rfl

/-- Twice the midpoint between a magnitude and the next one. -/
def twiceMid (m : Nat) : Nat := unitsOfMag m + unitsOfMag (m + 1)

theorem twiceMid_strictMono : StrictMono twiceMid := fun _ _ h =>
  Nat.add_lt_add (unitsOfMag_strictMono h) (unitsOfMag_strictMono (Nat.succ_lt_succ h))

/-! ### A rounding lies between two midpoints -/

/-- `r` is the rounding of `n / d` among all patterns: between the midpoints beside it, and even on one. -/
structure Rounds (n d r : Nat) : Prop where
  upper : 2 * n ≤ twiceMid r * d
  upperEven : 2 * n = twiceMid r * d → r % 2 = 0
  lower : ∀ m, m + 1 = r → twiceMid m * d ≤ 2 * n
  lowerEven : ∀ m, m + 1 = r → twiceMid m * d = 2 * n → r % 2 = 0

/-- A multiple of the quantum that is the nearest one, and even where two are, is the rounding; the first multiple
of a binade must not be above the value, since below it the quantum is smaller. -/
theorem rounds_multiple {n d sh k D : Nat} (hD : D = d * 2 ^ sh) (hd : 0 < d) (hk : k ≤ 2 ^ 53)
    (hlow : sh = 0 ∨ 2 ^ 52 ≤ k) (hup : 2 * n ≤ 2 * (k * D) + D) (hdown : 2 * (k * D) ≤ 2 * n + D)
    (heven : 2 * (k * D) = 2 * n + D ∨ 2 * n = 2 * (k * D) + D → k % 2 = 0)
    (hfirst : sh ≠ 0 → 2 ^ 52 * D ≤ n) : Rounds n d (sh * 2 ^ 52 + k) := by
  have hunits := unitsOfMag_multiple hk hlow
  have hnext : (k + 1) * 2 ^ sh ≤ unitsOfMag (sh * 2 ^ 52 + k + 1) := by
    rcases hk.lt_or_eq with hk | rfl
    · rw [Nat.add_assoc, unitsOfMag_multiple (by omega) (by omega)]
    · rw [show sh * 2 ^ 52 + 2 ^ 53 + 1 = (sh + 1) * 2 ^ 52 + (2 ^ 52 + 1) by ring,
        unitsOfMag_multiple (by norm_num) (by norm_num), pow_succ]
      omega
  have habove : 2 * (k * D) + D ≤ twiceMid (sh * 2 ^ 52 + k) * d := by
    rw [twiceMid, hunits, hD]
    calc 2 * (k * (d * 2 ^ sh)) + d * 2 ^ sh = (k * 2 ^ sh + (k + 1) * 2 ^ sh) * d := by ring
      _ ≤ _ := Nat.mul_le_mul_right d (Nat.add_le_add_left hnext _)
  have hparity : (sh * 2 ^ 52 + k) % 2 = k % 2 := by omega
  have hbelow (m : Nat) (hm : m + 1 = sh * 2 ^ 52 + k) :
      twiceMid m * d + D = 2 * (k * D) ∨ twiceMid m * d < 2 * n := by
    by_cases hstep : sh = 0 ∨ 2 ^ 52 < k
    · left
      obtain ⟨j, rfl⟩ : ∃ j, k = j + 1 := ⟨k - 1, by omega⟩
      obtain rfl : m = sh * 2 ^ 52 + j := by omega
      rw [twiceMid, hm, hunits, unitsOfMag_multiple (by omega) (by omega), hD]
      ring
    · right
      obtain rfl : k = 2 ^ 52 := by omega
      have hlt : unitsOfMag m < 2 ^ 52 * 2 ^ sh := hunits ▸ unitsOfMag_strictMono (by omega)
      have hle := hfirst (by omega)
      rw [twiceMid, hm, hunits]
      calc (unitsOfMag m + 2 ^ 52 * 2 ^ sh) * d < (2 ^ 52 * 2 ^ sh + 2 ^ 52 * 2 ^ sh) * d :=
            Nat.mul_lt_mul_of_pos_right (by omega) hd
        _ = 2 * (2 ^ 52 * D) := by rw [hD]; ring
        _ ≤ 2 * n := by omega
  refine ⟨hup.trans habove, fun h => ?_, fun m hm => ?_, fun m hm h => ?_⟩
  · rw [hparity]
    exact heven (.inr (le_antisymm hup (h ▸ habove)))
  · rcases hbelow m hm with h | h <;> omega
  · rw [hparity]
    rcases hbelow m hm with h' | h'
    · exact heven (.inl (by omega))
    · omega

/-- The rounding without the cap at infinity. -/
theorem rounds_roundHalfEven (n : Nat) {d : Nat} (hd : 0 < d) :
    Rounds n d ((Nat.log2 (n / d) - 52) * 2 ^ 52 +
      roundHalfEven n (d * 2 ^ (Nat.log2 (n / d) - 52))) := by
  have hlog : n / d < 2 ^ (Nat.log2 (n / d) + 1) := Nat.lt_log2_self
  have hpow : Nat.log2 (n / d) - 52 ≠ 0 → 2 ^ Nat.log2 (n / d) ≤ n / d := fun h =>
    Nat.log2_self_le (by rintro h0; rw [h0] at h; simp at h)
  generalize hsh : Nat.log2 (n / d) - 52 = sh at *
  obtain ⟨D, hD⟩ : ∃ D, D = d * 2 ^ sh := ⟨_, rfl⟩
  rw [← hD]
  have hDpos : 0 < D := by rw [hD]; positivity
  obtain ⟨hdown, hup, heven⟩ := roundHalfEven_spec n D hDpos
  have hn : n < 2 ^ 53 * D := by
    have hq : n / d < 2 ^ 53 * 2 ^ sh := by
      rw [← pow_add]
      exact hlog.trans_le (Nat.pow_le_pow_right (by decide) (by omega))
    rw [hD, show 2 ^ 53 * (d * 2 ^ sh) = 2 ^ 53 * 2 ^ sh * d by ring]
    exact (Nat.div_lt_iff_lt_mul hd).mp hq
  have hfirst : sh ≠ 0 → 2 ^ 52 * D ≤ n := fun h => by
    have hq : 2 ^ 52 * 2 ^ sh ≤ n / d := by
      rw [← pow_add, show 52 + sh = Nat.log2 (n / d) by omega]
      exact hpow (by omega)
    rw [hD, show 2 ^ 52 * (d * 2 ^ sh) = 2 ^ 52 * 2 ^ sh * d by ring]
    exact (Nat.le_div_iff_mul_le hd).mp hq
  refine rounds_multiple hD hd ?_ ?_ hup hdown heven hfirst
  · by_contra h
    have : (2 ^ 53 + 1) * D ≤ roundHalfEven n D * D := Nat.mul_le_mul_right D (by omega)
    omega
  · by_contra! h
    have : (roundHalfEven n D + 1) * D ≤ 2 ^ 52 * D := Nat.mul_le_mul_right D (by omega)
    have := hfirst h.1
    rw [Nat.add_mul] at *
    omega

/-! ### The capped rounding -/

theorem Rounds.le_iff {n d r m : Nat} (h : Rounds n d r) (hd : 0 < d) :
    r ≤ m ↔ 2 * n < twiceMid m * d ∨ (2 * n = twiceMid m * d ∧ m % 2 = 0) := by
  constructor
  · intro hr
    rcases hr.lt_or_eq with hlt | rfl
    · exact .inl (h.upper.trans_lt (Nat.mul_lt_mul_of_pos_right (twiceMid_strictMono hlt) hd))
    · rcases h.upper.lt_or_eq with hup | hup
      · exact .inl hup
      · exact .inr ⟨hup, h.upperEven hup⟩
  · intro hmid
    by_contra! hr
    obtain ⟨j, rfl⟩ : ∃ j, r = j + 1 := ⟨r - 1, by omega⟩
    have hj := h.lower j rfl
    have hmono : twiceMid m * d ≤ twiceMid j * d :=
      Nat.mul_le_mul_right d (twiceMid_strictMono.monotone (by omega))
    rcases hmid with hmid | ⟨hmid, heven⟩
    · omega
    · have heq : twiceMid j * d = twiceMid m * d := by omega
      obtain rfl : j = m := twiceMid_strictMono.injective (Nat.eq_of_mul_eq_mul_right hd heq)
      have := h.lowerEven j rfl (by omega)
      omega

/-- A finite pattern is an upper bound of a rounding exactly when the value is at most the midpoint above it, and
on that midpoint when the pattern is even. -/
theorem roundMag_le_iff {n d m : Nat} (hd : 0 < d) (hm : m < infMag) :
    roundMag n d ≤ m ↔ 2 * n < twiceMid m * d ∨ (2 * n = twiceMid m * d ∧ m % 2 = 0) := by
  rw [← (rounds_roundHalfEven n hd).le_iff hd, roundMag]
  omega

/-- A rounding below infinity is the nearest one among all patterns. -/
theorem rounds_roundMag {n d : Nat} (hd : 0 < d) (h : roundMag n d < infMag) : Rounds n d (roundMag n d) := by
  have hround := rounds_roundHalfEven n hd
  rw [roundMag] at h ⊢
  rwa [min_eq_left (by omega)]

/-- Rounding is monotone in the value. -/
theorem roundMag_mono {n d n' d' : Nat} (hd : 0 < d) (hd' : 0 < d') (h : n * d' ≤ n' * d) :
    roundMag n d ≤ roundMag n' d' := by
  rcases (roundMag_le_infMag n' d').lt_or_eq with hlt | heq
  · rw [roundMag_le_iff hd hlt]
    have hscaled (m : Nat) (hm : 2 * n' ≤ twiceMid m * d') : 2 * n * d' ≤ twiceMid m * d * d' := by
      calc 2 * n * d' = 2 * (n * d') := by ring
        _ ≤ 2 * (n' * d) := by omega
        _ = 2 * n' * d := by ring
        _ ≤ twiceMid m * d' * d := Nat.mul_le_mul_right d hm
        _ = twiceMid m * d * d' := by ring
    rcases (roundMag_le_iff hd' hlt).mp le_rfl with hmid | ⟨hmid, heven⟩
    · left
      refine Nat.lt_of_mul_lt_mul_right (a := d') ?_
      calc 2 * n * d' = 2 * (n * d') := by ring
        _ ≤ 2 * (n' * d) := by omega
        _ = 2 * n' * d := by ring
        _ < twiceMid (roundMag n' d') * d' * d := Nat.mul_lt_mul_of_pos_right hmid hd
        _ = twiceMid (roundMag n' d') * d * d' := by ring
    · have hle := Nat.le_of_mul_le_mul_right (hscaled _ hmid.le) hd'
      exact hle.lt_or_eq.imp_right fun h => ⟨h, heven⟩
  · exact heq ▸ roundMag_le_infMag n d

/-- A value that is a magnitude is kept. -/
theorem roundMag_exact {n d m : Nat} (hd : 0 < d) (hm : m ≤ infMag) (h : n = unitsOfMag m * d) :
    roundMag n d = m := by
  have hmid (j : Nat) (hj : j < m) : ¬ roundMag n d ≤ j := by
    have hstep : twiceMid j < 2 * unitsOfMag m := by
      have hj' := unitsOfMag_lt hj
      have hnext : unitsOfMag (j + 1) ≤ unitsOfMag m := unitsOfMag_le hj
      rw [twiceMid]
      omega
    have : twiceMid j * d < 2 * n := by
      rw [h, ← Nat.mul_assoc]
      exact Nat.mul_lt_mul_of_pos_right hstep hd
    rw [roundMag_le_iff hd (by omega)]
    omega
  refine le_antisymm ?_ (not_lt.mp fun hlt => hmid _ hlt le_rfl)
  rcases hm.lt_or_eq with hm | rfl
  · refine (roundMag_le_iff hd hm).mpr (.inl ?_)
    rw [h, ← Nat.mul_assoc, twiceMid]
    have hnext : unitsOfMag m < unitsOfMag (m + 1) := unitsOfMag_lt (Nat.lt_succ_self m)
    exact Nat.mul_lt_mul_of_pos_right (by omega) hd
  · exact roundMag_le_infMag n d

theorem roundMag_le {n d m : Nat} (hd : 0 < d) (hm : m ≤ infMag) (h : n ≤ unitsOfMag m * d) :
    roundMag n d ≤ m := by
  rw [← roundMag_exact hd hm rfl]
  exact roundMag_mono hd hd (Nat.mul_le_mul_right d h)

theorem le_roundMag {n d m : Nat} (hd : 0 < d) (hm : m ≤ infMag) (h : unitsOfMag m * d ≤ n) :
    m ≤ roundMag n d := by
  rw [← roundMag_exact hd hm rfl]
  exact roundMag_mono hd hd (Nat.mul_le_mul_right d h)

@[simp] theorem roundMag_zero_left {d : Nat} (hd : 0 < d) : roundMag 0 d = 0 :=
  roundMag_exact hd (Nat.zero_le _) (by rw [unitsOfMag_zero, Nat.zero_mul])

/-! ### The nearest value -/

section nearest
variable {α : Type*} [Field α] [LinearOrder α] [IsStrictOrderedRing α]

/-- Of two values, the one on the side of `x` seen from their midpoint is nearer to it, and both are as near only
where `x` is the midpoint. -/
theorem abs_sub_le_of_mid {a b x : α} (hab : a < b) (h : a + b ≤ 2 * x) :
    |b - x| ≤ |a - x| ∧ (|b - x| = |a - x| → a + b = 2 * x) := by
  have hfactor : (a - x) ^ 2 - (b - x) ^ 2 = (b - a) * (2 * x - (a + b)) := by ring
  constructor
  · rw [← sq_le_sq, ← sub_nonneg, hfactor]
    exact mul_nonneg (by linarith) (by linarith)
  · intro heq
    have hzero : (b - a) * (2 * x - (a + b)) = 0 := by
      rw [← hfactor, sub_eq_zero]
      exact (sq_eq_sq_iff_abs_eq_abs _ _).mpr heq.symm
    rcases mul_eq_zero.mp hzero with h0 | h0 <;> linarith

/-- The same for two values above `x`. -/
theorem abs_sub_le_of_mid' {a b x : α} (hab : b < a) (h : 2 * x ≤ a + b) :
    |b - x| ≤ |a - x| ∧ (|b - x| = |a - x| → a + b = 2 * x) := by
  have hmirror := abs_sub_le_of_mid (a := -a) (b := -b) (x := -x) (by linarith) (by linarith)
  have hb : |-b - -x| = |b - x| := by rw [← abs_neg]; ring_nf
  have ha : |-a - -x| = |a - x| := by rw [← abs_neg]; ring_nf
  rw [hb, ha] at hmirror
  exact ⟨hmirror.1, fun heq => by linarith [hmirror.2 heq]⟩

end nearest

/-- No magnitude is nearer to the value than the rounding, and the rounding is even where another one is as
near. -/
theorem Rounds.nearest {n d r : Nat} (h : Rounds n d r) (hd : 0 < d) (m : Nat) :
    |(unitsOfMag r : ℚ) - n / d| ≤ |(unitsOfMag m : ℚ) - n / d| ∧
      (|(unitsOfMag r : ℚ) - n / d| = |(unitsOfMag m : ℚ) - n / d| → m ≠ r → r % 2 = 0) := by
  have hd' : (0 : ℚ) < d := by exact_mod_cast hd
  have hle (k : Nat) : k * d ≤ 2 * n ↔ (k : ℚ) ≤ 2 * (n / d) := by
    rw [← mul_div_assoc, le_div_iff₀ hd']
    exact_mod_cast Iff.rfl
  have hge (k : Nat) : 2 * n ≤ k * d ↔ 2 * ((n : ℚ) / d) ≤ k := by
    rw [← mul_div_assoc, div_le_iff₀ hd']
    exact_mod_cast Iff.rfl
  rcases lt_trichotomy m r with hlt | rfl | hgt
  · obtain ⟨j, rfl⟩ : ∃ j, r = j + 1 := ⟨r - 1, by omega⟩
    have hunits : unitsOfMag m ≤ unitsOfMag j := unitsOfMag_le (by omega)
    have hsum : (unitsOfMag m + unitsOfMag (j + 1)) * d ≤ twiceMid j * d :=
      Nat.mul_le_mul_right d (Nat.add_le_add_right hunits _)
    have hmid := (hle _).mp (hsum.trans (h.lower j rfl))
    push_cast at hmid
    obtain ⟨hnear, htie⟩ := abs_sub_le_of_mid (by exact_mod_cast unitsOfMag_lt hlt) hmid
    refine ⟨hnear, fun heq _ => h.lowerEven j rfl (le_antisymm (h.lower j rfl) ?_)⟩
    refine le_trans ((hge _).mpr ?_) hsum
    push_cast
    exact (htie heq).ge
  · exact ⟨le_rfl, fun _ hne => absurd rfl hne⟩
  · have hunits : unitsOfMag (r + 1) ≤ unitsOfMag m := unitsOfMag_le hgt
    have hsum : twiceMid r * d ≤ (unitsOfMag m + unitsOfMag r) * d :=
      Nat.mul_le_mul_right d (by rw [twiceMid]; omega)
    have hmid := (hge _).mp (h.upper.trans hsum)
    push_cast at hmid
    obtain ⟨hnear, htie⟩ := abs_sub_le_of_mid' (by exact_mod_cast unitsOfMag_lt hgt) hmid
    refine ⟨hnear, fun heq _ => h.upperEven (le_antisymm h.upper ?_)⟩
    refine le_trans hsum ((hle _).mpr ?_)
    push_cast
    exact (htie heq).le

/-- Nor is a negative one. -/
theorem Rounds.nearest_neg {n d r : Nat} (h : Rounds n d r) (hd : 0 < d) (m : Nat) :
    |(unitsOfMag r : ℚ) - n / d| ≤ |-(unitsOfMag m : ℚ) - n / d| ∧
      (|(unitsOfMag r : ℚ) - n / d| = |-(unitsOfMag m : ℚ) - n / d| → (m ≠ 0 ∨ r ≠ 0) → r % 2 = 0) := by
  have hx : (0 : ℚ) ≤ n / d := by positivity
  have hu : (0 : ℚ) ≤ unitsOfMag m := by positivity
  obtain ⟨hzero, htie⟩ := h.nearest hd 0
  have habs0 : |((unitsOfMag 0 : Nat) : ℚ) - n / d| = n / d := by
    rw [unitsOfMag_zero, Nat.cast_zero, zero_sub, abs_neg, abs_of_nonneg hx]
  have habs : |-(unitsOfMag m : ℚ) - n / d| = unitsOfMag m + n / d := by
    rw [← abs_neg, abs_of_nonneg] <;> linarith
  rw [habs0] at hzero htie
  rw [habs]
  refine ⟨by linarith, fun heq hne => htie (by linarith) fun hr => hne.elim (fun hm => hm ?_) fun hr' => hr' hr.symm⟩
  have hm0 : unitsOfMag m = 0 := by
    have : (unitsOfMag m : ℚ) = 0 := by linarith
    exact_mod_cast this
  exact unitsOfMag_strictMono.injective (hm0.trans unitsOfMag_zero.symm)

/-! ### Patterns as rationals -/

/-- The sign of a pattern. -/
def signOf (neg : Bool) : ℚ := if neg then -1 else 1

@[simp] theorem abs_signOf (neg : Bool) : |signOf neg| = 1 := by
  cases neg <;> simp [signOf]

theorem signOf_mul_self (neg : Bool) : signOf neg * signOf neg = 1 := by
  cases neg <;> simp [signOf]

theorem signOf_xor (a b : Bool) : signOf (a != b) = signOf a * signOf b := by
  cases a <;> cases b <;> simp [signOf]

theorem units_eq (w : F) : (units w : ℚ) = signOf (sign w) * unitsOfMag (magField w) := by
  cases h : sign w <;> simp [units, signOf, h, magUnits_eq]

theorem toRat_eq_units {w : F} (h : isFinite w = true) : toRat w = units w / 2 ^ 1074 := by
  rw [toRat_of_isFinite h, Rat.mkRat_eq_div, Nat.cast_pow, Nat.cast_ofNat]

theorem toRat_eq {w : F} (h : isFinite w = true) :
    toRat w = signOf (sign w) * unitsOfMag (magField w) / 2 ^ 1074 := by
  rw [toRat_eq_units h, units_eq]

theorem toRat_pack (neg : Bool) {mag : Nat} (h : mag < infMag) :
    toRat (pack neg mag) = signOf neg * unitsOfMag mag / 2 ^ 1074 := by
  have hlt : mag < 2 ^ 63 := h.trans (by decide)
  rw [toRat_eq ((isFinite_pack neg hlt).mpr h), sign_pack neg hlt, magField_pack neg hlt]

/-- A pattern is the one of its sign and magnitude. -/
theorem pack_sign_magField (w : F) : pack (sign w) (magField w) = w := by
  have hlt := magField_lt w
  refine BitVec.eq_of_toNat_eq ?_
  rw [pack_toNat _ hlt, sign, BitVec.msb_eq_decide, magField]
  have := w.isLt
  split <;> simp_all
  omega

/-- A rounded quotient with a sign is the value nearest to the exact one. -/
theorem nearestEven_pack {neg : Bool} {n d : Nat} (hd : 0 < d)
    (hf : isFinite (pack neg (roundMag n d)) = true) :
    NearestEven (signOf neg * (n / d) / 2 ^ 1074) (pack neg (roundMag n d)) := by
  have hlt := roundMag_lt n d
  have hinf : roundMag n d < infMag := (isFinite_pack neg hlt).mp hf
  have hnear := rounds_roundMag hd hinf
  generalize roundMag n d = r at *
  have hB : (0 : ℚ) < 2 ^ 1074 := by positivity
  have hr : |toRat (pack neg r) - signOf neg * (n / d) / 2 ^ 1074| = |(unitsOfMag r : ℚ) - n / d| / 2 ^ 1074 := by
    rw [toRat_pack neg hinf, ← sub_div, ← mul_sub, abs_div, abs_mul, abs_signOf, one_mul, abs_of_pos hB]
  have hparity : (pack neg r).toNat % 2 = r % 2 := by
    rw [pack_toNat neg hlt]
    split <;> omega
  intro c hc
  have hc' : |toRat c - signOf neg * (n / d) / 2 ^ 1074| =
      |signOf neg * signOf (sign c) * unitsOfMag (magField c) - n / d| / 2 ^ 1074 := by
    have hfactor : toRat c - signOf neg * (n / d) / 2 ^ 1074 =
        signOf neg * (signOf neg * signOf (sign c) * unitsOfMag (magField c) - n / d) / 2 ^ 1074 := by
      rw [toRat_eq hc, mul_sub, ← mul_assoc, ← mul_assoc, signOf_mul_self, one_mul, sub_div]
    rw [hfactor, abs_div, abs_mul, abs_signOf, one_mul, abs_of_pos hB]
  rw [hr, hc', hparity, div_le_div_iff_of_pos_right hB, div_left_inj' hB.ne']
  by_cases hsign : sign c = neg
  · rw [hsign, signOf_mul_self, one_mul]
    obtain ⟨hle, htie⟩ := hnear.nearest hd (magField c)
    refine ⟨hle, fun heq hne => htie heq ?_⟩
    rintro rfl
    exact hne (by rw [← hsign, pack_sign_magField])
  · have hopposite : signOf neg * signOf (sign c) = -1 := by
      cases hs : sign c <;> cases hn : neg <;> simp_all [signOf]
    rw [hopposite, neg_one_mul]
    obtain ⟨hle, htie⟩ := hnear.nearest_neg hd (magField c)
    refine ⟨hle, fun heq hne => htie heq (or_iff_not_and_not.mpr fun ⟨hm, hr0⟩ => hne ?_)⟩
    rw [not_not] at hm hr0
    rw [toRat_eq hc, toRat_pack neg hinf, hm, hr0, unitsOfMag_zero, Nat.cast_zero, mul_zero, mul_zero]

/-- A value that stands for itself is the nearest one. -/
theorem nearestEven_self {x : ℚ} {r : F} (h : toRat r = x) : NearestEven x r := by
  subst h
  intro c _
  simp only [sub_self, abs_zero, abs_nonneg, true_and]
  exact fun heq hne => absurd (sub_eq_zero.mp (abs_eq_zero.mp heq.symm)) hne

/-! ### The arithmetic operations round once -/

section arithmetic
variable {a b : F} (ha : isFinite a = true) (hb : isFinite b = true)
include ha hb

theorem add_of_isFinite : add a b = roundSum (sign a && sign b) (units a + units b) := by
  simp [add, not_isNaN_of_isFinite, not_isInf_of_isFinite, ha, hb]

theorem sub_of_isFinite : sub a b = roundSum (sign a && !sign b) (units a - units b) := by
  simp [sub, not_isNaN_of_isFinite, not_isInf_of_isFinite, ha, hb]

theorem mul_of_isFinite :
    mul a b = pack (sign a != sign b) (roundMag (magUnits a * magUnits b) (2 ^ 1074)) := by
  simp only [mul, not_isNaN_of_isFinite, not_isInf_of_isFinite, ha, hb, Bool.or_self, Bool.false_eq_true, if_false]

theorem div_of_isFinite (h0 : isZero b = false) :
    div a b = pack (sign a != sign b) (roundMag (magUnits a * 2 ^ 1074) (magUnits b)) := by
  simp only [div, not_isNaN_of_isFinite, not_isInf_of_isFinite, ha, hb, h0, Bool.or_self, Bool.false_eq_true,
    if_false]

end arithmetic

theorem isZero_iff {w : F} : isZero w = true ↔ magField w = 0 := by
  rw [isZero, beq_iff_eq]

theorem magUnits_eq_zero_iff {w : F} : magUnits w = 0 ↔ isZero w = true := by
  rw [magUnits_eq, isZero_iff]
  exact unitsOfMag_strictMono.injective.eq_iff (b := 0)

theorem magUnits_pos {w : F} (h : isZero w = false) : 0 < magUnits w :=
  Nat.pos_of_ne_zero fun h0 => by simp [magUnits_eq_zero_iff.mp h0] at h

theorem toRat_eq_zero_iff {w : F} (hf : isFinite w = true) : toRat w = 0 ↔ isZero w = true := by
  have hB : (2 : ℚ) ^ 1074 ≠ 0 := by positivity
  have hs : signOf (sign w) ≠ 0 := fun h => by simpa [h] using abs_signOf (sign w)
  rw [toRat_eq hf, ← magUnits_eq, div_eq_zero_iff, mul_eq_zero, Nat.cast_eq_zero, magUnits_eq_zero_iff]
  simp [hB, hs]

theorem signOf_mul_natAbs (z : Int) : signOf (decide (z < 0)) * (z.natAbs : ℚ) = z := by
  rw [← Int.cast_natCast, Int.natCast_natAbs]
  rcases lt_or_ge z 0 with h | h
  · simp [signOf, h, abs_of_neg h]
  · simp [signOf, h.not_gt, abs_of_nonneg h]

theorem nearestEven_roundSum {zneg : Bool} {z : Int} (hf : isFinite (roundSum zneg z) = true) :
    NearestEven (z / 2 ^ 1074) (roundSum zneg z) := by
  rw [roundSum] at hf ⊢
  split
  next hz =>
    refine nearestEven_self ?_
    rw [toRat_pack zneg (by decide), hz, unitsOfMag_zero]
    simp
  next hz =>
    rw [if_neg hz] at hf
    have hnear := nearestEven_pack Nat.one_pos hf
    rwa [Nat.cast_one, div_one, signOf_mul_natAbs] at hnear

/-- Settles O51: each operation rounds the exact result once. -/
theorem arithmeticRoundsToNearestEven : Obligations.ArithmeticRoundsToNearestEven := by
  intro a b ha hb
  have hA := toRat_eq_units ha
  have hB := toRat_eq_units hb
  refine ⟨fun hf => ?_, fun hf => ?_, fun hf => ?_, fun hb0 hf => ?_⟩
  · rw [add_of_isFinite ha hb] at hf ⊢
    have hnear := nearestEven_roundSum hf
    rwa [Int.cast_add, add_div, ← hA, ← hB] at hnear
  · rw [sub_of_isFinite ha hb] at hf ⊢
    have hnear := nearestEven_roundSum hf
    rwa [Int.cast_sub, sub_div, ← hA, ← hB] at hnear
  · rw [mul_of_isFinite ha hb] at hf ⊢
    have hnear := nearestEven_pack (by positivity) hf
    rw [toRat_eq ha, toRat_eq hb]
    convert hnear using 1
    rw [signOf_xor, magUnits_eq, magUnits_eq, Nat.cast_mul, Nat.cast_pow, Nat.cast_ofNat]
    generalize (2 : ℚ) ^ 1074 = B
    ring
  · have hzero : isZero b = false := by
      rw [ne_eq, toRat_eq_zero_iff hb] at hb0
      simpa using hb0
    rw [div_of_isFinite ha hb hzero] at hf ⊢
    have hpos := magUnits_pos hzero
    have hnear := nearestEven_pack hpos hf
    rw [toRat_eq ha, toRat_eq hb]
    convert hnear using 1
    have hb' : (magUnits b : ℚ) ≠ 0 := by positivity
    have hscale : (2 : ℚ) ^ 1074 ≠ 0 := by positivity
    rw [signOf_xor, ← magUnits_eq, ← magUnits_eq, Nat.cast_mul, Nat.cast_pow, Nat.cast_ofNat]
    generalize (2 : ℚ) ^ 1074 = B at hscale
    cases sign b <;> simp only [signOf] <;> field_simp <;> simp

/-- Settles O53: both round an exact quotient of integers once. -/
theorem literalsRoundToNearestEven : Obligations.LiteralsRoundToNearestEven := by
  have hscale : (2 : ℚ) ^ 1074 ≠ 0 := by positivity
  refine ⟨fun z hf => ?_, fun l hf => ?_⟩
  · have hnear := nearestEven_pack Nat.one_pos hf
    rw [Nat.cast_mul, Nat.cast_pow, Nat.cast_ofNat, Nat.cast_one, div_one, ← mul_assoc, signOf_mul_natAbs,
      mul_div_cancel_right₀ _ hscale] at hnear
    exact hnear
  · have hnear := nearestEven_pack (by positivity) hf
    rw [Nat.cast_mul, Nat.cast_pow, Nat.cast_ofNat, Nat.cast_pow, Nat.cast_ofNat,
      mul_div_right_comm (l.mantissa.natAbs : ℚ), ← mul_assoc, mul_div_cancel_right₀ _ hscale, ← mul_div_assoc,
      signOf_mul_natAbs] at hnear
    exact hnear

end Sys2Proof.Machine.Binary64

/-!
PROOF. The square root is correctly rounded (spec/00_scope.md R14): the truncated root with its sticky half lies on
the same side of every midpoint as the real root.
-/

namespace Sys2Proof.Machine.Binary64

/-! ### The integer square root -/

theorem isqrtFrom_spec {n k r : Nat} (hlow : r * r ≤ n) (hhigh : n < (r + 2 ^ k) * (r + 2 ^ k)) :
    isqrtFrom n k r * isqrtFrom n k r ≤ n ∧ n < (isqrtFrom n k r + 1) * (isqrtFrom n k r + 1) := by
  induction k generalizing r with
  | zero => exact ⟨hlow, hhigh⟩
  | succ k ih =>
    rw [isqrtFrom]
    split
    next hbit => exact ih hbit (by rwa [Nat.add_assoc, ← Nat.two_mul, ← pow_succ'])
    next hbit => exact ih hlow (not_le.mp hbit)

theorem isqrt_spec (n : Nat) : isqrt n * isqrt n ≤ n ∧ n < (isqrt n + 1) * (isqrt n + 1) := by
  refine isqrtFrom_spec (Nat.zero_le n) ?_
  rw [Nat.zero_add, ← pow_add]
  exact Nat.lt_log2_self.trans_le (Nat.pow_le_pow_right (by decide) (by omega))

/-! ### The root with its sticky half -/

/-- Twice the root of `m * 2^108`, truncated, with one half for what was cut off. -/
def stickyRoot (m : Nat) : Nat :=
  if isqrt (m * 2 ^ 108) * isqrt (m * 2 ^ 108) = m * 2 ^ 108 then 2 * isqrt (m * 2 ^ 108)
  else 2 * isqrt (m * 2 ^ 108) + 1

theorem sqrtMag_eq (m e : Nat) : sqrtMag m e = roundMag (stickyRoot m * 2 ^ (e / 2)) (2 ^ 55) := rfl

/-- The root of `m` with 54 binary places is on the same side of every integer as half the sticky root. -/
theorem stickyRoot_spec (m q : Nat) :
    (2 * q ≤ stickyRoot m → (q : ℝ) ≤ √m * 2 ^ 54) ∧ (stickyRoot m ≤ 2 * q → √m * 2 ^ 54 ≤ q) := by
  obtain ⟨hlow, hhigh⟩ := isqrt_spec (m * 2 ^ 108)
  have hroot : √m * 2 ^ 54 = √((m * 2 ^ 108 : Nat) : ℝ) := by
    rw [Nat.cast_mul, Real.sqrt_mul (Nat.cast_nonneg m), Nat.cast_pow, Nat.cast_ofNat,
      show (2 : ℝ) ^ 108 = (2 ^ 54) ^ 2 by norm_num, Real.sqrt_sq (by positivity)]
  have hle (j : Nat) (hj : j * j ≤ m * 2 ^ 108) : (j : ℝ) ≤ √m * 2 ^ 54 := by
    rw [hroot]
    exact Real.le_sqrt_of_sq_le (by rw [sq]; exact_mod_cast hj)
  have hge (j : Nat) (hj : m * 2 ^ 108 ≤ j * j) : √m * 2 ^ 54 ≤ j := by
    rw [hroot]
    exact Real.sqrt_le_iff.mpr ⟨Nat.cast_nonneg j, by rw [sq]; exact_mod_cast hj⟩
  rw [stickyRoot]
  generalize m * 2 ^ 108 = n at *
  generalize isqrt n = r at *
  constructor
  · intro hq
    have hqr : q ≤ r := by split at hq <;> omega
    exact hle q ((Nat.mul_le_mul hqr hqr).trans hlow)
  · intro hq
    split at hq
    next hexact => exact hge q (hexact ▸ Nat.mul_le_mul (by omega) (by omega))
    next => exact hge q (hhigh.le.trans (Nat.mul_le_mul (by omega) (by omega)))

/-- From 2^h on, twice a midpoint is a multiple of `2^h` after 53 binary places. -/
theorem exists_twiceMid_multiple {h j : Nat} (hj : 2 ^ h ≤ twiceMid j) : ∃ q, twiceMid j * 2 ^ 53 = q * 2 ^ h := by
  obtain ⟨sh, k, hk, hlow, rfl⟩ := exists_multiple j
  have hmid : twiceMid (sh * 2 ^ 52 + k) = (2 * k + 1) * 2 ^ sh := by
    rw [twiceMid, Nat.add_assoc, unitsOfMag_multiple hk.le hlow, unitsOfMag_multiple (by omega) (by omega)]
    ring
  have hbound : 2 ^ h < 2 ^ (54 + sh) := by
    rw [pow_add]
    exact (hj.trans_eq hmid).trans_lt (Nat.mul_lt_mul_of_pos_right (by omega) (by positivity))
  have hexp : h < 54 + sh := (Nat.pow_lt_pow_iff_right (by decide)).mp hbound
  refine ⟨(2 * k + 1) * 2 ^ (53 + sh - h), ?_⟩
  rw [hmid, Nat.mul_assoc, Nat.mul_assoc, ← pow_add, ← pow_add, show 53 + sh - h + h = sh + 53 by omega]

section root
variable {m : Nat} (hm : 0 < m) (h j : Nat)
include hm

theorem le_stickyRoot : 2 ^ 55 ≤ stickyRoot m := by
  obtain ⟨-, hhigh⟩ := isqrt_spec (m * 2 ^ 108)
  have hroot : 2 ^ 54 ≤ isqrt (m * 2 ^ 108) := by
    by_contra! hlt
    have : (isqrt (m * 2 ^ 108) + 1) * (isqrt (m * 2 ^ 108) + 1) ≤ 2 ^ 54 * 2 ^ 54 := Nat.mul_le_mul hlt hlt
    omega
  rw [stickyRoot]
  split <;> omega

/-- A midpoint is below the real root where it is below the sticky one. -/
theorem twiceMid_le_sqrt (hmid : twiceMid j * 2 ^ 55 ≤ 2 * (stickyRoot m * 2 ^ h)) :
    (twiceMid j : ℝ) ≤ 2 * (√m * 2 ^ h) := by
  rcases Nat.lt_or_ge (twiceMid j) (2 ^ h) with hsmall | hlarge
  · have hone : (1 : ℝ) ≤ √m := Real.one_le_sqrt.mpr (by exact_mod_cast hm)
    have hsmall' : (twiceMid j : ℝ) < 2 ^ h := by exact_mod_cast hsmall
    have hpow : (0 : ℝ) < 2 ^ h := by positivity
    nlinarith
  · obtain ⟨q, hq⟩ := exists_twiceMid_multiple hlarge
    have hqle : 2 * q ≤ stickyRoot m := by
      refine Nat.le_of_mul_le_mul_right (c := 2 * 2 ^ h) ?_ (by positivity)
      calc 2 * q * (2 * 2 ^ h) = 2 ^ 2 * (q * 2 ^ h) := by ring
        _ = twiceMid j * 2 ^ 55 := by rw [← hq]; ring
        _ ≤ _ := hmid
        _ = _ := by ring
    have hroot := (stickyRoot_spec m q).1 hqle
    have hq' : (twiceMid j : ℝ) * 2 ^ 53 = q * 2 ^ h := by exact_mod_cast hq
    have hmul := mul_le_mul_of_nonneg_right hroot (show (0 : ℝ) ≤ 2 ^ h by positivity)
    rw [← hq'] at hmul
    linarith

/-- And above it where it is above the sticky one. -/
theorem sqrt_le_twiceMid (hmid : 2 * (stickyRoot m * 2 ^ h) ≤ twiceMid j * 2 ^ 55) :
    2 * (√m * 2 ^ h) ≤ (twiceMid j : ℝ) := by
  have hlarge : 2 ^ h ≤ twiceMid j := by
    have := Nat.mul_le_mul_right (2 ^ h) (le_stickyRoot hm)
    omega
  obtain ⟨q, hq⟩ := exists_twiceMid_multiple hlarge
  have hqle : stickyRoot m ≤ 2 * q := by
    refine Nat.le_of_mul_le_mul_right (c := 2 * 2 ^ h) ?_ (by positivity)
    calc stickyRoot m * (2 * 2 ^ h) = 2 * (stickyRoot m * 2 ^ h) := by ring
      _ ≤ _ := hmid
      _ = 2 ^ 2 * (twiceMid j * 2 ^ 53) := by ring
      _ = 2 * q * (2 * 2 ^ h) := by rw [hq]; ring
  have hroot := (stickyRoot_spec m q).2 hqle
  have hq' : (twiceMid j : ℝ) * 2 ^ 53 = q * 2 ^ h := by exact_mod_cast hq
  have hmul := mul_le_mul_of_nonneg_right hroot (show (0 : ℝ) ≤ 2 ^ h by positivity)
  rw [← hq'] at hmul
  linarith

end root

/-- No magnitude is nearer to the real root than the rounded one. -/
theorem sqrtMag_nearest {m e : Nat} (hm : 0 < m) (hfin : sqrtMag m e < infMag) (j : Nat) :
    |(unitsOfMag (sqrtMag m e) : ℝ) - √m * 2 ^ (e / 2)| ≤ |(unitsOfMag j : ℝ) - √m * 2 ^ (e / 2)| := by
  have hround : Rounds (stickyRoot m * 2 ^ (e / 2)) (2 ^ 55) (sqrtMag m e) := by
    rw [sqrtMag_eq] at hfin ⊢
    exact rounds_roundMag (by positivity) hfin
  generalize sqrtMag m e = r at *
  rcases lt_trichotomy j r with hlt | rfl | hgt
  · obtain ⟨k, rfl⟩ : ∃ k, r = k + 1 := ⟨r - 1, by omega⟩
    have hmid := twiceMid_le_sqrt hm _ _ (hround.lower k rfl)
    have hunits : (unitsOfMag j : ℝ) ≤ unitsOfMag k := by exact_mod_cast unitsOfMag_le (by omega)
    rw [twiceMid, Nat.cast_add] at hmid
    exact (abs_sub_le_of_mid (by exact_mod_cast unitsOfMag_lt hlt) (by linarith)).1
  · exact le_rfl
  · have hmid := sqrt_le_twiceMid hm _ _ hround.upper
    have hunits : (unitsOfMag (r + 1) : ℝ) ≤ unitsOfMag j := by exact_mod_cast unitsOfMag_le hgt
    rw [twiceMid, Nat.cast_add] at hmid
    exact (abs_sub_le_of_mid' (by exact_mod_cast unitsOfMag_lt hgt) (by linarith)).1

/-- The root of every finite operand is far below infinity. -/
theorem sqrtMag_lt_infMag {m e : Nat} (hm : m < 2 ^ 54) (he : e ≤ 3120) : sqrtMag m e < infMag := by
  have hsticky : stickyRoot m ≤ 2 ^ 82 := by
    obtain ⟨hlow, -⟩ := isqrt_spec (m * 2 ^ 108)
    have hroot : isqrt (m * 2 ^ 108) < 2 ^ 81 := by
      by_contra! hge
      have : 2 ^ 81 * 2 ^ 81 ≤ isqrt (m * 2 ^ 108) * isqrt (m * 2 ^ 108) := Nat.mul_le_mul hge hge
      omega
    rw [stickyRoot]
    split <;> omega
  have hpow : 2 ^ (e / 2) ≤ 2 ^ 1560 := by gcongr <;> omega
  have hmax : 2 ^ 82 * 2 ^ 1560 ≤ unitsOfMag (infMag - 1) * 2 ^ 55 := by decide +kernel
  have hle : sqrtMag m e ≤ infMag - 1 :=
    (sqrtMag_eq m e).trans_le (roundMag_le (by positivity) (Nat.sub_le _ _) ((Nat.mul_le_mul hsticky hpow).trans hmax))
  exact Nat.lt_of_le_of_lt hle (by decide)

/-! ### The square root of a pattern -/

theorem toRat_of_sign {w : F} (hf : isFinite w = true) (hs : sign w = false) :
    toRat w = magUnits w / 2 ^ 1074 := by
  rw [toRat_eq hf, hs, ← magUnits_eq, signOf, if_neg Bool.false_ne_true, one_mul]

theorem sign_of_toRat_pos {w : F} (hf : isFinite w = true) (h : 0 < toRat w) : sign w = false := by
  by_contra hs
  have hle : toRat w ≤ 0 := by
    rw [toRat_eq hf, Bool.eq_true_of_not_eq_false hs, signOf, if_pos rfl, neg_one_mul, neg_div]
    exact neg_nonpos.mpr (by positivity)
  exact hle.not_gt h

/-- A positive operand is `m * 2^e` units times 2^(-1074), `e` even, and its root the rounded one of that. -/
theorem sqrt_of_pos {a : F} (hf : isFinite a = true) (hs : sign a = false) (h0 : isZero a = false) :
    ∃ m e, 0 < m ∧ m < 2 ^ 54 ∧ e ≤ 3120 ∧ e % 2 = 0 ∧ magUnits a * 2 ^ 1074 = m * 2 ^ e ∧
      sqrt a = pack false (sqrtMag m e) := by
  obtain ⟨m, x, hm, hlt, hx, hunits, hsqrt⟩ : ∃ m x, 0 < m ∧ m < 2 ^ 53 ∧ x ≤ 3120 ∧
      magUnits a * 2 ^ 1074 = m * 2 ^ x ∧ sqrt a =
        if x % 2 = 0 then pack false (sqrtMag m x) else pack false (sqrtMag (2 * m) (x - 1)) := by
    refine ⟨if expField a = 0 then fracField a else 2 ^ 52 + fracField a, expField a - 1 + 1074, ?_, ?_, ?_, ?_, ?_⟩
    · have hpos := magUnits_pos h0
      rw [magUnits] at hpos
      split <;> simp_all
    · have : fracField a < 2 ^ 52 := Nat.mod_lt _ (by decide)
      split <;> omega
    · have : expField a < 2048 := Nat.mod_lt _ (by decide)
      omega
    · rw [magUnits, pow_add, ← Nat.mul_assoc]
      split
      next h => rw [h, pow_zero, Nat.mul_one]
      next => rfl
    · simp only [sqrt, not_isNaN_of_isFinite hf, not_isInf_of_isFinite hf, hs, h0, Bool.false_eq_true, if_false]
  by_cases heven : x % 2 = 0
  · exact ⟨m, x, hm, by omega, hx, heven, hunits, by rw [hsqrt, if_pos heven]⟩
  · refine ⟨2 * m, x - 1, by omega, by omega, by omega, by omega, ?_, by rw [hsqrt, if_neg heven]⟩
    obtain ⟨y, rfl⟩ : ∃ y, x = y + 1 := ⟨x - 1, by omega⟩
    rw [hunits, Nat.add_sub_cancel, pow_succ]
    ring

/-- A magnitude is not nearer to a value that is not negative when its sign is negative. -/
theorem abs_sub_le_neg {y u : ℝ} (hy : 0 ≤ y) (hu : 0 ≤ u) : |0 - y| ≤ |-u - y| := by
  rw [← abs_neg, ← abs_neg (-u - y), abs_of_nonneg, abs_of_nonneg] <;> linarith

/-- Settles O52: the root's magnitude is the nearest one, and a negative candidate is no nearer than zero. -/
theorem squareRootRoundsToNearest : Obligations.SquareRootRoundsToNearest := by
  intro a c hf hnonneg hc
  by_cases h0 : isZero a = true
  · have hsqrt : sqrt a = a := by simp [sqrt, not_isNaN_of_isFinite hf, h0]
    rw [hsqrt, (toRat_eq_zero_iff hf).mpr h0]
    exact ⟨hf, by simp⟩
  have h0 : isZero a = false := by simpa using h0
  have hB : (0 : ℝ) < 2 ^ 1074 := by positivity
  have hs : sign a = false := sign_of_toRat_pos hf (hnonneg.lt_of_ne' fun h => by
    simp [(toRat_eq_zero_iff hf).mp h] at h0)
  obtain ⟨m, e, hm, hlt, he, heven, hunits, hsqrt⟩ := sqrt_of_pos hf hs h0
  have hfin := sqrtMag_lt_infMag hlt he
  have hroot : √((toRat a : ℚ) : ℝ) = √m * 2 ^ (e / 2) / 2 ^ 1074 := by
    have hscaled : ((toRat a : ℚ) : ℝ) * 2 ^ 1074 * 2 ^ 1074 = m * (2 ^ (e / 2)) ^ 2 := by
      rw [← pow_mul, Nat.div_mul_cancel (Nat.dvd_of_mod_eq_zero heven), toRat_of_sign hf hs, Rat.cast_div,
        Rat.cast_pow, Rat.cast_ofNat, Rat.cast_natCast, div_mul_cancel₀ _ hB.ne']
      simpa only [Nat.cast_mul, Nat.cast_pow, Nat.cast_ofNat] using congrArg (Nat.cast (R := ℝ)) hunits
    rw [eq_div_iff hB.ne', ← Real.sqrt_sq hB.le, ← Real.sqrt_mul' _ (sq_nonneg _), sq, ← mul_assoc, hscaled,
      Real.sqrt_mul (Nat.cast_nonneg m), Real.sqrt_sq (by positivity)]
  have hres : ((toRat (sqrt a) : ℚ) : ℝ) = unitsOfMag (sqrtMag m e) / 2 ^ 1074 := by
    rw [hsqrt, toRat_pack false hfin]
    simp [signOf]
  have hcand : ((toRat c : ℚ) : ℝ) = signOf (sign c) * unitsOfMag (magField c) / 2 ^ 1074 := by
    rw [toRat_eq hc]
    push_cast
    rfl
  refine ⟨by rw [hsqrt]; exact (isFinite_pack _ (hfin.trans (by decide))).mpr hfin, ?_⟩
  rw [hroot, hres, hcand, ← sub_div, ← sub_div, abs_div, abs_div]
  refine div_le_div_of_nonneg_right ?_ (abs_nonneg _)
  cases hsign : sign c with
  | false =>
    simpa [signOf] using sqrtMag_nearest hm hfin (magField c)
  | true =>
    have hzero := sqrtMag_nearest hm hfin 0
    rw [unitsOfMag_zero, Nat.cast_zero] at hzero
    have hy : 0 ≤ √(m : ℝ) * 2 ^ (e / 2) := by positivity
    refine hzero.trans ?_
    simpa [signOf] using abs_sub_le_neg hy (Nat.cast_nonneg (unitsOfMag (magField c)))

end Sys2Proof.Machine.Binary64

/-!
PROOF. The order of the finite values, and what the operations of the reference numerics keep of it (spec/00_scope.md
R13, R14): comparisons are those of the exact values, small integers are exact, and on values that are not negative
each operation is monotone.
-/

namespace Sys2Proof.Machine.Binary64

/-! ### Comparisons are those of the exact values -/

theorem units_lt_iff {a b : F} : units a < units b ↔ rank a < rank b := by
  have hlt : unitsOfMag (magField a) < unitsOfMag (magField b) ↔ magField a < magField b :=
    unitsOfMag_strictMono.lt_iff_lt
  have hgt : unitsOfMag (magField b) < unitsOfMag (magField a) ↔ magField b < magField a :=
    unitsOfMag_strictMono.lt_iff_lt
  have ha : unitsOfMag (magField a) = 0 ↔ magField a = 0 := unitsOfMag_strictMono.injective.eq_iff (b := 0)
  have hb : unitsOfMag (magField b) = 0 ↔ magField b = 0 := unitsOfMag_strictMono.injective.eq_iff (b := 0)
  simp only [units, rank, magUnits_eq]
  split <;> split <;> omega

section compare
variable {a b : F} (ha : isFinite a = true) (hb : isFinite b = true)
include ha hb

theorem lt_iff_toRat : lt a b = true ↔ toRat a < toRat b := by
  have hB : (0 : ℚ) < 2 ^ 1074 := by positivity
  rw [toRat_eq_units ha, toRat_eq_units hb, div_lt_div_iff_of_pos_right hB, Int.cast_lt, units_lt_iff]
  simp [lt, not_isNaN_of_isFinite, ha, hb]

theorem le_iff_toRat : le a b = true ↔ toRat a ≤ toRat b := by
  have hB : (0 : ℚ) < 2 ^ 1074 := by positivity
  rw [toRat_eq_units ha, toRat_eq_units hb, div_le_div_iff_of_pos_right hB, Int.cast_le, ← not_lt, units_lt_iff,
    not_lt]
  simp [le, not_isNaN_of_isFinite, ha, hb]

end compare

/-! ### Small integers are exact -/

/-- An integer of at most 53 bits has a pattern. -/
theorem exists_unitsOfMag_nat {k : Nat} (hk : k ≤ 2 ^ 53) :
    ∃ m, m < infMag ∧ unitsOfMag m = k * 2 ^ 1074 := by
  rcases Nat.eq_zero_or_pos k with rfl | hpos
  · exact ⟨0, by decide, by rw [unitsOfMag_zero, Nat.zero_mul]⟩
  have hlow : 2 ^ Nat.log2 k ≤ k := Nat.log2_self_le hpos.ne'
  have hhigh : k < 2 ^ (Nat.log2 k + 1) := Nat.lt_log2_self
  have hlog : Nat.log2 k ≤ 53 := (Nat.pow_le_pow_iff_right (by decide)).mp (hlow.trans hk)
  obtain ⟨j, hj⟩ : ∃ j, j = 52 - Nat.log2 k := ⟨_, rfl⟩
  have hfirst : 2 ^ 52 ≤ k * 2 ^ j := by
    calc 2 ^ 52 ≤ 2 ^ (Nat.log2 k + j) := Nat.pow_le_pow_right (by decide) (by omega)
      _ ≤ k * 2 ^ j := by rw [pow_add]; exact Nat.mul_le_mul_right _ hlow
  have hlast : k * 2 ^ j ≤ 2 ^ 53 := by
    rcases Nat.eq_zero_or_pos j with rfl | hj0
    · simpa using hk
    · calc k * 2 ^ j ≤ 2 ^ (Nat.log2 k + 1) * 2 ^ j := Nat.mul_le_mul_right _ hhigh.le
        _ = 2 ^ 53 := by rw [← pow_add]; congr 1; omega
  refine ⟨(1074 - j) * 2 ^ 52 + k * 2 ^ j, ?_, ?_⟩
  · have hinf : 1074 * 2 ^ 52 + 2 ^ 53 < infMag := by norm_num [infMag]
    exact (Nat.add_le_add (Nat.mul_le_mul_right _ (Nat.sub_le 1074 j)) hlast).trans_lt hinf
  · rw [unitsOfMag_multiple hlast (.inr hfirst), Nat.mul_assoc, ← pow_add, Nat.add_sub_cancel' (by omega)]

theorem ofInt_natCast {k : Nat} (hk : k ≤ 2 ^ 53) :
    isFinite (ofInt k) = true ∧ sign (ofInt k) = false ∧ magUnits (ofInt k) = k * 2 ^ 1074 := by
  obtain ⟨m, hm, hunits⟩ := exists_unitsOfMag_nat hk
  have hround : roundMag ((k : Int).natAbs * 2 ^ 1074) 1 = m := by
    rw [Int.natAbs_natCast, ← hunits]
    exact roundMag_exact Nat.one_pos hm.le (Nat.mul_one _).symm
  have hneg : decide ((k : Int) < 0) = false := decide_eq_false (by omega)
  have hlt : m < 2 ^ 63 := hm.trans (by decide)
  rw [ofInt, hround, hneg]
  exact ⟨(isFinite_pack _ hlt).mpr hm, sign_pack _ hlt, by rw [magUnits_eq, magField_pack _ hlt, hunits]⟩

theorem toRat_ofInt_natCast {k : Nat} (hk : k ≤ 2 ^ 53) : toRat (ofInt k) = k := by
  obtain ⟨hf, hs, hunits⟩ := ofInt_natCast hk
  have hB : (2 : ℚ) ^ 1074 ≠ 0 := by positivity
  rw [toRat_of_sign hf hs, hunits, Nat.cast_mul, Nat.cast_pow, Nat.cast_ofNat, mul_div_cancel_right₀ _ hB]

theorem isZero_ofInt_natCast {k : Nat} (hk : k ≤ 2 ^ 53) (h0 : k ≠ 0) : isZero (ofInt k) = false := by
  obtain ⟨-, -, hunits⟩ := ofInt_natCast hk
  refine Bool.eq_false_iff.mpr fun h => h0 ?_
  rw [magUnits_eq_zero_iff.mpr h] at hunits
  exact (Nat.mul_eq_zero.mp hunits.symm).resolve_right (by positivity)

/-- A sum of multiples of 2^1074 units is an integer rounded. -/
theorem roundSum_false_mul (z : Int) : roundSum false (z * (2 ^ 1074 : Nat)) = ofInt z := by
  have hpos : (0 : Int) < (2 ^ 1074 : Nat) := Int.natCast_pos.mpr (by positivity)
  rw [roundSum, ofInt, Int.natAbs_mul, Int.natAbs_natCast]
  split
  next h =>
    obtain rfl : z = 0 := (mul_eq_zero.mp h).resolve_right hpos.ne'
    rw [Int.natAbs_zero, Nat.zero_mul, roundMag_zero_left Nat.one_pos]
    rfl
  next =>
    rw [decide_eq_decide.mpr ⟨fun h => neg_of_mul_neg_left h hpos.le, fun h => mul_neg_of_neg_of_pos h hpos⟩]

theorem units_of_sign {w : F} (h : sign w = false) : units w = magUnits w := by
  rw [units, h, if_neg Bool.false_ne_true]

/-- The difference of two small integers is exact. -/
theorem sub_ofInt_natCast {j k : Nat} (hj : j ≤ 2 ^ 53) (hk : k ≤ 2 ^ 53) :
    sub (ofInt j) (ofInt k) = ofInt (j - k) := by
  obtain ⟨hjf, hjs, hju⟩ := ofInt_natCast hj
  obtain ⟨hkf, hks, hku⟩ := ofInt_natCast hk
  rw [sub_of_isFinite hjf hkf, units_of_sign hjs, units_of_sign hks, hju, hku, hjs, hks, Bool.false_and,
    ← roundSum_false_mul, sub_mul, Nat.cast_mul, Nat.cast_mul]

/-! ### Operations with zero and one -/

theorem isFinite_zero : isFinite zero = true := by decide
theorem isFinite_one : isFinite one = true := by decide
theorem magUnits_zero : magUnits zero = 0 := by decide
theorem magUnits_one : magUnits one = 2 ^ 1074 := by decide +kernel

/-- A value whose magnitude in units is exact under a rounding is that rounding. -/
theorem pack_roundMag_self (w : F) (hf : isFinite w = true) {n d : Nat} (hd : 0 < d) (h : n = magUnits w * d) :
    pack (sign w) (roundMag n d) = w := by
  rw [roundMag_exact hd ((isFinite_iff w).mp hf).le (by rw [h, magUnits_eq]), pack_sign_magField]

theorem mul_one_eq {a : F} (hf : isFinite a = true) : mul a one = a := by
  rw [mul_of_isFinite hf isFinite_one, show sign one = false by decide, Bool.bne_false, magUnits_one]
  exact pack_roundMag_self a hf (by positivity) rfl

/-- A product with zero is a zero. -/
theorem mul_zero_eq {a : F} (hf : isFinite a = true) (b : F) (hb : isZero b = true) (hbf : isFinite b = true) :
    mul a b = pack (sign a != sign b) 0 := by
  rw [mul_of_isFinite hf hbf, magUnits_eq_zero_iff.mpr hb, Nat.mul_zero, roundMag_zero_left (by positivity)]

theorem zero_mul_eq {b : F} (hf : isFinite b = true) : mul zero b = pack (sign b) 0 := by
  rw [mul_of_isFinite isFinite_zero hf, magUnits_zero, Nat.zero_mul, roundMag_zero_left (by positivity),
    show sign zero = false by decide, Bool.false_bne]

/-- Zero over a positive value is positive zero. -/
theorem zero_div_eq {b : F} (hf : isFinite b = true) (hs : sign b = false) (h0 : isZero b = false) :
    div zero b = zero := by
  rw [div_of_isFinite isFinite_zero hf h0, magUnits_zero, Nat.zero_mul, roundMag_zero_left (magUnits_pos h0), hs]
  rfl

/-- A positive value over itself is one. -/
theorem div_self_eq {a : F} (hf : isFinite a = true) (h0 : isZero a = false) : div a a = one := by
  rw [div_of_isFinite hf hf h0, bne_self_eq_false]
  exact pack_roundMag_self one isFinite_one (magUnits_pos h0) (by rw [magUnits_one, Nat.mul_comm])

theorem natAbs_units (w : F) : (units w).natAbs = magUnits w := by
  rw [units]
  split <;> simp

/-- Positive zero takes up a zero of either sign. -/
theorem zero_add_of_isZero {a : F} (hf : isFinite a = true) (h0 : isZero a = true) : add zero a = zero := by
  have hunits : units a = 0 := Int.natAbs_eq_zero.mp ((natAbs_units a).trans (magUnits_eq_zero_iff.mpr h0))
  rw [add_of_isFinite isFinite_zero hf, show sign zero = false by decide, Bool.false_and, hunits,
    show units zero + 0 = 0 by decide, roundSum, if_pos rfl]
  rfl

/-- Positive zero is neutral for every other value. -/
theorem zero_add_eq {a : F} (hf : isFinite a = true) (h0 : isZero a = false) : add zero a = a := by
  have hunits : units a ≠ 0 := fun h => by
    have := magUnits_pos h0
    rw [← natAbs_units, h] at this
    exact absurd this (by decide)
  have hneg : decide (units a < 0) = sign a := by
    rw [units] at hunits ⊢
    cases hs : sign a <;> simp_all
    omega
  rw [add_of_isFinite isFinite_zero hf, show units zero = 0 by decide, Int.zero_add, roundSum, if_neg hunits, hneg,
    natAbs_units]
  exact pack_roundMag_self a hf Nat.one_pos (Nat.mul_one _).symm

/-! ### Values that are not negative, in order -/

/-- `0 ≤ a ≤ b`, both finite and without a sign bit. -/
@[reducible] def NonnegLe (a b : F) : Prop :=
  sign a = false ∧ sign b = false ∧ magField a ≤ magField b ∧ magField b < infMag

theorem NonnegLe.isFinite_left {a b : F} (h : NonnegLe a b) : isFinite a = true :=
  (isFinite_iff a).mpr (h.2.2.1.trans_lt h.2.2.2)

theorem NonnegLe.isFinite_right {a b : F} (h : NonnegLe a b) : isFinite b = true :=
  (isFinite_iff b).mpr h.2.2.2

theorem NonnegLe.refl {a : F} (hf : isFinite a = true) (hs : sign a = false) : NonnegLe a a :=
  ⟨hs, hs, le_rfl, (isFinite_iff a).mp hf⟩

theorem NonnegLe.trans {a b c : F} (h : NonnegLe a b) (h' : NonnegLe b c) : NonnegLe a c :=
  ⟨h.1, h'.2.1, h.2.2.1.trans h'.2.2.1, h'.2.2.2⟩

theorem NonnegLe.magUnits_le {a b : F} (h : NonnegLe a b) : magUnits a ≤ magUnits b := by
  rw [magUnits_eq, magUnits_eq]
  exact unitsOfMag_le h.2.2.1

theorem NonnegLe.toRat_le {a b : F} (h : NonnegLe a b) : toRat a ≤ toRat b := by
  rw [toRat_of_sign h.isFinite_left h.1, toRat_of_sign h.isFinite_right h.2.1]
  have := h.magUnits_le
  gcongr

theorem NonnegLe.zero_left {a : F} (hf : isFinite a = true) (hs : sign a = false) : NonnegLe zero a :=
  ⟨by decide, hs, by rw [show magField zero = 0 by decide]; exact Nat.zero_le _, (isFinite_iff a).mp hf⟩

/-- Values that are above zero compare as the relation says. -/
theorem NonnegLe.of_toRat {a b : F} (ha : isFinite a = true) (hb : isFinite b = true) (hs : sign a = false)
    (hs' : sign b = false) (h : toRat a ≤ toRat b) : NonnegLe a b := by
  refine ⟨hs, hs', ?_, (isFinite_iff b).mp hb⟩
  have hle := (le_iff_toRat ha hb).mpr h
  simp only [le, Bool.and_eq_true, decide_eq_true_eq, rank, hs, hs'] at hle
  simpa using hle.2

/-- Roundings of values in order are in order. -/
theorem NonnegLe.of_roundMag {n d n' d' : Nat} (hd : 0 < d) (hd' : 0 < d') (h : n * d' ≤ n' * d)
    (hf : isFinite (pack false (roundMag n' d')) = true) :
    NonnegLe (pack false (roundMag n d)) (pack false (roundMag n' d')) := by
  have hlt := roundMag_lt n d
  have hlt' := roundMag_lt n' d'
  refine ⟨sign_pack _ hlt, sign_pack _ hlt', ?_, ?_⟩
  · rw [magField_pack _ hlt, magField_pack _ hlt']
    exact roundMag_mono hd hd' h
  · rw [magField_pack _ hlt']
    exact (isFinite_pack _ hlt').mp hf

section monotone
variable {a a' b b' : F}

theorem NonnegLe.mul (ha : NonnegLe a a') (hb : NonnegLe b b') (hf : isFinite (mul a' b') = true) :
    NonnegLe (mul a b) (mul a' b') := by
  rw [mul_of_isFinite ha.isFinite_right hb.isFinite_right, ha.2.1, hb.2.1] at hf ⊢
  rw [mul_of_isFinite ha.isFinite_left hb.isFinite_left, ha.1, hb.1]
  exact .of_roundMag (by positivity) (by positivity)
    (Nat.mul_le_mul_right _ (Nat.mul_le_mul ha.magUnits_le hb.magUnits_le)) hf

theorem NonnegLe.div (ha : NonnegLe a a') (hb : NonnegLe b' b) (h0 : isZero b' = false)
    (hf : isFinite (div a' b') = true) : NonnegLe (div a b) (div a' b') := by
  have hpos' := magUnits_pos h0
  have hpos := hpos'.trans_le hb.magUnits_le
  have h0' : isZero b = false := Bool.eq_false_iff.mpr fun h => by
    rw [magUnits_eq_zero_iff.mpr h] at hpos
    exact absurd hpos (by decide)
  rw [div_of_isFinite ha.isFinite_right hb.isFinite_left h0, ha.2.1, hb.1] at hf ⊢
  rw [div_of_isFinite ha.isFinite_left hb.isFinite_right h0', ha.1, hb.2.1]
  exact .of_roundMag hpos hpos'
    (Nat.mul_le_mul (Nat.mul_le_mul_right _ ha.magUnits_le) hb.magUnits_le) hf

/-- A sum without a sign is a rounding of its units. -/
theorem roundSum_natCast (n : Nat) : roundSum false n = pack false (roundMag n 1) := by
  rw [roundSum, Int.natAbs_natCast, decide_eq_false (show ¬ (n : Int) < 0 by omega)]
  split
  next h => rw [show n = 0 by omega, roundMag_zero_left Nat.one_pos]
  next => rfl

theorem NonnegLe.add (ha : NonnegLe a a') (hb : NonnegLe b b') (hf : isFinite (add a' b') = true) :
    NonnegLe (add a b) (add a' b') := by
  rw [add_of_isFinite ha.isFinite_right hb.isFinite_right, ha.2.1, Bool.false_and, units_of_sign ha.2.1,
    units_of_sign hb.2.1, ← Nat.cast_add, roundSum_natCast] at hf ⊢
  rw [add_of_isFinite ha.isFinite_left hb.isFinite_left, ha.1, Bool.false_and, units_of_sign ha.1,
    units_of_sign hb.1, ← Nat.cast_add, roundSum_natCast]
  have := ha.magUnits_le
  have := hb.magUnits_le
  exact .of_roundMag Nat.one_pos Nat.one_pos (by omega) hf

/-- A difference that is not negative is a rounding of its units. -/
theorem sub_of_nonnegLe (h : NonnegLe b a) : Binary64.sub a b = pack false (roundMag (magUnits a - magUnits b) 1) := by
  rw [sub_of_isFinite h.isFinite_right h.isFinite_left, h.2.1, Bool.false_and, units_of_sign h.2.1,
    units_of_sign h.1, ← Nat.cast_sub h.magUnits_le, roundSum_natCast]

theorem NonnegLe.sub (hab : NonnegLe b a) (ha : NonnegLe a a') (hb : NonnegLe b' b) :
    NonnegLe (sub a b) (sub a' b') := by
  have hle := ha.magUnits_le
  have hle' := hb.magUnits_le
  rw [sub_of_nonnegLe hab, sub_of_nonnegLe (hb.trans (hab.trans ha))]
  refine .of_roundMag Nat.one_pos Nat.one_pos (by omega) ?_
  have hinf := (isFinite_iff a').mp ha.isFinite_right
  have hbound : roundMag (magUnits a' - magUnits b') 1 ≤ magField a' :=
    roundMag_le Nat.one_pos hinf.le (by rw [← magUnits_eq]; omega)
  exact (isFinite_pack _ (roundMag_lt _ _)).mpr (hbound.trans_lt hinf)

/-- The difference stays below what it is taken from. -/
theorem NonnegLe.sub_le (hab : NonnegLe b a) : NonnegLe (Binary64.sub a b) a := by
  have hinf := (isFinite_iff a).mp hab.isFinite_right
  have hbound : roundMag (magUnits a - magUnits b) 1 ≤ magField a :=
    roundMag_le Nat.one_pos hinf.le (by rw [← magUnits_eq]; omega)
  rw [sub_of_nonnegLe hab]
  exact ⟨sign_pack _ (roundMag_lt _ _), hab.2.1, by rwa [magField_pack _ (roundMag_lt _ _)], hinf⟩

end monotone

theorem NonnegLe.le {a b : F} (h : NonnegLe a b) : le a b = true :=
  (le_iff_toRat h.isFinite_left h.isFinite_right).mpr h.toRat_le

/-- What is strictly below a value is strictly below every larger one. -/
theorem NonnegLe.lt_of_lt {a b c : F} (h : NonnegLe b c) (hf : isFinite a = true) (hlt : lt a b = true) :
    lt a c = true := by
  rw [lt_iff_toRat hf h.isFinite_left] at hlt
  exact (lt_iff_toRat hf h.isFinite_right).mpr (hlt.trans_le h.toRat_le)

/-- What is strictly above a value is strictly above every smaller one. -/
theorem NonnegLe.lt_of_le {a b c : F} (h : NonnegLe a b) (hf : isFinite c = true) (hlt : lt b c = true) :
    lt a c = true := by
  rw [lt_iff_toRat h.isFinite_right hf] at hlt
  exact (lt_iff_toRat h.isFinite_left hf).mpr (h.toRat_le.trans_lt hlt)

end Sys2Proof.Machine.Binary64

/-!
PROOF. The numeric primitives (spec/40_numeric_primitives.md): the Bessel series is the loop's sum, ends on the
arguments the core passes, and is even (R110, R112); the edges of the Kaiser window (R117); the order of a convolution
and its value on silence (R118, R119).
-/

namespace Sys2Proof.Machine

open Binary64

/-! ## The Bessel series -/

/-! ### The value is the loop's sum -/

/-- From the state after `j` passes, the loop ends with the sum of the first later pass whose test holds. -/
theorem besselLoop_besselAfter {α : Type} {N : NumOps α} {halfx : α} {k : Nat}
    (hdone : besselDone N (besselAfter N halfx k).1 (besselAfter N halfx k).2.1 = true) {fuel j : Nat}
    (hk : j + fuel = k) (hpos : j < k)
    (hbefore : ∀ i, j < i → i < k → besselDone N (besselAfter N halfx i).1 (besselAfter N halfx i).2.1 = false) :
    besselLoop N halfx fuel (besselAfter N halfx j) = some (besselAfter N halfx k).1 := by
  induction fuel generalizing j with
  | zero => omega
  | succ fuel ih =>
    have hstep : besselLoop N halfx (fuel + 1) (besselAfter N halfx j) =
        if besselDone N (besselAfter N halfx (j + 1)).1 (besselAfter N halfx (j + 1)).2.1 then
          some (besselAfter N halfx (j + 1)).1
        else besselLoop N halfx fuel (besselAfter N halfx (j + 1)) := rfl
    rw [hstep]
    rcases (Nat.succ_le_of_lt hpos).lt_or_eq with hlt | heq
    · rw [hbefore (j + 1) (by omega) hlt, if_neg Bool.false_ne_true]
      exact ih (by omega) hlt fun i hi hik => hbefore i (by omega) hik
    · rw [show j + 1 = k from heq, if_pos hdone]

/-- `i0` is the sum after the first pass whose test holds (R110), under every `NUM`. -/
theorem i0_eq_besselAfter {α : Type} {N : NumOps α} {x : α} {k : Nat} (hk : 1 ≤ k)
    (hdone : besselDone N (besselAfter N (N.div x (N.ofInt 2)) k).1
      (besselAfter N (N.div x (N.ofInt 2)) k).2.1 = true)
    (hbefore : ∀ j, 1 ≤ j → j < k → besselDone N (besselAfter N (N.div x (N.ofInt 2)) j).1
      (besselAfter N (N.div x (N.ofInt 2)) j).2.1 = false) :
    i0 N x = (besselAfter N (N.div x (N.ofInt 2)) k).1 := by
  have hstart : (N.one, N.one, N.one) = besselAfter N (N.div x (N.ofInt 2)) 0 := rfl
  rw [i0_eq_loop N x k, hstart, besselLoop_besselAfter hdone (by omega) hk fun i hi => hbefore i hi, Option.getD_some]

/-! ### The loop ends in 0..beta -/

/-- Half of beta, the largest half argument that the core passes (R112). -/
def halfBeta : F := div (kaiserBeta params) (ofInt 2)

/-- The next pass from the state `p` divides by a positive value and stays finite. -/
def passFinite (halfx : F) (p : F × F × F) : Bool :=
  let t := div halfx p.2.2
  !sign p.2.2 && !isZero p.2.2 && isFinite p.2.2 && isFinite t && isFinite (mul t t) &&
    isFinite (mul p.2.1 (mul t t)) && isFinite (add p.1 (mul p.2.1 (mul t t)))

/-- One state of the loop is below another at the same count `n`, and its sum is one at least. -/
structure PassBelow (p q : F × F × F) : Prop where
  count : p.2.2 = q.2.2
  term : NonnegLe p.2.1 q.2.1
  sum : NonnegLe p.1 q.1
  oneLe : NonnegLe one p.1

/-- A smaller half argument gives a smaller state. -/
theorem PassBelow.step {h h' : F} {p q : F × F × F} (hpq : PassBelow p q) (hh : NonnegLe h h')
    (hfin : passFinite h' q = true) :
    PassBelow (besselBody ops h p.1 p.2.1 p.2.2) (besselBody ops h' q.1 q.2.1 q.2.2) := by
  obtain ⟨hcount, hterm, hsum, hone⟩ := hpq
  simp only [passFinite, Bool.and_eq_true, Bool.not_eq_true'] at hfin
  obtain ⟨⟨⟨⟨⟨⟨hs, h0⟩, hn⟩, ht⟩, htt⟩, hm⟩, ha⟩ := hfin
  have hsame : NonnegLe q.2.2 p.2.2 := by
    rw [hcount]
    exact .refl hn hs
  have hquot : NonnegLe (div h p.2.2) (div h' q.2.2) := hh.div hsame h0 ht
  have hterm' := hterm.mul (hquot.mul hquot htt) hm
  have hsum' := hsum.add hterm' ha
  refine ⟨by rw [besselBody, besselBody, hcount], hterm', hsum', ?_⟩
  have hbelow := hone.add (NonnegLe.zero_left hterm'.isFinite_left hterm'.1) hsum'.isFinite_left
  rwa [show add one zero = one by decide +kernel] at hbelow

/-- The states with half of beta stay finite for twenty passes. -/
theorem passFinite_halfBeta : ∀ k < 20, passFinite halfBeta (besselAfter ops halfBeta k) = true := by
  decide +kernel

theorem passBelow_besselAfter {h : F} (hh : NonnegLe h halfBeta) {k : Nat} (hk : k ≤ 20) :
    PassBelow (besselAfter ops h k) (besselAfter ops halfBeta k) := by
  induction k with
  | zero =>
    have hone : NonnegLe one one := by decide
    exact ⟨rfl, hone, hone, hone⟩
  | succ k ih => exact (ih (by omega)).step hh (passFinite_halfBeta k (by omega))

/-- After twenty passes the term is below the tolerance, whose product with a sum of at least one is no smaller. -/
theorem besselDone_twenty {h : F} (hh : NonnegLe h halfBeta) :
    besselDone ops (besselAfter ops h 20).1 (besselAfter ops h 20).2.1 = true := by
  obtain ⟨-, hterm, hsum, hone⟩ := passBelow_besselAfter hh le_rfl
  have htol : NonnegLe (ofLit i0Tol) (ofLit i0Tol) := by decide +kernel
  have hmax : isFinite (mul (ofLit i0Tol) (besselAfter ops halfBeta 20).1) = true := by decide +kernel
  have hlast : lt (besselAfter ops halfBeta 20).2.1 (mul (ofLit i0Tol) one) = true := by decide +kernel
  have hbound := htol.mul hone (htol.mul hsum hmax).isFinite_left
  exact hterm.lt_of_le hbound.isFinite_right (hbound.lt_of_lt hterm.isFinite_right hlast)

/-- An argument from 0 to beta is negative zero, or without a sign and at most beta. -/
theorem nonnegLe_kaiserBeta {x : F} (h0 : le zero x = true) (h1 : le x (kaiserBeta params) = true) :
    x = 0x8000000000000000#64 ∨ NonnegLe x (kaiserBeta params) := by
  have hrank0 : 0 ≤ rank x := by
    simp only [le, Bool.and_eq_true, decide_eq_true_eq] at h0
    exact h0.2
  have hrank1 : rank x ≤ rank (kaiserBeta params) := by
    simp only [le, Bool.and_eq_true, decide_eq_true_eq] at h1
    exact h1.2
  have hbeta : sign (kaiserBeta params) = false ∧ magField (kaiserBeta params) < infMag := by decide +kernel
  rw [rank.eq_def (kaiserBeta params), hbeta.1, if_neg Bool.false_ne_true] at hrank1
  rw [rank] at hrank0 hrank1
  cases hs : sign x with
  | false => exact .inr ⟨hs, hbeta.1, by simpa [hs] using hrank1, hbeta.2⟩
  | true =>
    have hmag : magField x = 0 := by simp [hs] at hrank0; omega
    exact .inl (by rw [← pack_sign_magField x, hs, hmag]; rfl)

/-- Settles O55: the loop's sum under every `NUM`; and the states of every argument stay below those of beta. -/
theorem besselSeriesEnds : Obligations.BesselSeriesEnds := by
  refine ⟨?_, fun x h0 h1 => ?_⟩
  · intro α N x k halfx done hk hdone hbefore
    exact i0_eq_besselAfter hk hdone hbefore
  rcases nonnegLe_kaiserBeta h0 h1 with rfl | hle
  · exact ⟨1, le_rfl, by decide, by decide +kernel⟩
  · have htwo : NonnegLe (ofInt 2) (ofInt 2) := by decide +kernel
    exact ⟨20, by decide, le_rfl, besselDone_twenty (hle.div htwo (by decide +kernel) (by decide +kernel))⟩

/-! ### The series is even -/

theorem sign_xor_signBit (x : F) : sign (x ^^^ 0x8000000000000000#64) = !sign x := by
  have hbit : (0x8000000000000000#64).msb = true := by decide
  simp [sign, BitVec.msb_xor, hbit]

theorem magField_xor_signBit (x : F) : magField (x ^^^ 0x8000000000000000#64) = magField x := by
  have hbit : (0x8000000000000000#64).toNat = 2 ^ 63 := by decide
  rw [magField, magField, BitVec.toNat_xor, hbit, Nat.xor_mod_two_pow, Nat.mod_self, Nat.xor_zero]

theorem isNaN_eq (w : F) : isNaN w = decide (infMag < magField w) := by
  have hlt := magField_lt w
  rw [Bool.eq_iff_iff, isNaN, Bool.and_eq_true, beq_iff_eq, bne_iff_ne, decide_eq_true_eq, expField_eq, fracField_eq,
    infMag]
  omega

theorem isInf_eq (w : F) : isInf w = decide (magField w = infMag) := by
  have hlt := magField_lt w
  rw [Bool.eq_iff_iff, isInf, Bool.and_eq_true, beq_iff_eq, beq_iff_eq, decide_eq_true_eq, expField_eq, fracField_eq,
    infMag]
  omega

/-- The square of a number does not tell its sign. -/
theorem mul_self_pack (s s' : Bool) {m : Nat} (hm : m ≤ infMag) :
    mul (pack s m) (pack s m) = mul (pack s' m) (pack s' m) := by
  have hlt : m < 2 ^ 63 := hm.trans_lt (by decide)
  simp only [mul, isNaN_eq, isInf_eq, isZero, magUnits_eq, magField_pack _ hlt, sign_pack _ hlt, bne_self_eq_false,
    Bool.or_self, decide_eq_false (not_lt.mpr hm), Bool.false_eq_true, if_false]
  rcases hm.lt_or_eq with hm | rfl
  · simp only [decide_eq_false hm.ne, Bool.false_eq_true, if_false]
  · simp only [show (infMag == 0) = false by decide, decide_true, Bool.false_eq_true, if_true, if_false]

/-- The count `n` of a pass: a positive number, infinity among them. -/
def CountPositive (n : F) : Prop := sign n = false ∧ 0 < magField n ∧ magField n ≤ infMag

/-- A finite value over a positive number has its own sign, and a magnitude that does not depend on that sign. -/
theorem div_pack_of_countPositive {n : F} (hn : CountPositive n) {m : Nat} (hm : m < infMag) :
    ∃ q ≤ infMag, ∀ s, div (pack s m) n = pack s q := by
  obtain ⟨hs, hpos, hle⟩ := hn
  have hlt : m < 2 ^ 63 := hm.trans (by decide)
  rcases hle.lt_or_eq with hfin | hinf
  · have hf : isFinite n = true := (isFinite_iff n).mpr hfin
    have h0 : isZero n = false := by rw [isZero]; simpa using hpos.ne'
    refine ⟨roundMag (unitsOfMag m * 2 ^ 1074) (magUnits n), roundMag_le_infMag _ _, fun s => ?_⟩
    rw [div_of_isFinite ((isFinite_pack s hlt).mpr hm) hf h0, sign_pack s hlt, hs, Bool.bne_false, magUnits_eq,
      magField_pack s hlt]
  · refine ⟨0, Nat.zero_le _, fun s => ?_⟩
    simp [div, isNaN_eq, isInf_eq, magField_pack s hlt, hinf, hm.not_gt, hm.ne, sign_pack s hlt, hs]

/-- The count of the next pass is one too. -/
theorem CountPositive.add_one {n : F} (hn : CountPositive n) : CountPositive (add n one) := by
  obtain ⟨hs, hpos, hle⟩ := hn
  rcases hle.lt_or_eq with hfin | hinf
  · have hf : isFinite n = true := (isFinite_iff n).mpr hfin
    have hadd : add n one = pack false (roundMag (magUnits n + magUnits one) 1) := by
      rw [add_of_isFinite hf isFinite_one, hs, Bool.false_and, units_of_sign hs, units_of_sign (by decide),
        ← Nat.cast_add, roundSum_natCast]
    have hlt := roundMag_lt (magUnits n + magUnits one) 1
    have hone : 1 ≤ roundMag (magUnits n + magUnits one) 1 := by
      have hbound : unitsOfMag 1 * 1 ≤ magUnits one := by decide +kernel
      exact le_roundMag Nat.one_pos (by decide) (hbound.trans (Nat.le_add_left _ _))
    rw [hadd]
    exact ⟨sign_pack _ hlt, by rwa [magField_pack _ hlt], by rw [magField_pack _ hlt]; exact roundMag_le_infMag _ _⟩
  · have hone : isNaN one = false ∧ isInf one = false := by decide
    have hadd : add n one = n := by simp [add, isNaN_eq n, isInf_eq n, hinf, hone]
    rw [hadd]
    exact ⟨hs, hpos, hle⟩

/-- A pass gives the same state for a half argument of either sign. -/
theorem besselBody_pack {n : F} (hn : CountPositive n) {m : Nat} (hm : m < infMag) (s s' : Bool) (sum term : F) :
    besselBody ops (pack s m) sum term n = besselBody ops (pack s' m) sum term n := by
  obtain ⟨q, hq, hdiv⟩ := div_pack_of_countPositive hn hm
  simp only [besselBody, ops_div, ops_mul, hdiv, mul_self_pack s s' hq]

/-- Half a finite value is finite, with a magnitude that does not depend on the sign. -/
theorem exists_half (m : Nat) (hm : m < infMag) : ∃ q < infMag, ∀ s, div (pack s m) (ofInt 2) = pack s q := by
  have htwo : isFinite (ofInt 2) = true ∧ isZero (ofInt 2) = false ∧ sign (ofInt 2) = false ∧
      2 ^ 1074 ≤ magUnits (ofInt 2) := by decide +kernel
  obtain ⟨hf, h0, hs, hunits⟩ := htwo
  have hlt : m < 2 ^ 63 := hm.trans (by decide)
  refine ⟨roundMag (unitsOfMag m * 2 ^ 1074) (magUnits (ofInt 2)), ?_, fun s => ?_⟩
  · exact (roundMag_le (magUnits_pos h0) hm.le (Nat.mul_le_mul_left _ hunits)).trans_lt hm
  · rw [div_of_isFinite ((isFinite_pack s hlt).mpr hm) hf h0, sign_pack s hlt, hs, Bool.bne_false, magUnits_eq (pack s m),
      magField_pack s hlt]

/-- Settles O54: the value at 0 is evaluated; the passes of `x` and `-x` agree, since only a square sees the sign. -/
theorem besselAtZeroAndEven : Obligations.BesselAtZeroAndEven := by
  refine ⟨by decide +kernel, fun x hf => ?_⟩
  obtain ⟨q, hq, hhalf⟩ := exists_half (magField x) ((isFinite_iff x).mp hf)
  have hx : div x (ofInt 2) = pack (sign x) q := by rw [← hhalf, pack_sign_magField]
  have hx' : div (x ^^^ 0x8000000000000000#64) (ofInt 2) = pack (!sign x) q := by
    rw [← hhalf, ← sign_xor_signBit, ← magField_xor_signBit x, pack_sign_magField]
  have habs : Binary64.abs (x ^^^ 0x8000000000000000#64) = Binary64.abs x := by
    rw [Binary64.abs, Binary64.abs, magField_xor_signBit]
  have hseries : besselSeries ops (pack (!sign x) q) (one, one, one) =
      besselSeries ops (pack (sign x) q) (one, one, one) :=
    besselSeries_congr (fun p => CountPositive p.2.2) (fun p hp => besselBody_pack hp hq _ _ _ _)
      (fun p hp => hp.add_one) (show CountPositive one from ⟨by decide, by decide, by decide⟩)
  rw [i0_eq_loop ops _ 0, i0_eq_loop ops x 0]
  simp only [besselLoop, ops_div, ops_ofInt, ops_one, ops_abs, hx, hx', habs, hseries]

/-! ## The Kaiser window -/

/-- At normalized distance one and beyond the window is zero (R116, R117). -/
theorem kaiser_of_one_le {beta i0beta xt : F} (h : ge (Binary64.abs xt) one = true) :
    kaiser ops beta i0beta xt = zero := by
  rw [kaiser, ops_lt, ops_abs, ops_one, lt_eq_false_of_le h, if_neg Bool.false_ne_true, ops_zero]

/-- At the centre the window is one (R117). -/
theorem kaiser_zero : kaiser ops (kaiserBeta params) (kaiserI0Beta params) zero = one := by decide +kernel

/-- A value below one in magnitude has a square that is at most the one of the last value below one. -/
theorem mul_self_of_abs_lt_one {xt : F} (h : lt (Binary64.abs xt) one = true) :
    NonnegLe (mul xt xt) (mul 0x3FEFFFFFFFFFFFFF 0x3FEFFFFFFFFFFFFF) := by
  have hlt := magField_lt xt
  have hrank : magField xt < magField one := by
    simp only [lt, Bool.and_eq_true, decide_eq_true_eq, rank, Binary64.abs, sign_pack _ hlt, magField_pack _ hlt,
      show sign one = false by decide, Bool.false_eq_true, if_false] at h
    exact_mod_cast h.2
  have hmag : magField xt ≤ magField 0x3FEFFFFFFFFFFFFF#64 := by
    have : magField one = magField 0x3FEFFFFFFFFFFFFF#64 + 1 := by decide
    omega
  have hinf : magField one < infMag := by decide
  have hbelow : NonnegLe (pack false (magField xt)) 0x3FEFFFFFFFFFFFFF#64 :=
    ⟨sign_pack _ hlt, by decide, by rwa [magField_pack _ hlt], by decide⟩
  have hsquare : mul xt xt = mul (pack false (magField xt)) (pack false (magField xt)) := by
    conv_lhs => rw [← pack_sign_magField xt]
    exact mul_self_pack _ _ (by omega)
  rw [hsquare]
  exact hbelow.mul hbelow (by decide +kernel)

/-- Settles O56: the three places of the window. -/
theorem kaiserWindowEdges : Obligations.KaiserWindowEdges := by
  refine ⟨fun beta i0beta xt h => kaiser_of_one_le h, kaiser_zero, fun xt h => ?_⟩
  have hsquare := mul_self_of_abs_lt_one h
  have hone : NonnegLe (mul 0x3FEFFFFFFFFFFFFF 0x3FEFFFFFFFFFFFFF) one := by decide +kernel
  have hrefl : NonnegLe one one := by decide
  have hpos : lt zero (sub one (mul 0x3FEFFFFFFFFFFFFF 0x3FEFFFFFFFFFFFFF)) = true := by decide +kernel
  exact ⟨(NonnegLe.sub hone hrefl hsquare).lt_of_lt isFinite_zero hpos, (hsquare.trans hone).sub_le.le⟩

/-! ## Convolutions -/

/-- One more tap is one more rounded product added (R118). -/
theorem convolve_append_singleton (N : NumOps F) {a b : List F} (x y : F) (h : a.length = b.length) :
    convolve N (a ++ [x]) (b ++ [y]) = N.add (convolve N a b) (N.mul x y) := by
  simp [convolve, List.zip_append h]

/-- Settles O57. -/
theorem convolutionOrder : Obligations.ConvolutionOrder :=
  ⟨rfl, fun _ _ x y h => convolve_append_singleton ops x y h⟩

/-- A window of zeros gives positive zero against finite coefficients: by induction on the last tap (R119). -/
theorem convolve_replicate_zero {b : List F} (hb : ∀ c ∈ b, isFinite c = true) :
    convolve ops (List.replicate b.length zero) b = zero := by
  induction b using List.reverseRecOn with
  | nil => rfl
  | append_singleton b c ih =>
    have hc : isFinite c = true := hb c (by simp)
    have hprod : mul zero c = pack (sign c) 0 := zero_mul_eq hc
    rw [List.length_append, List.length_singleton, List.replicate_succ', convolve_append_singleton ops _ _ (by simp),
      ih fun d hd => hb d (by simp [hd]), ops_mul, hprod, ops_add]
    cases sign c <;> decide

/-- Settles O58. -/
theorem silenceConvolvesToZero : Obligations.SilenceConvolvesToZero := fun _ hb => convolve_replicate_zero hb

end Sys2Proof.Machine

/-!
PROOF. Resampler construction (spec/41_resampler_config.md): the ranges of what an accepted construction derives
(R133 to R141), and the taps of the table at the centre and at the edge of row 0 (R143, R145, R166).
-/

namespace Sys2Proof.Machine

open Binary64

/-! ## Finite operands of finite results -/

namespace Binary64

/-- A pattern with all exponent bits set is not finite. -/
theorem isFinite_or_exponent (p : F) {q : F} (hq : q = 0x7FF8000000000000#64 ∨ q = 0x7FF0000000000000#64) :
    isFinite (p ||| q) = false := by
  have hexp (w : F) : expField w = (w.extractLsb' 52 11).toNat := by
    rw [expField, BitVec.extractLsb'_toNat, Nat.shiftRight_eq_div_pow]
  have hones : (p ||| q).extractLsb' 52 11 = BitVec.allOnes 11 := by
    have hbits : q.extractLsb' 52 11 = BitVec.allOnes 11 := by
      rcases hq with rfl | rfl <;> decide
    rw [BitVec.extractLsb'_or, hbits, BitVec.or_allOnes]
  simp [isFinite, hexp, hones]

theorem isFinite_nan (op : NumOp) (a b : F) : isFinite (nan op a b) = false := by
  rw [nan, toNaN]
  split
  · exact isFinite_or_exponent _ (.inl rfl)
  · exact isFinite_or_exponent _ (.inr rfl)

theorem isFinite_pack_infMag (s : Bool) : isFinite (pack s infMag) = false := by
  cases s <;> decide

theorem isFinite_eq_not (w : F) : isFinite w = (!isNaN w && !isInf w) := by
  have hlt := magField_lt w
  rw [Bool.eq_iff_iff, isFinite_iff, isNaN_eq, isInf_eq]
  simp
  omega

/-- A finite product is one of finite values. -/
theorem isFinite_of_mul {a b : F} (h : isFinite (mul a b) = true) : isFinite a = true ∧ isFinite b = true := by
  rw [mul] at h
  split at h
  next => simp [isFinite_nan] at h
  next hnan =>
    split at h
    next => split at h <;> simp [isFinite_nan, isFinite_pack_infMag] at h
    next hinf =>
      simp only [Bool.not_eq_true, Bool.or_eq_false_iff] at hnan hinf
      simp [isFinite_eq_not, hnan, hinf]

/-- A finite quotient by a finite value is not by zero. -/
theorem isZero_of_div {a b : F} (hb : isFinite b = true) (h : isFinite (div a b) = true) : isZero b = false := by
  refine Bool.eq_false_iff.mpr fun h0 => ?_
  have hinf := not_isInf_of_isFinite hb
  rw [div] at h
  split at h
  next => simp [isFinite_nan] at h
  next =>
    split at h
    next => split at h <;> simp [isFinite_nan, isFinite_pack_infMag] at h
    next =>
      simp only [hinf, Bool.false_eq_true, if_false] at h
      split at h <;> simp [isFinite_nan, isFinite_pack_infMag] at h

/-- A finite value above zero has no sign and is not zero. -/
theorem pos_of_zero_lt {w : F} (hf : isFinite w = true) (h : lt zero w = true) :
    sign w = false ∧ isZero w = false := by
  have hpos : 0 < toRat w := by
    have := (lt_iff_toRat isFinite_zero hf).mp h
    rwa [(toRat_eq_zero_iff isFinite_zero).mpr (by decide)] at this
  refine ⟨sign_of_toRat_pos hf hpos, Bool.eq_false_iff.mpr fun h0 => ?_⟩
  rw [(toRat_eq_zero_iff hf).mpr h0] at hpos
  exact lt_irrefl _ hpos

/-- A finite value that is not below one is one at least. -/
theorem nonnegLe_one {r : F} (hf : isFinite r = true) (h : lt r one = false) : NonnegLe one r := by
  have hrat : toRat one ≤ toRat r := by
    rw [← not_lt, ← lt_iff_toRat hf isFinite_one, h]
    exact Bool.false_ne_true
  have hone : 0 < toRat one := by
    have := (lt_iff_toRat isFinite_zero isFinite_one).mp (by decide)
    rwa [(toRat_eq_zero_iff isFinite_zero).mpr (by decide)] at this
  exact .of_toRat isFinite_one hf (by decide) (sign_of_toRat_pos hf (hone.trans_le hrat)) hrat

theorem toRat_one : toRat one = 1 := by
  have := toRat_ofInt_natCast (k := 1) (by norm_num)
  rwa [show ofInt (1 : Nat) = one by decide +kernel, Nat.cast_one] at this

end Binary64

/-! ## The ranges of a design -/

section design
variable {P : Params F} (hnum : P.num = ops)
include hnum

/-- An accepted ratio is from one to 2^21 (R133). -/
theorem ratio_range {r : F} {cps : Int} (h : ratioFixed P r = some cps) :
    NonnegLe one r ∧ NonnegLe r (ofInt (2 ^ 21 : Nat)) := by
  obtain ⟨hf, hone, rfl, hmax⟩ := ratioFixed_eq_some h
  rw [hnum] at hf hone hmax
  have hr := nonnegLe_one hf hone
  have hlimit := accLimit_le P
  obtain ⟨hf', hs', -⟩ := ofInt_natCast (k := 2 ^ 21) (by norm_num)
  refine ⟨hr, .of_toRat hf hf' hr.2.1 hs' ?_⟩
  rw [toRat_ofInt_natCast (by norm_num)]
  have hlt : (toRat r * 1024).floor < 2 ^ 31 := by
    have : (toRat r * 1024).floor ≤ accLimit P - 1024 := hmax
    omega
  rw [Rat.floor_lt_iff] at hlt
  push_cast at hlt ⊢
  linarith

/-- An accepted fixed-point ratio is 1024 at least (R29). -/
theorem le_ratioFixed {r : F} {cps : Int} (h : ratioFixed P r = some cps) : 1024 ≤ cps := by
  have hrat := (ratio_range hnum h).1.toRat_le
  obtain ⟨-, -, rfl, -⟩ := ratioFixed_eq_some h
  rw [hnum, ops_toRat, Rat.le_floor_iff]
  rw [toRat_one] at hrat
  push_cast
  linarith

/-- At R9's `RES_ERR_K` an accepted ratio gives 1 to 285 rows (R141, R163). -/
theorem phaseResolution_range (hres : P.resErrK = params.resErrK) {r : F} {cps : Int}
    (h : ratioFixed P r = some cps) : 1 ≤ phaseResolution P r ∧ phaseResolution P r ≤ 285 := by
  obtain ⟨hlow, hhigh⟩ := ratio_range hnum h
  have hphase : phaseResolution P r = phaseResolution params r := by
    rw [phaseResolution, phaseResolution, hnum, hres, params_num]
  rw [hphase, phaseResolution_params]
  have hK : NonnegLe (sqrt (mul (ofLit ⟨1234, 3⟩) (ofInt 65536))) (sqrt (mul (ofLit ⟨1234, 3⟩) (ofInt 65536))) := by
    decide +kernel
  have hmax : NonnegLe (div (sqrt (mul (ofLit ⟨1234, 3⟩) (ofInt 65536))) one) (ofInt (285 : Nat)) := by decide +kernel
  have hmin : lt zero (div (sqrt (mul (ofLit ⟨1234, 3⟩) (ofInt 65536))) (ofInt (2 ^ 21 : Nat))) = true := by
    decide +kernel
  generalize sqrt (mul (ofLit ⟨1234, 3⟩) (ofInt 65536)) = K at *
  have hdiv := hK.div hlow (by decide) hmax.isFinite_left
  have hzero : isZero r = false := by
    refine Bool.eq_false_iff.mpr fun h0 => ?_
    have := hlow.toRat_le
    rw [toRat_one, (toRat_eq_zero_iff hlow.isFinite_right).mpr h0] at this
    linarith
  have hbelow := hK.div hhigh hzero hdiv.isFinite_left
  have hpos := (lt_iff_toRat isFinite_zero hbelow.isFinite_right).mp (hbelow.lt_of_lt isFinite_zero hmin)
  have hle := (hdiv.trans hmax).toRat_le
  rw [toRat_ofInt_natCast (by norm_num)] at hle
  rw [(toRat_eq_zero_iff isFinite_zero).mpr (by decide)] at hpos
  exact ⟨Int.add_one_le_iff.mpr (by rwa [Rat.lt_ceil_iff]), by rw [Rat.ceil_le_iff]; exact_mod_cast hle⟩

end design

/-! ### The length at the values of R9 -/

/-- Accepted operands have a transition bandwidth of at most 2 pi (R135). -/
theorem transition_le {fclk fs fpass : F} (h : checkArgs ops fclk fs fpass = true) :
    NonnegLe (transition ops fs fpass) (mul (mul one pi) (ofInt 2)) := by
  obtain ⟨⟨-, hfs, hfpass⟩, ⟨-, hfs0, hfpass0⟩, -, hhalf⟩ := checkArgs_eq_true.mp h
  obtain ⟨hss, hsz⟩ := pos_of_zero_lt hfs hfs0
  obtain ⟨hps, -⟩ := pos_of_zero_lt hfpass hfpass0
  have htwo : isFinite (ofInt 2) = true ∧ sign (ofInt 2) = false ∧ magUnits (ofInt 2) = 2 * 2 ^ 1074 := by
    decide +kernel
  have hdouble : NonnegLe (mul (ofInt 2) fpass) fs := by
    have hunits : 2 * magUnits fpass ≤ magUnits fs := by
      have hB : (0 : ℚ) < 2 ^ 1074 := by positivity
      rw [ops_toRat, toRat_of_sign hfpass hps, toRat_of_sign hfs hss, ← mul_div_assoc,
        div_le_div_iff_of_pos_right hB] at hhalf
      exact_mod_cast hhalf
    have hround : roundMag (magUnits (ofInt 2) * magUnits fpass) (2 ^ 1074) ≤ magField fs := by
      refine roundMag_le (by positivity) ((isFinite_iff fs).mp hfs).le ?_
      rw [htwo.2.2, ← magUnits_eq, Nat.mul_right_comm]
      exact Nat.mul_le_mul_right _ hunits
    have hlt := roundMag_lt (magUnits (ofInt 2) * magUnits fpass) (2 ^ 1074)
    rw [mul_of_isFinite htwo.1 hfpass, htwo.2.1, hps]
    exact ⟨sign_pack _ hlt, hss, by rwa [magField_pack _ hlt], (isFinite_iff fs).mp hfs⟩
  have hquot : NonnegLe (div (mul (ofInt 2) fpass) fs) one := by
    have := hdouble.div (.refl hfs hss) hsz (by rw [div_self_eq hfs hsz]; exact isFinite_one)
    rwa [div_self_eq hfs hsz] at this
  have hpi : NonnegLe pi pi := by decide
  have htwo' : NonnegLe (ofInt 2) (ofInt 2) := by decide +kernel
  exact (hquot.sub_le.mul hpi (by decide +kernel)).mul htwo' (by decide +kernel)

/-- A finite real-valued order of accepted operands is 5 at least (R137). -/
theorem five_le_realOrder {fclk fs fpass : F} (h : checkArgs ops fclk fs fpass = true)
    (hxo : isFinite (realOrder params (transition ops fs fpass)) = true) :
    5 ≤ toRat (realOrder params (transition ops fs fpass)) := by
  have hdw := transition_le h
  rw [realOrder_params] at hxo ⊢
  have hnum : NonnegLe (Binary64.sub (ofLit ⟨9632959861247399, 14⟩) (ofLit ⟨795, 2⟩))
      (Binary64.sub (ofLit ⟨9632959861247399, 14⟩) (ofLit ⟨795, 2⟩)) := by decide +kernel
  have hk : NonnegLe (ofLit ⟨2285, 3⟩) (ofLit ⟨2285, 3⟩) := by decide +kernel
  have hmin : NonnegLe (ofInt (5 : Nat)) (div (Binary64.sub (ofLit ⟨9632959861247399, 14⟩) (ofLit ⟨795, 2⟩))
      (mul (ofLit ⟨2285, 3⟩) (mul (mul one pi) (ofInt 2)))) := by decide +kernel
  have hden := hk.mul hdw (by decide +kernel)
  have hle := (hmin.trans (hnum.div hden (isZero_of_div hden.isFinite_left hxo) hxo)).toRat_le
  rwa [toRat_ofInt_natCast (by norm_num)] at hle

/-- A finite product of an order of at least 6 and an accepted ratio is 6 at least (R139). -/
theorem six_le_scaledOrder {n : Int} {r : F} (hn : 6 ≤ n) (hr : NonnegLe one r)
    (hp : isFinite (mul (ofInt n) r) = true) : 6 ≤ toRat (mul (ofInt n) r) := by
  obtain ⟨k, rfl⟩ : ∃ k : Nat, n = k := ⟨n.toNat, by omega⟩
  have hofInt (j : Nat) : ofInt j = pack false (roundMag (j * 2 ^ 1074) 1) := by
    rw [ofInt, Int.natAbs_natCast, decide_eq_false (show ¬ (j : Int) < 0 by omega)]
  have hsix : NonnegLe (ofInt (6 : Nat)) (ofInt k) := by
    have hf := (isFinite_of_mul hp).1
    rw [hofInt] at hf
    rw [hofInt, hofInt]
    refine .of_roundMag Nat.one_pos Nat.one_pos ?_ hf
    exact Nat.mul_le_mul_right _ (Nat.mul_le_mul_right _ (by omega))
  have hle := (hsix.mul hr hp).toRat_le
  rwa [mul_one_eq (ofInt_natCast (by norm_num)).1, toRat_ofInt_natCast (by norm_num)] at hle

theorem seven_le_oddLength {N : NumOps F} {p : F} (h : 6 ≤ (N.toRat p).floor) : 7 ≤ oddLength N p := by
  rw [oddLength]
  split <;> omega

/-- Settles O37: bounded from the transition bandwidth to the scaled order, step by step. -/
theorem filterLengthAtLeastSeven : Obligations.FilterLengthAtLeastSeven := by
  intro fclk fs fpass d h
  obtain ⟨hargs, hratio, hcps, hlen, -⟩ := designFilter_eq_ok h
  obtain ⟨hr, -⟩ := ratio_range params_num hcps
  obtain ⟨hxo, hp, hlen, -⟩ := filterLength_eq_some hlen
  have hfive := five_le_realOrder hargs hxo
  have horder : 6 ≤ roundOrder params (realOrder params (transition ops fs fpass)) := by
    have hfloor : 3 ≤ (toRat (realOrder params (transition ops fs fpass)) / 2 + 1 / 2).floor := by
      rw [Rat.le_floor_iff]
      push_cast
      linarith
    rw [roundOrder_params]
    omega
  have hsix := six_le_scaledOrder horder hr hp
  have hfloor : 6 ≤ (toRat (mul (ofInt (roundOrder params (realOrder params (transition ops fs fpass))))
      d.ratio)).floor := by
    rw [Rat.le_floor_iff]
    exact_mod_cast hsix
  rw [hlen]
  exact seven_le_oddLength hfloor

/-- Settles O36, from what the derivations of an accepted construction satisfy. -/
theorem designIsWithinBounds : Obligations.DesignIsWithinBounds := by
  intro fclk fs fpass d h
  have hseven := filterLengthAtLeastSeven fclk fs fpass d h
  obtain ⟨-, hratio, hcps, hlen, hres⟩ := designFilter_eq_ok h
  obtain ⟨-, -, hodd, hshort⟩ := filterLength_eq_some hlen
  obtain ⟨hres1, hres2⟩ := phaseResolution_range params_num rfl hcps
  have hcps1 := le_ratioFixed params_num hcps
  obtain ⟨-, -, hfloor, hcps2⟩ := ratioFixed_eq_some hcps
  refine ⟨by omega, by rw [hodd]; exact oddLength_odd _ _, hshort, by rwa [hres], by rwa [hres], hratio, hcps1, hcps2,
    ?_, ?_⟩
  · rw [hfloor]
    exact Rat.floor_le _
  · rw [hfloor]
    exact_mod_cast Rat.lt_floor_add_one _

/-! ## The filter table -/

/-- `sinc` at the values of R9 (R115). -/
theorem sinc_params (w : F) :
    sinc params w = if ge (Binary64.abs w) (ofLit ⟨1, 8⟩) = true then div (sin w) w else one := by
  rw [sinc]
  exact if_congr (by rw [params_num, params_sincEps, ops_ge, ops_abs, ops_ofLit]) rfl rfl

/-- The Kaiser window under the reference numerics (R116). -/
theorem kaiser_ops (beta i0beta xt : F) :
    kaiser ops beta i0beta xt = if lt (Binary64.abs xt) one = true then
      div (i0 ops (mul beta (sqrt (Binary64.sub one (mul xt xt))))) i0beta else zero := by
  rw [kaiser]
  exact if_congr (by rw [ops_lt, ops_abs, ops_one]) rfl rfl

/-- Settles O40: rows and columns are counted, and an entry is the coefficient of its place (R143). -/
theorem filterTableEntries : Obligations.FilterTableEntries := by
  intro len res r beta i0beta table
  have htable : table = (List.range res).map fun i =>
      (List.range len.toNat).map fun j => coefficient params len res r beta i0beta i j := by
    simp only [table, buildTable, Int.toNat_natCast]
  refine ⟨by simp [htable], fun row hrow => ?_, fun i hi j hj => ?_⟩
  · rw [htable] at hrow
    obtain ⟨i, -, rfl⟩ := List.mem_map.mp hrow
    simp
  · have hentry : (table[i]?.bind fun row => row[j]?) = some (coefficient params len res r beta i0beta i j) := by
      rw [htable]
      simp [hi, hj]
    rw [hentry, coefficient]
    simp only [params_num, ops_one, ops_pi, ops_ofInt, ops_add, ops_sub, ops_mul, ops_div]
    rw [sinc_params, kaiser_ops]

/-! ### The taps of row 0 -/

theorem ofInt_zero : ofInt 0 = zero := by decide +kernel

section taps
variable {h : Nat} (hh : 1 ≤ h) (hh' : h ≤ 2 ^ 52)
include hh hh'

/-- In row 0 the distance of tap `j` from the centre `h` is a difference of two small integers (R143). -/
theorem rowZero_distance {res : Int} (hres : 1 ≤ res) (hres' : res ≤ 285) {j : Nat} (hj : j ≤ 2 ^ 53) :
    Binary64.sub (ofInt j) (add (div (ofInt 0) (ofInt res)) (ofInt h)) = ofInt (j - h) := by
  obtain ⟨k, rfl⟩ : ∃ k : Nat, res = k := ⟨res.toNat, by omega⟩
  have hk : k ≤ 2 ^ 53 := by omega
  have hh53 : h ≤ 2 ^ 53 := by omega
  obtain ⟨hf, hs, -⟩ := ofInt_natCast hk
  rw [ofInt_zero, zero_div_eq hf hs (isZero_ofInt_natCast hk (by omega)),
    zero_add_eq (ofInt_natCast hh53).1 (isZero_ofInt_natCast hh53 (by omega)), sub_ofInt_natCast hj hh53]

/-- The centre of row 0 is at distance zero. -/
theorem rowZero_centre {res : Int} (hres : 1 ≤ res) (hres' : res ≤ 285) :
    Binary64.sub (ofInt h) (add (div (ofInt 0) (ofInt res)) (ofInt h)) = zero := by
  rw [rowZero_distance hh hh' hres hres' (by omega), sub_self, ofInt_zero]

/-- The last tap of row 0 is as far from the centre as half the length. -/
theorem rowZero_last {res : Int} (hres : 1 ≤ res) (hres' : res ≤ 285) :
    Binary64.sub (ofInt (2 * h : Nat)) (add (div (ofInt 0) (ofInt res)) (ofInt h)) = ofInt h := by
  rw [rowZero_distance hh hh' hres hres' (by omega)]
  congr 1
  push_cast
  ring

end taps

/-- The sinc of zero is one (R115). -/
theorem sinc_zero : sinc params zero = one := by
  have hbelow : ge (Binary64.abs zero) (ofLit ⟨1, 8⟩) = false := by decide +kernel
  rw [sinc_params, hbelow, if_neg Bool.false_ne_true]

/-- A quotient of one by an accepted ratio is finite. -/
theorem isFinite_div_one {r : F} (hr : NonnegLe one r) : isFinite (div one r) = true :=
  (NonnegLe.div (a' := one) (by decide) hr (by decide) (by decide +kernel)).isFinite_left

theorem isZero_of_one_le {r : F} (hr : NonnegLe one r) : isZero r = false := by
  have hone : 1 ≤ magField one := by decide
  have := hr.2.2.1
  rw [isZero]
  simp
  omega

/-- A finite value of one at least, as the relation says it. -/
theorem nonnegLe_of_one_le {r : F} (hf : isFinite r = true) (h : le one r = true) : NonnegLe one r :=
  nonnegLe_one hf (lt_eq_false_of_le h)

/-- Settles O41: at the centre sinc and window are one. -/
theorem centreTapIsScale : Obligations.CentreTapIsScale := by
  intro len res r hodd hlen hlen' hres hres' hf hone
  have hr := nonnegLe_of_one_le hf hone
  obtain ⟨h, hh⟩ : ∃ h : Nat, (len - 1) / 2 = h := ⟨((len - 1) / 2).toNat, by omega⟩
  have hh1 : 1 ≤ h := by omega
  have hh2 : h ≤ 2 ^ 52 := by omega
  have hpi : mul pi zero = zero := by decide +kernel
  obtain ⟨hhf, hhs, -⟩ := ofInt_natCast (k := h) (by omega)
  simp only [coefficient, params_num, ops_sub, ops_add, ops_div, ops_mul, ops_ofInt, ops_one, ops_pi, hh,
    Int.toNat_natCast, Nat.cast_zero, rowZero_centre hh1 hh2 hres hres',
    zero_div_eq hhf hhs (isZero_ofInt_natCast (by omega) (by omega)), hpi,
    zero_div_eq hf hr.2.1 (isZero_of_one_le hr), sinc_zero, kaiser_zero, mul_one_eq (isFinite_div_one hr)]

/-- A product with positive zero that is finite is a zero. -/
theorem isZero_mul_zero {a : F} (hf : isFinite (mul a zero) = true) : isZero (mul a zero) = true := by
  rw [mul_zero_eq (isFinite_of_mul hf).1 zero (by decide) isFinite_zero, isZero_iff, magField_pack _ (by decide)]

/-- The last tap of row 0 is a product with the zero at the edge of the window (R117, R166). -/
theorem rowZero_last_coefficient {len res : Int} (r : F) (hodd : len % 2 = 1) (hlen : 3 ≤ len) (hlen' : len < 2048)
    (hres : 1 ≤ res) (hres' : res ≤ 285) :
    ∃ a, coefficient params len res r (kaiserBeta params) (kaiserI0Beta params) 0 (len.toNat - 1) = mul a zero := by
  obtain ⟨h, hh⟩ : ∃ h : Nat, (len - 1) / 2 = h := ⟨((len - 1) / 2).toNat, by omega⟩
  have hh1 : 1 ≤ h := by omega
  have hh2 : h ≤ 2 ^ 52 := by omega
  have hlast : len.toNat - 1 = 2 * h := by omega
  obtain ⟨hhf, -, -⟩ := ofInt_natCast (k := h) (by omega)
  have hedge : ge (Binary64.abs one) one = true := by decide
  simp only [coefficient, params_num, ops_sub, ops_add, ops_div, ops_mul, ops_ofInt, ops_one, ops_pi, hh, hlast,
    Nat.cast_zero, rowZero_last hh1 hh2 hres hres',
    div_self_eq hhf (isZero_ofInt_natCast (by omega) (by omega)), kaiser_of_one_le hedge]
  exact ⟨_, rfl⟩

end Sys2Proof.Machine

/-!
PROOF. What a command does to the units, the cache and the response, under any parameters: the effect of a command as
a function of what it reads (spec/30_encoding.md R84, R90), and the ways it ends told with that effect. What follows
from these alone is settled here: the step, the frame of a command, a refusal, and the status views.
-/

namespace Sys2Proof.Machine

/-! ## The effect of a command -/

/-- What an `RS` command leaves of the cache and of the unit it addresses (but for ERR, which is its code), and what
it answers. -/
structure RsEffect where
  cache : Cache F
  unit : RsUnit F
  code : RspCode
  value : BitVec 64

/-- What an `IN` command does: it leaves a unit (but for ERR) and an answer, it raises a fault of the core, or it finds
what only the model's own faults speak of (log 15). -/
inductive InEffect where
  | written (unit : InUnit F) (code : RspCode) (value : BitVec 64)
  | raised (c : FaultCode)
  | stopped (f : Fault)

/-- The effect of an `RS` command on a unit, from the cache and the unit alone (R130, R160, R172, R174). A command of
the other class has none, and is never asked for one. -/
def rsEffect (P : Params F) (i : Instr) (c : Cache F) (unit : RsUnit F) : Except Fault RsEffect :=
  match i with
  | .rsConfig _ fclk fs fpass =>
    match designFilter P (realOf P.num fclk) (realOf P.num fs) (realOf P.num fpass) with
    | .error code => .ok ⟨c, unit, code, 0⟩
    | .ok d => .ok ⟨lookupOrBuild P c (designKey P d), constructedRs P d, .ok, configValue d⟩
  | .rsInput _ x =>
    if !unit.cfgv then .ok ⟨c, unit, .eUnconfig, 0⟩
    else
      match inputUnit P c unit (realOf P.num x) with
      | .ok unit' => .ok ⟨c, unit', .ok, 0⟩
      | .error f => .error f
  | .rsOutput _ =>
    if !unit.cfgv then .ok ⟨c, unit, .eUnconfig, 0⟩ else .ok ⟨c, unit, .ok, P.num.bits unit.out⟩
  | .rsReset _ => if !unit.cfgv then .ok ⟨c, unit, .eUnconfig, 0⟩ else .ok ⟨c, clearedRs P unit, .ok, 0⟩
  | .inConfig .. | .inSetfc .. | .inSetv .. | .inSolve .. => .ok ⟨c, unit, .eIllegal, 0⟩

/-- The effect of an `IN` command on a unit, from the transfer tables and the unit alone (R180, R186, R188, R190). -/
def inEffect (P : Params F) (i : Instr) (tt : List (Memory U16)) (unit : InUnit F) : InEffect :=
  match i with
  | .inConfig _ k vdc vth nkp vmin n16 =>
    match checkCalibration P tt.length k (realOf P.num vdc) (realOf P.num vth) (realOf P.num nkp)
        (realOf P.num vmin) (realOf P.num n16) with
    | .error code => .written unit code 0
    | .ok q => .written (constructedIn unit k (realOf P.num vdc) (realOf P.num vth) (realOf P.num nkp)
        (realOf P.num vmin) (realOf P.num n16) q) .ok (zextValue q)
  | .inSetfc _ wl =>
    if !unit.cfgv then .written unit .eUnconfig 0
    else
      match driveQuant P unit.nkp (realOf P.num wl) with
      | .error code => .written unit code 0
      | .ok q => .written { unit with ndac := q, ndacv := true } .ok (zextValue q)
  | .inSetv _ m =>
    if !unit.cfgv then .written unit .eUnconfig 0
    else
      match gateQuant P.num unit.vdc unit.vth unit.vmin unit.n16 (realOf P.num m) with
      | .error code => .written unit code 0
      | .ok q => .written { unit with nvgt := q } .ok (zextValue q)
  | .inSolve _ vi =>
    if !unit.cfgv || !unit.ndacv then .written unit .eUnconfig 0
    else
      match solveFault P unit vi with
      | some c => .raised c
      | none =>
        match tt[unit.ttsel]? with
        | none => .stopped .transferTable
        | some table =>
          let vc := newCharge P unit vi
          let vx : Int := (table.read (chargeIndex P vc).toNat).toNat
          .written { unit with vc := BitVec.ofInt 32 vc, vx := BitVec.ofInt 32 vx } .ok
            (sextValue (solveResult P vx vc))
  | .rsConfig .. | .rsInput .. | .rsOutput .. | .rsReset .. => .written unit .eIllegal 0

/-- The state with an effect written to Resampler unit `u`, ERR with the code, and the response (R89, R216). -/
def rsWrite (s : State) (u : Nat) (e : RsEffect) : State :=
  { s with cache := e.cache }.rsFinish u { e.unit with err := codeBits e.code } e.code e.value

/-- How an `RS` command ends, from its effect. -/
def rsEnd (s : State) (u : Nat) : Except Fault RsEffect → Result F
  | .ok e => .next (rsWrite s u e)
  | .error f => .fault f

/-- How an `IN` command ends, from its effect. -/
def inEnd (s : State) (n : Nat) : InEffect → Result F
  | .written unit code value => .next (s.inFinish n { unit with err := codeBits code } code value)
  | .raised c => .next (s.raise n c)
  | .stopped f => .fault f

/-! ### Every command is its effect -/

section effect
variable {P : Params F} {i : Instr} {s : State}

theorem exec_eq_execWith (i : Instr) (s : State) : exec i s = execWith params i s := by
  cases i <;> rfl

/-- A command of the class `RS` is the checks of R90 and its effect. -/
theorem execWith_rs (h : resamplerCommand i = true) :
    execWith P i s = onRs (unitOf i) s fun unit => rsEnd s (unitOf i) (rsEffect P i s.cache unit) := by
  cases i with
  | inConfig | inSetfc | inSetv | inSolve => cases h
  | rsConfig u fclk fs fpass =>
    refine congrArg (onRs u s) (funext fun unit => ?_)
    simp only [rsEffect]
    cases designFilter P (realOf P.num fclk) (realOf P.num fs) (realOf P.num fpass) <;> rfl
  | rsInput u x =>
    refine congrArg (onRs u s) (funext fun unit => ?_)
    simp only [rsEffect]
    cases unit.cfgv
    · rfl
    · cases inputUnit P s.cache unit (realOf P.num x) <;> rfl
  | rsOutput u | rsReset u =>
    refine congrArg (onRs u s) (funext fun unit => ?_)
    simp only [rsEffect]
    cases unit.cfgv <;> rfl

/-- A command of the class `IN` is the checks of R90 and its effect. -/
theorem execWith_in (h : resamplerCommand i = false) :
    execWith P i s = onIn (unitOf i) s fun unit => inEnd s (unitOf i) (inEffect P i s.tt unit) := by
  cases i with
  | rsConfig | rsInput | rsOutput | rsReset => cases h
  | inConfig n k vdc vth nkp vmin n16 =>
    refine congrArg (onIn n s) (funext fun unit => ?_)
    simp only [inEffect]
    cases checkCalibration P s.tt.length k (realOf P.num vdc) (realOf P.num vth) (realOf P.num nkp)
      (realOf P.num vmin) (realOf P.num n16) <;> rfl
  | inSetfc n wl =>
    refine congrArg (onIn n s) (funext fun unit => ?_)
    simp only [inEffect]
    cases unit.cfgv
    · rfl
    · cases driveQuant P unit.nkp (realOf P.num wl) <;> rfl
  | inSetv n m =>
    refine congrArg (onIn n s) (funext fun unit => ?_)
    simp only [inEffect]
    cases unit.cfgv
    · rfl
    · cases gateQuant P.num unit.vdc unit.vth unit.vmin unit.n16 (realOf P.num m) <;> rfl
  | inSolve n vi =>
    refine congrArg (onIn n s) (funext fun unit => ?_)
    simp only [inEffect]
    cases !unit.cfgv || !unit.ndacv
    · cases solveFault P unit vi
      · cases s.tt[unit.ttsel]? <;> rfl
      · rfl
    · rfl

theorem execWith_halted (hh : s.halted = true) :
    execWith P i s = .next (s.answerHalted (addressedStatus i s)) := by
  cases hc : resamplerCommand i with
  | true => rw [execWith_rs hc, onRs_halted _ hh, addressedStatus, if_pos hc]
  | false => rw [execWith_in hc, onIn_halted _ hh, addressedStatus, if_neg (by simp [hc])]

theorem execWith_absent (hh : s.halted = false) (hu : ¬ unitPresent i s) :
    execWith P i s = .next s.answerIllegal := by
  cases hc : resamplerCommand i with
  | true => rw [execWith_rs hc, onRs_absent _ hh (by simpa [unitPresent, hc] using hu)]
  | false => rw [execWith_in hc, onIn_absent _ hh (by simpa [unitPresent, hc] using hu)]

theorem execWith_rsUnit {unit : RsUnit F} (hc : resamplerCommand i = true) (hh : s.halted = false)
    (hu : s.rs[unitOf i]? = some unit) :
    execWith P i s = rsEnd s (unitOf i) (rsEffect P i s.cache unit) := by
  rw [execWith_rs hc, onRs_unit _ hh hu]

theorem execWith_inUnit {unit : InUnit F} (hc : resamplerCommand i = false) (hh : s.halted = false)
    (hn : s.ins[unitOf i]? = some unit) :
    execWith P i s = inEnd s (unitOf i) (inEffect P i s.tt unit) := by
  rw [execWith_in hc, onIn_unit _ hh hn]

end effect

/-! ### The ways a command ends, with its effect -/

/-- Every way command `i` ends in a next state from `s` under parameters `P`. -/
inductive Ends (P : Params F) (i : Instr) (s : State) : State → Prop
  | halted (hh : s.halted = true) : Ends P i s (s.answerHalted (addressedStatus i s))
  | absent (hh : s.halted = false) (hu : ¬ unitPresent i s) : Ends P i s s.answerIllegal
  | rs {unit : RsUnit F} {e : RsEffect} (hi : resamplerCommand i = true) (hh : s.halted = false)
      (hu : s.rs[unitOf i]? = some unit) (he : rsEffect P i s.cache unit = .ok e) :
      Ends P i s (rsWrite s (unitOf i) e)
  | written {unit unit' : InUnit F} {code : RspCode} {value : BitVec 64} (hi : resamplerCommand i = false)
      (hh : s.halted = false) (hn : s.ins[unitOf i]? = some unit)
      (he : inEffect P i s.tt unit = .written unit' code value) :
      Ends P i s (s.inFinish (unitOf i) { unit' with err := codeBits code } code value)
  | raised {unit : InUnit F} {c : FaultCode} (hi : resamplerCommand i = false) (hh : s.halted = false)
      (hn : s.ins[unitOf i]? = some unit) (he : inEffect P i s.tt unit = .raised c) :
      Ends P i s (s.raise (unitOf i) c)

theorem execWith_ends {P : Params F} {i : Instr} {s t : State} (h : execWith P i s = .next t) : Ends P i s t := by
  cases hh : s.halted with
  | true =>
    rw [execWith_halted hh] at h
    exact Host.Outcome.next.inj h ▸ .halted hh
  | false =>
    cases hc : resamplerCommand i with
    | true =>
      cases hu : s.rs[unitOf i]? with
      | none =>
        have habsent : ¬ unitPresent i s := by simpa [unitPresent, hc] using hu
        rw [execWith_absent hh habsent] at h
        exact Host.Outcome.next.inj h ▸ .absent hh habsent
      | some unit =>
        rw [execWith_rsUnit hc hh hu] at h
        cases he : rsEffect P i s.cache unit with
        | error f => simp [he, rsEnd] at h
        | ok e =>
          rw [he, rsEnd] at h
          exact Host.Outcome.next.inj h ▸ .rs hc hh hu he
    | false =>
      cases hn : s.ins[unitOf i]? with
      | none =>
        have habsent : ¬ unitPresent i s := by simpa [unitPresent, hc] using hn
        rw [execWith_absent hh habsent] at h
        exact Host.Outcome.next.inj h ▸ .absent hh habsent
      | some unit =>
        rw [execWith_inUnit hc hh hn] at h
        cases he : inEffect P i s.tt unit with
        | stopped f => simp [he, inEnd] at h
        | written unit' code value =>
          rw [he, inEnd] at h
          exact Host.Outcome.next.inj h ▸ .written hc hh hn he
        | raised c =>
          rw [he, inEnd] at h
          exact Host.Outcome.next.inj h ▸ .raised hc hh hn he

theorem exec_ends {i : Instr} {s t : State} (h : exec i s = .next t) : Ends params i s t :=
  execWith_ends ((exec_eq_execWith i s).symm.trans h)

/-! ### What an effect can be -/

/-- A refusal by a unit: a code other than OK and E_HALTED. -/
@[reducible] def RefusalCode (c : RspCode) : Prop := c ≠ .ok ∧ c ≠ .eHalted

/-- What the effect of an `RS` command is: a refusal that leaves everything, or one of the four commands'. -/
inductive RsEffects (P : Params F) (i : Instr) (c : Cache F) (unit : RsUnit F) : RsEffect → Prop
  | refused {code : RspCode} (hcode : RefusalCode code) : RsEffects P i c unit ⟨c, unit, code, 0⟩
  | config {u : Nat} {fclk fs fpass : Slot} {d : Design F} (hi : i = .rsConfig u fclk fs fpass)
      (hd : designFilter P (realOf P.num fclk) (realOf P.num fs) (realOf P.num fpass) = .ok d) :
      RsEffects P i c unit ⟨lookupOrBuild P c (designKey P d), constructedRs P d, .ok, configValue d⟩
  | input {u : Nat} {x : Slot} {unit' : RsUnit F} (hi : i = .rsInput u x) (hc : unit.cfgv = true)
      (hin : inputUnit P c unit (realOf P.num x) = .ok unit') : RsEffects P i c unit ⟨c, unit', .ok, 0⟩
  | output {u : Nat} (hi : i = .rsOutput u) (hc : unit.cfgv = true) :
      RsEffects P i c unit ⟨c, unit, .ok, P.num.bits unit.out⟩
  | reset {u : Nat} (hi : i = .rsReset u) (hc : unit.cfgv = true) :
      RsEffects P i c unit ⟨c, clearedRs P unit, .ok, 0⟩

/-- What the effect of an `IN` command that writes its unit is. -/
inductive InWrites (P : Params F) (i : Instr) (tt : List (Memory U16)) (unit : InUnit F) :
    InUnit F → RspCode → BitVec 64 → Prop
  | refused {code : RspCode} (hcode : RefusalCode code) : InWrites P i tt unit unit code 0
  | config {n k : Nat} {vdc vth nkp vmin n16 : Slot} {q : U16} (hi : i = .inConfig n k vdc vth nkp vmin n16)
      (hk : k < tt.length) : InWrites P i tt unit (constructedIn unit k (realOf P.num vdc) (realOf P.num vth)
        (realOf P.num nkp) (realOf P.num vmin) (realOf P.num n16) q) .ok (zextValue q)
  | setfc {n : Nat} {wl : Slot} {q : U16} (hi : i = .inSetfc n wl) (hc : unit.cfgv = true) :
      InWrites P i tt unit { unit with ndac := q, ndacv := true } .ok (zextValue q)
  | setv {n : Nat} {m : Slot} {q : U16} (hi : i = .inSetv n m) (hc : unit.cfgv = true) :
      InWrites P i tt unit { unit with nvgt := q } .ok (zextValue q)
  | solve {n : Nat} {vi : Int} {table : Memory U16} (hi : i = .inSolve n vi) (hc : unit.cfgv = true)
      (hv : unit.ndacv = true) (hf : solveFault P unit vi = none) (ht : tt[unit.ttsel]? = some table) :
      InWrites P i tt unit
        { unit with
          vc := BitVec.ofInt 32 (newCharge P unit vi)
          vx := BitVec.ofInt 32 (table.read (chargeIndex P (newCharge P unit vi)).toNat).toNat }
        .ok (sextValue (solveResult P (table.read (chargeIndex P (newCharge P unit vi)).toNat).toNat
          (newCharge P unit vi)))

section cases
variable {P : Params F} {i : Instr}

theorem refusalCode_of_designFilter {fclk fs fpass : F} {c : RspCode}
    (h : designFilter P fclk fs fpass = .error c) : RefusalCode c := by
  rcases designFilter_eq_error h with rfl | rfl | rfl <;> decide

theorem gateQuant_eq_error {N : NumOps F} {vdc vth vmin n16 m : F} {c : RspCode}
    (h : gateQuant N vdc vth vmin n16 m = .error c) : c = .eQrange ∨ c = .eArg := by
  rw [gateQuant] at h
  split at h
  · split at h <;> simp_all
  · simp_all

theorem refusalCode_of_gateQuant {N : NumOps F} {vdc vth vmin n16 m : F} {c : RspCode}
    (h : gateQuant N vdc vth vmin n16 m = .error c) : RefusalCode c := by
  rcases gateQuant_eq_error h with rfl | rfl <;> decide

theorem refusalCode_of_driveQuant {nkp wl : F} {c : RspCode} (h : driveQuant P nkp wl = .error c) :
    RefusalCode c := by
  rw [driveQuant] at h
  split at h
  · split at h <;> cases h
    decide
  · cases h
    decide

theorem refusalCode_of_checkCalibration {ntt k : Nat} {vdc vth nkp vmin n16 : F} {c : RspCode}
    (h : checkCalibration P ntt k vdc vth nkp vmin n16 = .error c) : RefusalCode c := by
  rw [checkCalibration] at h
  split at h
  · cases h
    decide
  · split at h
    · cases h
      decide
    · exact refusalCode_of_gateQuant h

theorem select_of_checkCalibration {ntt k : Nat} {vdc vth nkp vmin n16 : F} {q : U16}
    (h : checkCalibration P ntt k vdc vth nkp vmin n16 = .ok q) : k < ntt := by
  by_contra hk
  rw [checkCalibration_of_select P _ _ _ _ _ (not_lt.mp hk)] at h
  cases h

theorem rsEffects_of_eq_ok {c : Cache F} {unit : RsUnit F} {e : RsEffect} (h : rsEffect P i c unit = .ok e) :
    RsEffects P i c unit e := by
  cases i with
  | inConfig | inSetfc | inSetv | inSolve =>
    obtain rfl := Except.ok.inj h
    exact .refused (by decide)
  | rsConfig =>
    simp only [rsEffect] at h
    split at h
    next code hd =>
      obtain rfl := Except.ok.inj h
      exact .refused (refusalCode_of_designFilter hd)
    next d hd =>
      obtain rfl := Except.ok.inj h
      exact .config rfl hd
  | rsInput =>
    simp only [rsEffect] at h
    split at h
    next =>
      obtain rfl := Except.ok.inj h
      exact .refused (by decide)
    next hc =>
      split at h
      next unit' hin =>
        obtain rfl := Except.ok.inj h
        exact .input rfl (by simpa using hc) hin
      next => cases h
  | rsOutput =>
    simp only [rsEffect] at h
    split at h <;> obtain rfl := Except.ok.inj h
    next => exact .refused (by decide)
    next hc => exact .output rfl (by simpa using hc)
  | rsReset =>
    simp only [rsEffect] at h
    split at h <;> obtain rfl := Except.ok.inj h
    next => exact .refused (by decide)
    next hc => exact .reset rfl (by simpa using hc)

theorem inWrites_of_eq_written {tt : List (Memory U16)} {unit unit' : InUnit F} {code : RspCode}
    {value : BitVec 64} (h : inEffect P i tt unit = .written unit' code value) :
    InWrites P i tt unit unit' code value := by
  cases i with
  | rsConfig | rsInput | rsOutput | rsReset =>
    obtain ⟨rfl, rfl, rfl⟩ := InEffect.written.inj h
    exact .refused (by decide)
  | inConfig =>
    simp only [inEffect] at h
    split at h <;> obtain ⟨rfl, rfl, rfl⟩ := InEffect.written.inj h
    next hq => exact .refused (refusalCode_of_checkCalibration hq)
    next hq => exact .config rfl (select_of_checkCalibration hq)
  | inSetfc =>
    simp only [inEffect] at h
    split at h
    next =>
      obtain ⟨rfl, rfl, rfl⟩ := InEffect.written.inj h
      exact .refused (by decide)
    next hc =>
      split at h <;> obtain ⟨rfl, rfl, rfl⟩ := InEffect.written.inj h
      next hq => exact .refused (refusalCode_of_driveQuant hq)
      next hq => exact .setfc rfl (by simpa using hc)
  | inSetv =>
    simp only [inEffect] at h
    split at h
    next =>
      obtain ⟨rfl, rfl, rfl⟩ := InEffect.written.inj h
      exact .refused (by decide)
    next hc =>
      split at h <;> obtain ⟨rfl, rfl, rfl⟩ := InEffect.written.inj h
      next hq => exact .refused (refusalCode_of_gateQuant hq)
      next hq => exact .setv rfl (by simpa using hc)
  | inSolve =>
    simp only [inEffect] at h
    split at h
    next =>
      obtain ⟨rfl, rfl, rfl⟩ := InEffect.written.inj h
      exact .refused (by decide)
    next hc =>
      split at h
      next => cases h
      next hf =>
        split at h
        next => cases h
        next table ht =>
          obtain ⟨rfl, rfl, rfl⟩ := InEffect.written.inj h
          simp only [Bool.or_eq_true, Bool.not_eq_true', not_or, Bool.not_eq_false] at hc
          exact .solve rfl hc.1 hc.2 hf ht

/-- Only `IN.SOLVE` raises a fault, and it is the first check that fails (R198). -/
theorem solve_of_eq_raised {tt : List (Memory U16)} {unit : InUnit F} {c : FaultCode}
    (h : inEffect P i tt unit = .raised c) : ∃ n vi, i = .inSolve n vi ∧ solveFault P unit vi = some c := by
  cases i with
  | rsConfig | rsInput | rsOutput | rsReset => cases h
  | inConfig =>
    simp only [inEffect] at h
    split at h <;> cases h
  | inSetfc | inSetv =>
    simp only [inEffect] at h
    split at h
    next => cases h
    next => split at h <;> cases h
  | inSolve n vi =>
    simp only [inEffect] at h
    split at h
    next => cases h
    next =>
      split at h
      next hf =>
        obtain rfl := InEffect.raised.inj h
        exact ⟨n, vi, rfl, hf⟩
      next => split at h <;> cases h

/-- A refused `RS` command leaves cache and unit. -/
theorem RsEffects.refused_keeps {c : Cache F} {unit : RsUnit F} {e : RsEffect} (h : RsEffects P i c unit e)
    (hcode : e.code ≠ .ok) : e.cache = c ∧ e.unit = unit := by
  cases h with
  | refused => exact ⟨rfl, rfl⟩
  | config | input | output | reset => exact absurd rfl hcode

theorem RsEffects.code_ne_halted {c : Cache F} {unit : RsUnit F} {e : RsEffect} (h : RsEffects P i c unit e) :
    e.code ≠ .eHalted := by
  cases h with
  | refused hcode => exact hcode.2
  | config | input | output | reset => exact nofun

/-- A refused `IN` command leaves the unit. -/
theorem InWrites.refused_keeps {tt : List (Memory U16)} {unit unit' : InUnit F} {code : RspCode}
    {value : BitVec 64} (h : InWrites P i tt unit unit' code value) (hcode : code ≠ .ok) : unit' = unit := by
  cases h with
  | refused => rfl
  | config | setfc | setv | solve => exact absurd rfl hcode

theorem InWrites.code_ne_halted {tt : List (Memory U16)} {unit unit' : InUnit F} {code : RspCode}
    {value : BitVec 64} (h : InWrites P i tt unit unit' code value) : code ≠ .eHalted := by
  cases h with
  | refused hcode => exact hcode.2
  | config | setfc | setv | solve => exact nofun

end cases

end Sys2Proof.Machine

/-!
PROOF. What follows from the ways a command ends: the step and the reset (spec/30_encoding.md R80,
spec/70_reset_and_hazards.md R240), what every command leaves alone (spec/20_memory.md section 7), refusals and
`FAULTREG` (spec/60_exceptions.md R214, R220), the cache (R24, R146), the status views, and the parametric core.
-/

namespace Sys2Proof.Machine

/-! ## The step -/

theorem stepWith_params (s : State) : step s = stepWith params s := by
  rw [step, stepWith, funext fun i => funext fun s => exec_eq_execWith i s]

/-- Settles O59: the definitions are the parametric ones at `params`. -/
theorem tableValuesRun : Obligations.TableValuesRun :=
  ⟨exec_eq_execWith, stepWith_params, rfl, rfl⟩

/-- Settles O8. -/
theorem waitingCoreStays : Obligations.WaitingCoreStays := by
  intro s he
  simp [step, stepBy, fetch, he]

/-- Settles O7: the frame at the front is decoded, and the command runs on the state without it. -/
theorem stepRunsPresentedCommand : Obligations.StepRunsPresentedCommand := by
  refine ⟨fun s f rest i he hd => ?_, fun s nbits w i hd => ?_⟩
  · rw [step_of_command he hd, State.Over.takeEvent, he]
    rfl
  · have hdecode : decode (frameOfTableWord nbits w) = .ok i := by
      rw [decodeTableWord] at hd
      split at hd
      next j hj => rw [hj, Option.some.inj hd]
      next => cases hd
    exact step_of_command rfl hdecode

theorem step_of_hardwareReset {s : State} {rest : List HostEvent} (he : s.events = .hardwareReset :: rest) :
    step s = .next s.takeEvent.hardwareReset := by
  simp [step, stepBy, fetch, he]

/-- Settles O10: every unit after the reset is the one R240 describes. -/
theorem hardwareResetClears : Obligations.HardwareResetClears := by
  intro s rest he
  refine ⟨_, step_of_hardwareReset he, rfl, hardwareReset_halted _, rfl, rfl, ?_, ?_, fun unit hu => ?_,
    fun unit hu => ?_, rfl, ?_⟩
  · rw [hardwareReset_rs, List.length_replicate, takeEvent_rs]
  · rw [hardwareReset_ins, List.length_replicate, takeEvent_ins]
  · obtain rfl := List.eq_of_mem_replicate hu
    exact ⟨rfl, rfl, rfl, by decide⟩
  · obtain rfl := List.eq_of_mem_replicate hu
    exact ⟨rfl, rfl, rfl, by decide⟩
  · rw [hardwareReset_events, State.Over.takeEvent, he]
    rfl

/-! ## The status views -/

/-- The parts of a status view from the top (R37, R49). -/
theorem statusView_eq_append (err : BitVec 4) (flag cfgv : Bool) :
    statusView err flag cfgv = 0#8 ++ err ++ 0#2 ++ BitVec.ofBool flag ++ BitVec.ofBool cfgv := by
  ext i hi
  simp [statusView, fieldAt]
  grind

/-- Settles O21. -/
theorem statusViewLayout : Obligations.StatusViewLayout :=
  ⟨fun _ => statusView_eq_append .., fun _ => statusView_eq_append .., by decide, by decide⟩

/-! ## What a command leaves alone -/

/-- A memory of units with one replaced by another that a function does not tell from it looks the same to it. -/
theorem map_set_of_eq {α β : Type} {f : α → β} {l : List α} {u : Nat} {x y : α} (hu : l[u]? = some x)
    (h : f y = f x) : (l.set u y).map f = l.map f := by
  rw [List.map_set, h]
  refine List.ext_getElem? fun k => ?_
  rw [List.getElem?_set]
  split
  next hk =>
    subst hk
    obtain ⟨hlt, -⟩ := List.getElem?_eq_some_iff.mp hu
    rw [if_pos (by rwa [List.length_map]), List.getElem?_map, hu]
    rfl
  next => rfl

section frame
variable {P : Params F} {i : Instr} {s t : State}

/-- A command leaves the tables, the events, the unit counts and every unit that it does not address. -/
theorem Ends.frame (h : Ends P i s t) :
    t.tt = s.tt ∧ t.events = s.events ∧ t.rs.length = s.rs.length ∧ t.ins.length = s.ins.length ∧
      (∀ u, (resamplerCommand i = false ∨ u ≠ unitOf i) → t.rs[u]? = s.rs[u]?) ∧
      ∀ n, (resamplerCommand i = true ∨ n ≠ unitOf i) → t.ins[n]? = s.ins[n]? := by
  cases h with
  | halted | absent | raised => exact ⟨rfl, rfl, rfl, rfl, fun _ _ => rfl, fun _ _ => rfl⟩
  | rs hi =>
    refine ⟨rfl, rfl, List.length_set, rfl, fun u hu => ?_, fun _ _ => rfl⟩
    exact List.getElem?_set_ne (hu.resolve_left (by simp [hi])).symm
  | written hi =>
    refine ⟨rfl, rfl, rfl, List.length_set, fun _ _ => rfl, fun n hn => ?_⟩
    exact List.getElem?_set_ne (hn.resolve_left (by simp [hi])).symm

/-- Only `RS.CONFIG` changes the cache, by lookup-or-build (R146). -/
theorem Ends.cache_eq (h : Ends P i s t) :
    t.cache = s.cache ∨ ∃ u fclk fs fpass k, i = .rsConfig u fclk fs fpass ∧ t.cache = lookupOrBuild P s.cache k := by
  cases h with
  | halted | absent | raised | written => exact .inl rfl
  | rs _ _ _ he =>
    cases rsEffects_of_eq_ok he with
    | refused | input | output | reset => exact .inl rfl
    | config hi => exact .inr ⟨_, _, _, _, _, hi, rfl⟩

/-- Only an `IN.SOLVE` changes `FAULTREG`, by a fault on a core that was not halted (R220). -/
theorem Ends.faultReg_eq (h : Ends P i s t) :
    t.faultReg = s.faultReg ∨ s.halted = false ∧ ∃ n vi c, i = .inSolve n vi ∧ t.faultReg = faultRegOf n c := by
  cases h with
  | halted | absent | rs | written => exact .inl rfl
  | raised _ hh _ he =>
    obtain ⟨n, vi, rfl, -⟩ := solve_of_eq_raised he
    exact .inr ⟨hh, n, vi, _, rfl, rfl⟩

end frame

/-- Settles O22. -/
theorem commandTouchesOwnUnitOnly : Obligations.CommandTouchesOwnUnitOnly := by
  intro s t i h
  have hends := exec_ends h
  obtain ⟨htt, hev, hrs, hins, hru, hin⟩ := hends.frame
  refine ⟨htt, hev, hrs, hins, hru, hin, fun hne => ?_, fun hne => ?_⟩
  · obtain ⟨u, fclk, fs, fpass, -, hi, -⟩ := hends.cache_eq.resolve_left hne
    exact ⟨u, fclk, fs, fpass, hi⟩
  · obtain ⟨-, n, vi, -, hi, -⟩ := hends.faultReg_eq.resolve_left hne
    exact ⟨n, vi, hi⟩

theorem illegalFrame_keeps (s : State) :
    (illegalFrame s).tt = s.tt ∧ (illegalFrame s).cache = s.cache ∧ (illegalFrame s).faultReg = s.faultReg := by
  rw [illegalFrame]
  split <;> exact ⟨rfl, rfl, rfl⟩

/-- Settles O24, over the ways a step ends. -/
theorem transferTablesReadOnly : Obligations.TransferTablesReadOnly := by
  intro s t h
  rcases step_next h with ⟨-, rfl⟩ | ⟨rest, -, rfl⟩ | ⟨f, rest, -, -, rfl⟩ | ⟨f, rest, i, -, -, hexec⟩
  · rfl
  · rfl
  · exact (illegalFrame_keeps s.takeEvent).1
  · exact (exec_ends hexec).frame.1

/-! ## Refusals -/

/-- The units with ERR blanked do not show a unit's ERR. -/
theorem rsNoErr_set {s : State} {u : Nat} {unit : RsUnit F} (e : BitVec 4) (hu : s.rs[u]? = some unit) :
    (s.rs.set u { unit with err := e }).map (fun u => { u with err := 0 }) = s.rsNoErr :=
  map_set_of_eq hu rfl

theorem inNoErr_set {s : State} {n : Nat} {unit : InUnit F} (e : BitVec 4) (hn : s.ins[n]? = some unit) :
    (s.ins.set n { unit with err := e }).map (fun n => { n with err := 0 }) = s.inNoErr :=
  map_set_of_eq hn rfl

/-- Settles O18: a refusal's effect is the unit as it was, and a fault writes no unit. -/
theorem refusedCommandWritesOnlyErr : Obligations.RefusedCommandWritesOnlyErr := by
  intro s t i r h hr hcode
  have hends := exec_ends h
  obtain ⟨htt, hev, -, -, hru, hin⟩ := hends.frame
  suffices hkept : t.cache = s.cache ∧ t.rsNoErr = s.rsNoErr ∧ t.inNoErr = s.inNoErr ∧
      (r.extractLsb' 0 4 ≠ 7 → t.faultReg = s.faultReg) ∧
      (r.extractLsb' 0 4 = 7 → t.rs = s.rs ∧ t.ins = s.ins) by
    obtain ⟨hcache, hrs, hins, hfault, hhalted⟩ := hkept
    exact ⟨hcache, htt, hev, hrs, hins, hru, hin, hfault, hhalted⟩
  cases hends with
  | halted | absent => exact ⟨rfl, rfl, rfl, fun _ => rfl, fun _ => ⟨rfl, rfl⟩⟩
  | raised =>
    obtain rfl := Option.some.inj hr
    exact ⟨rfl, rfl, rfl, fun hne => absurd (responseOf_code ..) hne, fun _ => ⟨rfl, rfl⟩⟩
  | @rs _ e _ _ hu he =>
    have heffect := rsEffects_of_eq_ok he
    obtain rfl := Option.some.inj hr
    rw [responseOf_code, ne_eq, codeBits_eq_zero] at hcode
    obtain ⟨hcache, hunit⟩ := heffect.refused_keeps hcode
    refine ⟨hcache, ?_, rfl, fun _ => rfl, fun hseven => ?_⟩
    · have hrs := rsNoErr_set (codeBits e.code) hu
      rw [← hunit] at hrs
      exact hrs
    · rw [responseOf_code] at hseven
      exact absurd (codeBits_injective (c' := .eHalted) hseven) heffect.code_ne_halted
  | written _ _ hn he =>
    have heffect := inWrites_of_eq_written he
    obtain rfl := Option.some.inj hr
    rw [responseOf_code, ne_eq, codeBits_eq_zero] at hcode
    refine ⟨rfl, rfl, ?_, fun _ => rfl, fun hseven => ?_⟩
    · exact heffect.refused_keeps hcode ▸ inNoErr_set _ hn
    · rw [responseOf_code] at hseven
      exact absurd (codeBits_injective (c' := .eHalted) hseven) heffect.code_ne_halted

/-! ## FAULTREG -/

theorem faultRegOf_low (n : Nat) (c : FaultCode) : (faultRegOf n c).extractLsb' 1 3 = 0 := by
  ext i hi
  rw [BitVec.getElem_extractLsb', faultRegOf_reserved n c (1 + i) (by omega)]
  simp

/-- Settles O20: a sound register is 0 or a fault's, and only a fault writes one. -/
theorem faultRegisterWrittenByFaultsOnly : Obligations.FaultRegisterWrittenByFaultsOnly := by
  refine ⟨rfl, fun s hs => ?_, fun s t h => ?_⟩
  · rcases hs.fault with h0 | ⟨n, c, -, hreg⟩
    · rw [h0]
      exact ⟨rfl, fun _ => rfl⟩
    · rw [hreg]
      refine ⟨faultRegOf_low n c, fun hflag => ?_⟩
      have hset : (faultRegOf n c).getLsbD 0 = true := faultFlag_faultRegOf n c
      rw [hset] at hflag
      cases hflag
  · rcases step_next h with ⟨-, rfl⟩ | ⟨rest, he, -⟩ | ⟨f, rest, -, -, rfl⟩ | ⟨f, rest, i, he, hd, hexec⟩
    · exact .inl rfl
    · exact .inr (.inl ⟨rest, he⟩)
    · exact .inl (illegalFrame_keeps s.takeEvent).2.2
    · rcases (exec_ends hexec).faultReg_eq with heq | ⟨hh, n, vi, c, rfl, hreg⟩
      · exact .inl heq
      · have hcode : (t.faultReg.extractLsb' 4 4) = faultBits c := by rw [hreg]; exact faultCodeField_faultRegOf n c
        refine .inr (.inr ⟨hh, f, rest, n, vi, he, hd, ?_, ?_, ?_, ?_⟩)
        · rw [hreg]
          exact faultFlag_faultRegOf n c
        · rw [hreg]
          exact faultUnitField_faultRegOf n c
        · rw [hcode]
          cases c <;> decide
        · rw [hcode]
          cases c <;> decide

/-! ## The cache -/

/-- Lookup-or-build keeps every present entry (R24). -/
theorem lookupOrBuild_find?_of_some (P : Params F) {c : Cache F} {k k' : FilterKey} {t : FilterTable F}
    (h : c.find? k' = some t) : (lookupOrBuild P c k).find? k' = some t := by
  rw [lookupOrBuild]
  cases hf : c.find? k with
  | some _ => exact h
  | none => exact Cache.find?_insert_of_some h hf

/-- A command keeps every present entry. -/
theorem Ends.cache_find? {P : Params F} {i : Instr} {s t : State} (h : Ends P i s t) {k : FilterKey}
    {table : FilterTable F} (hk : s.cache.find? k = some table) : t.cache.find? k = some table := by
  rcases h.cache_eq with heq | ⟨_, _, _, _, _, -, heq⟩
  · rwa [heq]
  · rw [heq]
    exact lookupOrBuild_find?_of_some P hk

/-- Settles O39, over the ways a step ends. -/
theorem cachedTablesPersist : Obligations.CachedTablesPersist := by
  intro s t k table h hreset hk
  rcases step_next h with ⟨-, rfl⟩ | ⟨rest, he, -⟩ | ⟨f, rest, -, -, rfl⟩ | ⟨f, rest, i, -, -, hexec⟩
  · exact hk
  · exact absurd he (hreset rest)
  · rw [(illegalFrame_keeps s.takeEvent).2.1]
    exact hk
  · exact (exec_ends hexec).cache_find? hk

/-- Settles O38: an accepted construction looks its key up or builds its table; a refusal does neither. -/
theorem cacheLookupOrBuild : Obligations.CacheLookupOrBuild := by
  intro s t u fclk fs fpass r hs h hr
  have hends := exec_ends h
  refine ⟨fun k table hk => hends.cache_find? hk, fun hok => ?_, fun hne => ?_⟩
  · cases hends with
    | halted | absent | raised =>
      obtain rfl := Option.some.inj hr
      rw [responseOf_code] at hok
      cases hok
    | written hi => cases hi
    | rs _ _ hu he =>
      cases rsEffects_of_eq_ok he with
      | input hi | output hi | reset hi => cases hi
      | refused hcode =>
        obtain rfl := Option.some.inj hr
        rw [responseOf_code, codeBits_eq_zero] at hok
        exact absurd hok hcode.1
      | @config _ _ _ _ d =>
        refine ⟨constructedRs params d, ?_, lookupOrBuild_find?_same params (designKey params d) hs.cache.coherent,
          fun k hk => lookupOrBuild_find?_other params hk⟩
        obtain ⟨hlt, -⟩ := List.getElem?_eq_some_iff.mp hu
        exact List.getElem?_set_self hlt
  · exact (refusedCommandWritesOnlyErr s t _ r h hr hne).1

end Sys2Proof.Machine

/-!
PROOF. The stream of a Resampler unit (spec/42_resampler_stream.md): the accumulator, the filtering step and the
history seen from its cursor, under any parameters; and the filtering step and the window at the values of R9.
-/

namespace Sys2Proof.Machine

section stream
variable {P : Params F} {c : Cache F} {unit unit' pushed : RsUnit F} {table : FilterTable F}

/-! ## The accumulator -/

theorem outputDue_iff : outputDue unit = true ↔ unit.acc.toInt < 1024 := by
  rw [outputDue, phaseOne, decide_eq_true_eq]

/-- What the accumulator is where it is answered (R160). -/
theorem advanceAcc_toInt {a : S32} (h : advanceAcc P unit = some a) :
    a.toInt = (if unit.acc.toInt < 1024 then unit.acc.toInt + unit.cps.toInt else unit.acc.toInt) - 1024 := by
  rw [advanceAcc] at h
  by_cases hdue : unit.acc.toInt < 1024
  · rw [if_pos (outputDue_iff.mpr hdue)] at h
    rw [if_pos hdue]
    split at h
    next b hb =>
      obtain ⟨-, -, hbv⟩ := accOf?_some hb
      obtain ⟨-, -, hav⟩ := accOf?_some h
      rw [hav, hbv, phaseOne]
    next => cases h
  · rw [if_neg (mt outputDue_iff.mp hdue)] at h
    obtain ⟨-, -, hav⟩ := accOf?_some h
    rw [if_neg hdue, hav, phaseOne]

/-- A phase in 0..CPS-1 of a ratio in range never overflows (R170). -/
theorem exists_advanceAcc (hphase : 0 ≤ unit.acc.toInt ∧ unit.acc.toInt < unit.cps.toInt)
    (hratio : 1024 ≤ unit.cps.toInt ∧ unit.cps.toInt ≤ accLimit P - 1024) :
    ∃ a, advanceAcc P unit = some a := by
  rw [advanceAcc]
  by_cases hdue : unit.acc.toInt < 1024
  · obtain ⟨hsum, hsumv⟩ := accOf?_fits (P := P) (v := unit.acc.toInt + unit.cps.toInt) (by omega) (by omega)
    rw [if_pos (outputDue_iff.mpr hdue), hsum]
    simp only [hsumv, phaseOne]
    exact ⟨_, (accOf?_fits (by omega) (by omega)).1⟩
  · rw [if_neg (mt outputDue_iff.mp hdue), phaseOne]
    exact ⟨_, (accOf?_fits (by omega) (by omega)).1⟩

/-! ## The filtering step -/

/-- What the filtering step needs of a unit: a table of RES rows of L columns at its key, and a cursor and a length
in range. -/
structure Filterable (P : Params F) (c : Cache F) (unit : RsUnit F) (table : FilterTable F) : Prop where
  cursor : unit.cur < P.ringHalf
  lenShort : unit.len < P.ringHalf
  resPositive : 1 ≤ unit.res
  found : c.find? (unitKey unit) = some table
  rows : (table.length : Int) = unit.res
  columns : ∀ row ∈ table, row.length = unit.len.toNat

/-- The window of L elements of the history from `start` on. -/
def windowAt (unit : RsUnit F) (start : Int) : List F :=
  (List.range unit.len.toNat).map fun (j : Nat) => unit.hist.read (start + j).toNat

/-- The row at the unit's phase (R162). -/
def phaseRow (unit : RsUnit F) : Int := unit.acc.toInt * unit.res / 1024

/-- The second row that the filtering step reads: the next one, row 0 after the last. -/
def nextRow (unit : RsUnit F) : Int := if phaseRow unit + 1 = unit.res then 0 else phaseRow unit + 1

/-- The start of the window against the second row: shifted by one sample after the last row. -/
def nextStart (P : Params F) (unit : RsUnit F) : Int :=
  if phaseRow unit + 1 = unit.res then windowStart P unit + 1 else windowStart P unit

/-- The columns of a row. -/
def rowAt (table : FilterTable F) (row : Int) : List F := table[row.toNat]?.getD []

/-- The value of the filtering step (R162 to R165). -/
def firValue (P : Params F) (table : FilterTable F) (unit : RsUnit F) : F :=
  interpolate P.num (convolve P.num (windowAt unit (windowStart P unit)) (rowAt table (phaseRow unit)))
    (convolve P.num (windowAt unit (nextStart P unit)) (rowAt table (nextRow unit)))
    (unit.acc.toInt * unit.res % 1024)

theorem historyWindow_of_range {start : Int} (h0 : 0 ≤ start) (h1 : start + unit.len ≤ 2 * P.ringHalf) :
    historyWindow P unit start = .ok (windowAt unit start) := by
  by_cases hlen : unit.len ≤ 0
  · rw [historyWindow_of_nonpos hlen, windowAt, Int.toNat_of_nonpos hlen]
    rfl
  · rw [historyWindow, Memory.window_of_range _ h0 (by push_cast; exact h1) (by omega), windowAt]
    refine congrArg Except.ok (List.map_congr_left fun j _ => ?_)
    rw [Int.toNat_add h0 (by omega), Int.toNat_natCast]

theorem rowAt_eq {row : Int} (h0 : 0 ≤ row) (h1 : row < table.length) :
    table[row.toNat]? = some (rowAt table row) := by
  rw [rowAt, List.getElem?_eq_getElem (by omega)]
  rfl

theorem convolveAt_of_range {start row : Int} (hcolumns : ∀ row ∈ table, row.length = unit.len.toNat)
    (h0 : 0 ≤ start) (h1 : start + unit.len ≤ 2 * P.ringHalf) (hr0 : 0 ≤ row) (hr1 : row < table.length) :
    convolveAt P unit table start row = .ok (convolve P.num (windowAt unit start) (rowAt table row)) := by
  have hrow := rowAt_eq hr0 hr1
  have hcols := hcolumns _ (List.mem_of_getElem? hrow)
  rw [convolveAt, historyWindow_of_range h0 h1, tableRow, if_neg (by omega), hrow]
  simp only [hcols, if_true]

/-- The rows of a phase in 0..1023 are rows of the table. -/
theorem phaseRow_range (hres : 1 ≤ unit.res) (h0 : 0 ≤ unit.acc.toInt) (h1 : unit.acc.toInt < 1024) :
    0 ≤ phaseRow unit ∧ phaseRow unit < unit.res ∧ 0 ≤ nextRow unit ∧ nextRow unit < unit.res := by
  have hlow : 0 ≤ unit.acc.toInt * unit.res := Int.mul_nonneg h0 (by omega)
  have hhigh : unit.acc.toInt * unit.res < 1024 * unit.res := Int.mul_lt_mul_of_pos_right h1 (by omega)
  rw [nextRow, phaseRow]
  split <;> omega

/-- The filtering step has a value (R162). -/
theorem Filterable.fir_eq (h : Filterable P c unit table) (h0 : 0 ≤ unit.acc.toInt) (h1 : unit.acc.toInt < 1024) :
    fir P c unit = .ok (firValue P table unit) := by
  obtain ⟨hcur, hlen, hres, hfound, hrows, hcolumns⟩ := h
  obtain ⟨hr0, hr1, hn0, hn1⟩ := phaseRow_range hres h0 h1
  have hbase := convolveAt_of_range (P := P) (start := windowStart P unit) hcolumns
    (by rw [windowStart]; omega) (by rw [windowStart]; omega) hr0 (by omega)
  have hnext := convolveAt_of_range (P := P) (start := nextStart P unit) hcolumns
    (by rw [nextStart, windowStart]; split <;> omega) (by rw [nextStart, windowStart]; split <;> omega) hn0 (by omega)
  rw [fir, if_neg (by omega), hfound]
  rw [phaseRow] at hbase
  rw [nextStart, nextRow, phaseRow] at hnext
  simp only [hbase, hnext]
  rfl

/-! ## An input -/

/-- What `RS.INPUT` leaves of a configured unit (R160), but for ERR. -/
structure InputLeaves (P : Params F) (c : Cache F) (unit : RsUnit F) (x : F) (unit' : RsUnit F) : Prop where
  stored : pushSample P unit x = some { unit with hist := unit'.hist, cur := unit'.cur }
  cfgv : unit'.cfgv = unit.cfgv
  cps : unit'.cps = unit.cps
  key : unitKey unit' = unitKey unit
  due : unit.acc.toInt < 1024 → unit'.ready = true ∧ unit'.acc.toInt = unit.acc.toInt + unit.cps.toInt - 1024 ∧
    fir P c { unit with hist := unit'.hist, cur := unit'.cur } = .ok unit'.out
  notDue : 1024 ≤ unit.acc.toInt →
    unit'.ready = false ∧ unit'.acc.toInt = unit.acc.toInt - 1024 ∧ unit'.out = unit.out

theorem inputLeaves {x : F} (h : inputUnit P c unit x = .ok unit') : InputLeaves P c unit x unit' := by
  obtain ⟨pushed, a, hpush, hacc, hcase⟩ := inputUnit_ok h
  have hav := advanceAcc_toInt hacc
  obtain ⟨-, hpushed⟩ := pushSample_some hpush
  subst hpushed
  rcases hcase with ⟨y, hdue, hfir, rfl⟩ | ⟨hdue, rfl⟩
  · have hlt := outputDue_iff.mp hdue
    rw [if_pos hlt] at hav
    exact ⟨hpush, rfl, rfl, rfl, fun _ => ⟨rfl, hav, hfir⟩, fun hge => absurd hlt (by omega)⟩
  · have hge : ¬ unit.acc.toInt < 1024 := by simp [← outputDue_iff, hdue]
    rw [if_neg hge] at hav
    exact ⟨hpush, rfl, rfl, rfl, fun hlt => absurd hlt hge, fun _ => ⟨rfl, hav, rfl⟩⟩

/-- The accumulator after an input, as one equation. -/
theorem InputLeaves.acc {x : F} (h : InputLeaves P c unit x unit') : unit'.acc.toInt =
    (if unit.acc.toInt < 1024 then unit.acc.toInt + unit.cps.toInt else unit.acc.toInt) - 1024 := by
  split
  next hlt => exact (h.due hlt).2.1
  next hge => exact (h.notDue (by omega)).2.1

/-- A stored sample leaves what the filtering step needs. -/
theorem Filterable.push {x : F} (h : Filterable P c unit table) (hpush : pushSample P unit x = some pushed) :
    Filterable P c pushed table := by
  obtain ⟨hcur, rfl⟩ := pushSample_some hpush
  exact { h with cursor := Nat.mod_lt _ (by omega) }

/-- An input to such a unit has a value. -/
theorem Filterable.exists_inputUnit (h : Filterable P c unit table) (x : F)
    (hphase : 0 ≤ unit.acc.toInt ∧ unit.acc.toInt < unit.cps.toInt)
    (hratio : 1024 ≤ unit.cps.toInt ∧ unit.cps.toInt ≤ accLimit P - 1024) :
    ∃ unit', inputUnit P c unit x = .ok unit' := by
  obtain ⟨a, ha⟩ := exists_advanceAcc hphase hratio
  obtain ⟨pushed, hpush⟩ := exists_pushSample (P := P) x h.cursor
  rw [inputUnit, hpush, ha]
  cases hdue : outputDue unit with
  | false => exact ⟨_, rfl⟩
  | true =>
    have hacc : pushed.acc = unit.acc := by
      obtain ⟨-, rfl⟩ := pushSample_some hpush
      rfl
    have hlt := outputDue_iff.mp hdue
    have hfir := (h.push hpush).fir_eq (by rw [hacc]; exact hphase.1) (by rw [hacc]; exact hlt)
    simp only [hfir, if_true]
    exact ⟨_, rfl⟩

/-! ## The history from its cursor -/

/-- The element `i` places on from the cursor, `CUR + i`: in a mirrored history the samples from the oldest, the
newest at `H - 1` (R65). -/
def fromCursor (unit : RsUnit F) (i : Nat) : F := unit.hist.read (unit.cur + i)

/-- A stored sample is the newest, and every other one moves by one place, across the wrap too (R66). -/
theorem fromCursor_push {x : F} (hpush : pushSample P unit x = some pushed)
    (hwf : unit.hist.wf (2 * P.ringHalf) = true)
    (hmirror : ∀ k < P.ringHalf, unit.hist.read k = unit.hist.read (k + P.ringHalf)) {i : Nat}
    (hi : i < P.ringHalf) :
    fromCursor pushed i = if i + 1 = P.ringHalf then x else fromCursor unit (i + 1) := by
  have hcur := (pushSample_some hpush).1
  rw [fromCursor, fromCursor, pushSample_read hpush hwf, pushSample_cur hpush]
  rcases Nat.lt_or_ge (unit.cur + 1) P.ringHalf with hnowrap | hwrap
  · rw [Nat.mod_eq_of_lt hnowrap]
    split
    next hx => rw [if_pos (by omega)]
    next hx =>
      rw [if_neg (by omega)]
      congr 1
      omega
  · have hlast : unit.cur + 1 = P.ringHalf := by omega
    rw [hlast, Nat.mod_self, Nat.zero_add]
    split
    next hx => rw [if_pos (by omega)]
    next hx =>
      rw [if_neg (by omega), hmirror i hi]
      congr 1
      omega

/-- The elements of a window at or after the base window, from the cursor. -/
theorem windowAt_eq (hlen : unit.len < P.ringHalf) (e : Nat) :
    windowAt unit (windowStart P unit + e) =
      (List.range unit.len.toNat).map fun (j : Nat) =>
        fromCursor unit ((P.ringHalf - 1 - unit.len).toNat + e + j) := by
  refine List.map_congr_left fun j _ => ?_
  rw [fromCursor, windowStart]
  congr 1
  omega

end stream

/-- Settles O43: the step's value, with the rows and windows written out. -/
theorem filteringStepFormula : Obligations.FilteringStepFormula := by
  intro c unit table res phase hres hacc hcur hlen hpos hphase hfound hrows hcolumns row start window
  have hfilter : Filterable params c unit table :=
    ⟨hcur, hlen, by omega, hfound, by rw [hrows, hres], hcolumns⟩
  have hrow : phaseRow unit = row := by
    rw [phaseRow, hacc, hres]
    norm_cast
  have hnext : nextRow unit = ((if row + 1 = res then 0 else row + 1 : Nat) : Int) := by
    rw [nextRow, hrow, hres]
    split <;> split <;> omega
  obtain ⟨hr0, hr1, hn0, hn1⟩ := phaseRow_range (unit := unit) (by omega) (by omega) (by omega)
  have hstart : windowStart params unit = start := by
    simp only [windowStart, params_ringHalf, start]
    omega
  have hnextStart : nextStart params unit = if row + 1 = res then start + 1 else start := by
    rw [nextStart, hstart, hrow, hres]
    exact if_congr (by omega) rfl rfl
  have hrem : unit.acc.toInt * unit.res % 1024 = ((phase * res % 1024 : Nat) : Int) := by
    rw [hacc, hres]
    norm_cast
  refine ⟨rowAt table row, rowAt table ((if row + 1 = res then 0 else row + 1 : Nat) : Int), ?_, ?_, ?_⟩
  · have hread := rowAt_eq (table := table) hr0 (by omega)
    rwa [hrow, Int.toNat_natCast] at hread
  · have hread := rowAt_eq (table := table) hn0 (by omega)
    rwa [hnext, Int.toNat_natCast] at hread
  · intro v1 v2 t
    have hwindow : window = windowAt unit := by
      funext from'
      simp [window, windowAt, ← List.map_eq_flatMap]
    simp only [v1, v2, hwindow]
    rw [hfilter.fir_eq (by omega) (by omega), firValue, hstart, hnextStart, hrow, hnext, hrem]
    rfl

/-- Settles O45, by the history from its cursor. -/
theorem historyWindowSlides : Obligations.HistoryWindowSlides := by
  intro unit pushed x hwf hmirror hlen hpush
  obtain ⟨hcur, hpushed⟩ := pushSample_some hpush
  have hcur' : unit.cur < 2048 := hcur
  have hcurPushed : pushed.cur = (unit.cur + 1) % 2048 := pushSample_cur hpush
  have hlenPushed : pushed.len = unit.len := by rw [hpushed]
  simp only [windowStart, params_ringHalf, hlenPushed]
  refine ⟨by omega, by omega, ?_, fun j hj => ?_⟩
  · have hnewest := fromCursor_push hpush hwf hmirror (i := 2047) (by decide)
    rw [if_pos (by rfl), fromCursor] at hnewest
    rw [← hnewest]
    congr 1
    omega
  · have hother := fromCursor_push hpush hwf hmirror (i := (2047 - unit.len).toNat + j)
      (by rw [params_ringHalf]; omega)
    rw [if_neg (by rw [params_ringHalf]; omega), fromCursor, fromCursor] at hother
    have hleft : pushed.cur + ((2047 - unit.len).toNat + j) =
        ((pushed.cur : Int) - unit.len + (2048 : Nat) - 1).toNat + j := by omega
    have hright : unit.cur + ((2047 - unit.len).toNat + j + 1) =
        ((unit.cur : Int) - unit.len + (2048 : Nat) - 1).toNat + j + 1 := by omega
    rwa [hleft, hright] at hother

end Sys2Proof.Machine

/-!
PROOF. What every step keeps (spec/10_state.md sections 2 to 4, spec/20_memory.md sections 3 to 5,
spec/42_resampler_stream.md section 3): under the reference numerics, its `RES_ERR_K` and any other setting, each
command's effect on its unit, then each way a step ends; and that no step stops.
-/

namespace Sys2Proof.Machine

/-! ## Units, cache and response, each on its own -/

section parts
variable {P : Params F} {c : Cache F} {unit unit' : RsUnit F}

theorem codeBits_le_six {code : RspCode} (h : code ≠ .eHalted) : (codeBits code).toNat ≤ 6 := by
  cases code with
  | eHalted => exact absurd rfl h
  | ok | eIllegal | eArg | eRatio | eLen | eQrange | eUnconfig => decide

theorem RsSound.withErr (h : RsSound P c unit) {e : BitVec 4} (he : e.toNat ≤ 6) :
    RsSound P c { unit with err := e } := { h with errCode := he }

/-- A unit is sound in every cache that keeps its table. -/
theorem RsSound.ofCache (h : RsSound P c unit) {c' : Cache F}
    (hkeep : ∀ k table, c.find? k = some table → c'.find? k = some table) : RsSound P c' unit :=
  { h with table := fun hc => hkeep _ _ (h.table hc) }

/-- A unit after hardware reset is sound in any core. -/
theorem rsSound_reset (P : Params F) (c : Cache F) : RsSound P c RsUnit.reset where
  histForm := rfl
  mirrored := fun _ _ => rfl
  errCode := Nat.zero_le _
  cursor := nofun
  lenOdd := nofun
  lenShort := nofun
  resPositive := nofun
  ratio := nofun
  ratioTruncated := nofun
  phase := nofun
  table := nofun

/-- A sound configured unit has what the filtering step needs. -/
theorem RsSound.filterable (h : RsSound P c unit) (hc : unit.cfgv = true) :
    Filterable P c unit (tableOfKey P (unitKey unit)) where
  cursor := h.cursor hc
  lenShort := h.lenShort hc
  resPositive := h.resPositive hc
  found := h.table hc
  rows := by
    have := h.resPositive hc
    rw [tableOfKey, buildTable, List.length_map, List.length_range]
    exact Int.toNat_of_nonneg (by change 0 ≤ unit.res; omega)
  columns := fun row hrow => by
    rw [tableOfKey, buildTable] at hrow
    obtain ⟨i, -, rfl⟩ := List.mem_map.mp hrow
    rw [List.length_map, List.length_range]
    rfl

/-- An input keeps a unit sound: the history by the mirrored write, the accumulator by R170. -/
theorem RsSound.input (h : RsSound P c unit) (hc : unit.cfgv = true) {x : F}
    (hin : InputLeaves P c unit x unit') (herr : unit'.err.toNat ≤ 6) : RsSound P c unit' := by
  have hkey : unit'.len = unit.len ∧ unit'.res = unit.res ∧ unit'.rbits = unit.rbits := by
    simpa [unitKey] using hin.key
  obtain ⟨hlen, hres, hrbits⟩ := hkey
  have hwf := pushSample_wf hin.stored h.histForm
  have hread := pushSample_read hin.stored h.histForm
  have hcur := pushSample_cur hin.stored
  simp only at hcur
  have hcursor := h.cursor hc
  exact {
    histForm := hwf
    mirrored := fun k hk => by
      have hlow := hread k
      have hhigh := hread (k + P.ringHalf)
      simp only at hlow hhigh
      rw [hlow, hhigh, h.mirrored k hk]
      exact if_congr (by omega) rfl rfl
    errCode := herr
    cursor := fun _ => by
      rw [hcur]
      exact Nat.mod_lt _ (by omega)
    lenOdd := fun _ => hlen ▸ h.lenOdd hc
    lenShort := fun _ => hlen ▸ h.lenShort hc
    resPositive := fun _ => hres ▸ h.resPositive hc
    ratio := fun _ => hin.cps ▸ h.ratio hc
    ratioTruncated := fun _ => by
      rw [hin.cps, hrbits]
      exact h.ratioTruncated hc
    phase := fun _ => by
      have hphase := h.phase hc
      have hratio := h.ratio hc
      rw [hin.acc, hin.cps]
      split <;> omega
    table := fun _ => by
      rw [hin.key]
      exact h.table hc }

theorem RsSound.cleared (h : RsSound P c unit) : RsSound P c (clearedRs P unit) :=
  { h with
    histForm := silentHistory_wf P
    mirrored := fun k hk => by
      change (silentHistory P).read k = (silentHistory P).read (k + P.ringHalf)
      rw [silentHistory_read (by omega), silentHistory_read (by omega)]
    phase := fun hc => ⟨le_rfl, by
      have := (h.ratio hc).1
      change (0 : Int) < unit.cps.toInt
      omega⟩ }

theorem cacheSound_lookupOrBuild (h : CacheSound P c) {k : FilterKey} (hodd : k.len % 2 = 1) (hres : 1 ≤ k.res) :
    CacheSound P (lookupOrBuild P c k) := by
  rw [lookupOrBuild]
  cases c.find? k with
  | some _ => exact h
  | none =>
    refine ⟨Cache.wf_insert h.form, fun e he => ?_, fun e he => ?_, fun e he => ?_⟩ <;>
      rcases Cache.mem_insert he with rfl | he
    · exact hodd
    · exact h.keyLength e he
    · exact hres
    · exact h.keyResolution e he
    · rfl
    · exact h.coherent e he

end parts

/-! ### Construction -/

section construction
variable {P : Params F} (hnum : P.num = Binary64.ops) (hresErr : P.resErrK = params.resErrK) (hring : 1 ≤ P.ringHalf)
include hnum hresErr

/-- The key of an accepted construction is one (R24). -/
theorem designKey_range {fclk fs fpass : F} {d : Design F} (hd : designFilter P fclk fs fpass = .ok d) :
    d.len % 2 = 1 ∧ 1 ≤ d.res := by
  obtain ⟨-, -, hcps, hlen, hres⟩ := designFilter_eq_ok hd
  obtain ⟨-, -, hodd, -⟩ := filterLength_eq_some hlen
  rw [hodd, hres]
  exact ⟨oddLength_odd .., (phaseResolution_range hnum hresErr hcps).1⟩

include hring

/-- A construction leaves a sound unit (R148). -/
theorem rsSound_constructedRs {fclk fs fpass : F} {d : Design F} (hd : designFilter P fclk fs fpass = .ok d)
    {c : Cache F} (hc : CacheSound P c) :
    RsSound P (lookupOrBuild P c (designKey P d)) (constructedRs P d) := by
  obtain ⟨hodd, hres⟩ := designKey_range hnum hresErr hd
  obtain ⟨-, -, hcps, hlen, -⟩ := designFilter_eq_ok hd
  obtain ⟨-, -, -, hshort⟩ := filterLength_eq_some hlen
  obtain ⟨-, -, hfloor, hmax⟩ := ratioFixed_eq_some hcps
  have hmin := le_ratioFixed hnum hcps
  have hlimit := accLimit_le P
  have hvalue : (BitVec.ofInt 32 d.cps).toInt = d.cps := (accOf?_fits (P := P) (by omega) (by omega)).2
  have hpattern : P.num.ofBits (P.num.bits d.ratio) = d.ratio := by
    rw [hnum]
    rfl
  exact {
    histForm := silentHistory_wf P
    mirrored := fun k hk => by
      change (silentHistory P).read k = (silentHistory P).read (k + P.ringHalf)
      rw [silentHistory_read (by omega), silentHistory_read (by omega)]
    errCode := Nat.zero_le _
    cursor := fun _ => hring
    lenOdd := fun _ => hodd
    lenShort := fun _ => hshort
    resPositive := fun _ => hres
    ratio := fun _ => by
      change 1024 ≤ (BitVec.ofInt 32 d.cps).toInt ∧ (BitVec.ofInt 32 d.cps).toInt ≤ _
      rw [hvalue]
      exact ⟨hmin, hmax⟩
    ratioTruncated := fun _ => by
      change (BitVec.ofInt 32 d.cps).toInt = (P.num.toRat (P.num.ofBits (P.num.bits d.ratio)) * 1024).floor
      rw [hvalue, hpattern, hfloor]
    phase := fun _ => ⟨le_rfl, by
      change (0 : Int) < (BitVec.ofInt 32 d.cps).toInt
      omega⟩
    table := fun _ => lookupOrBuild_find?_same P (designKey P d) hc.coherent }

/-- The effect of an `RS` command on a sound unit. -/
theorem RsEffects.sound {i : Instr} {c : Cache F} {unit : RsUnit F} {e : RsEffect} (h : RsEffects P i c unit e)
    (hu : RsSound P c unit) (hc : CacheSound P c) :
    RsSound P e.cache { e.unit with err := codeBits e.code } ∧ CacheSound P e.cache := by
  have hcode := codeBits_le_six h.code_ne_halted
  cases h with
  | refused | output => exact ⟨hu.withErr hcode, hc⟩
  | reset => exact ⟨hu.cleared.withErr hcode, hc⟩
  | input _ hcfgv hin =>
    have hleaves := inputLeaves hin
    refine ⟨hu.input hcfgv (x := _) ⟨hleaves.stored, hleaves.cfgv, hleaves.cps, hleaves.key, hleaves.due,
      hleaves.notDue⟩ hcode, hc⟩
  | config _ hd =>
    obtain ⟨hodd, hres⟩ := designKey_range hnum hresErr hd
    exact ⟨(rsSound_constructedRs hnum hresErr hring hd hc).withErr hcode, cacheSound_lookupOrBuild hc hodd hres⟩

end construction

/-! ### Integrator units -/

section integrator
variable {unit : InUnit F} {ntt : Nat}

theorem InSound.withErr (h : InSound ntt unit) {e : BitVec 4} (he : e.toNat ≤ 6) :
    InSound ntt { unit with err := e } := { h with errCode := he }

theorem inSound_reset (ntt : Nat) : InSound ntt (InUnit.reset : InUnit F) :=
  ⟨Nat.zero_le _, nofun, nofun, by decide⟩

/-- The effect of an `IN` command on a sound unit. -/
theorem InWrites.sound {P : Params F} {i : Instr} {tt : List (Memory U16)} {unit' : InUnit F} {code : RspCode}
    {value : BitVec 64} (h : InWrites P i tt unit unit' code value) (hu : InSound tt.length unit) :
    InSound tt.length { unit' with err := codeBits code } := by
  have hcode := codeBits_le_six h.code_ne_halted
  cases h with
  | refused => exact hu.withErr hcode
  | config _ hk => exact ⟨hcode, nofun, fun _ => hk, (by decide : (0 : Int) ≤ (0#32).toInt ∧ (0#32).toInt ≤ 65535)⟩
  | setfc _ hc => exact { hu with errCode := hcode, driven := fun _ => hc }
  | setv => exact { hu with errCode := hcode }
  | @solve _ _ table =>
    refine { hu with errCode := hcode, voltage := ?_ }
    generalize table.read _ = v
    have hv := v.isLt
    rw [toInt_ofInt_of_fitsS32 (fitsS32_u16 v)]
    omega

end integrator

/-! ## Every step -/

section step
variable {P : Params F} {s t : State}

theorem responseSound_respond {code : RspCode} (st : BitVec 16) (v : BitVec 64)
    (h : code = .eHalted ↔ s.halted = true) : ResponseSound (s.respond code st v) := by
  intro r hr
  obtain rfl := Option.some.inj hr
  rw [rspFaultReg_responseOf, rspCode_responseOf]
  exact ⟨rfl, ⟨fun he => h.mp (codeBits_injective he), fun hh => congrArg codeBits (h.mpr hh)⟩⟩

/-- A response by the halt alone keeps a sound state sound. -/
theorem State.Over.Sound.respond (h : s.Sound P) {code : RspCode} (st : BitVec 16) (v : BitVec 64)
    (hcode : code = .eHalted ↔ s.halted = true) : (s.respond code st v).Sound P :=
  { h with response := responseSound_respond st v hcode }

theorem State.Over.Sound.answerIllegal (h : s.Sound P) (hh : s.halted = false) : s.answerIllegal.Sound P :=
  h.respond 0 0 (by simp [hh])

theorem State.Over.Sound.answerHalted (h : s.Sound P) (hh : s.halted = true) (st : BitVec 16) :
    (s.answerHalted st).Sound P :=
  h.respond st 0 (by simp [hh])

theorem State.Over.Sound.illegalFrame (h : s.Sound P) : (illegalFrame s).Sound P := by
  rw [Machine.illegalFrame]
  split
  next hh => exact h.answerHalted hh 0
  next hh => exact h.answerIllegal (by simpa using hh)

theorem State.Over.Sound.takeEvent (h : s.Sound P) : s.takeEvent.Sound P := { h with }

/-- The state after a reset with counts in range is sound. -/
theorem sound_resetWith (P : Params F) {nrs nin : Nat} {tables : List (Memory U16)}
    (hrs : 1 ≤ nrs ∧ nrs ≤ 256) (hin : 1 ≤ nin ∧ nin ≤ 256) (htt : 1 ≤ tables.length ∧ tables.length ≤ 256)
    (hwf : ∀ m ∈ tables, m.wf 65536 = true) :
    (State.resetWith (F := F) nrs nin tables).Sound P where
  rsCount := by simpa using hrs
  inCount := by simpa using hin
  ttCount := htt
  tables := hwf
  resamplers := fun unit hu => by
    obtain rfl := List.eq_of_mem_replicate hu
    exact rsSound_reset P _
  integrators := fun unit hu => by
    obtain rfl := List.eq_of_mem_replicate hu
    exact inSound_reset _
  cache := ⟨rfl, nofun, nofun, nofun⟩
  fault := .inl rfl
  response := nofun

theorem State.Over.Sound.hardwareReset (h : s.Sound P) : s.hardwareReset.Sound P :=
  { sound_resetWith P h.rsCount h.inCount h.ttCount h.tables with }

variable (hnum : P.num = Binary64.ops) (hresErr : P.resErrK = params.resErrK) (hring : 1 ≤ P.ringHalf)
include hnum hresErr hring

/-- Every way a command ends keeps a sound state sound. -/
theorem Ends.sound {i : Instr} (h : Ends P i s t) (hs : s.Sound P) : t.Sound P := by
  have hkeep := fun k table => h.cache_find? (k := k) (table := table)
  cases h with
  | halted hh => exact hs.answerHalted hh _
  | absent hh => exact hs.answerIllegal hh
  | rs _ hh hu he =>
    have heffect := rsEffects_of_eq_ok he
    obtain ⟨hunit, hcache⟩ :=
      heffect.sound hnum hresErr hring (hs.resamplers _ (List.mem_of_getElem? hu)) hs.cache
    refine { hs with rsCount := ?_, resamplers := fun v hv => ?_, cache := hcache, response := ?_ }
    · rw [rsWrite, rsFinish_rs, List.length_set]
      exact hs.rsCount
    · rcases List.mem_or_eq_of_mem_set hv with hv | rfl
      · exact (hs.resamplers v hv).ofCache hkeep
      · exact hunit
    · exact responseSound_respond _ _ (iff_of_false heffect.code_ne_halted (Bool.eq_false_iff.mp hh))
  | written _ hh hn he =>
    have heffect := inWrites_of_eq_written he
    have hunit := heffect.sound (hs.integrators _ (List.mem_of_getElem? hn))
    refine { hs with inCount := ?_, integrators := fun v hv => ?_, fault := ?_, response := ?_ }
    · rw [inFinish_ins, List.length_set]
      exact hs.inCount
    · rcases List.mem_or_eq_of_mem_set hv with hv | rfl
      · exact hs.integrators v hv
      · exact hunit
    · rw [inFinish_ins, List.length_set]
      exact hs.fault
    · exact responseSound_respond _ _ (iff_of_false heffect.code_ne_halted (Bool.eq_false_iff.mp hh))
  | raised _ hh hn he =>
    obtain ⟨hlt, -⟩ := List.getElem?_eq_some_iff.mp hn
    exact { hs with
      fault := .inr ⟨_, _, hlt, rfl⟩
      response := responseSound_respond _ _ (iff_of_true rfl (faultFlag_faultRegOf ..)) }

theorem stepWith_sound (hs : s.Sound P) (h : stepWith P s = .next t) : t.Sound P := by
  rcases stepBy_next h with ⟨-, rfl⟩ | ⟨rest, -, rfl⟩ | ⟨f, rest, -, -, rfl⟩ | ⟨f, rest, i, -, -, hexec⟩
  · exact hs
  · exact hs.takeEvent.hardwareReset
  · exact hs.takeEvent.illegalFrame
  · exact (execWith_ends hexec).sound hnum hresErr hring hs.takeEvent

end step

/-! ## No step stops -/

section progress
variable {P : Params F} {s : State}

/-- A sound unit's effect is one. -/
theorem exists_rsEffect {i : Instr} {c : Cache F} {unit : RsUnit F} (hu : RsSound P c unit) :
    ∃ e, rsEffect P i c unit = .ok e := by
  cases i with
  | inConfig | inSetfc | inSetv | inSolve => exact ⟨_, rfl⟩
  | rsConfig =>
    simp only [rsEffect]
    split <;> exact ⟨_, rfl⟩
  | rsOutput | rsReset =>
    simp only [rsEffect]
    split <;> exact ⟨_, rfl⟩
  | rsInput u x =>
    simp only [rsEffect]
    cases hc : unit.cfgv with
    | false => exact ⟨_, rfl⟩
    | true =>
      obtain ⟨unit', hin⟩ := (hu.filterable hc).exists_inputUnit (realOf P.num x) (hu.phase hc) (hu.ratio hc)
      simp only [hin]
      exact ⟨_, rfl⟩

theorem inEffect_ne_stopped {i : Instr} {tt : List (Memory U16)} {unit : InUnit F} (hu : InSound tt.length unit)
    (f : Fault) : inEffect P i tt unit ≠ .stopped f := by
  cases i with
  | rsConfig | rsInput | rsOutput | rsReset => exact nofun
  | inConfig =>
    simp only [inEffect]
    split <;> exact nofun
  | inSetfc | inSetv =>
    simp only [inEffect]
    split
    · exact nofun
    · split <;> exact nofun
  | inSolve =>
    simp only [inEffect]
    split
    next => exact nofun
    next hc =>
      split
      next => exact nofun
      next =>
        split
        next hnone =>
          have hcfgv : unit.cfgv = true := by
            simp only [Bool.or_eq_true, Bool.not_eq_true', not_or, Bool.not_eq_false] at hc
            exact hc.1
          have := hu.selected hcfgv
          have := List.getElem?_eq_none_iff.mp hnone
          omega
        next => exact nofun

/-- A command on a sound state answers one. -/
theorem exists_execWith (hs : s.Sound P) (i : Instr) : ∃ t, execWith P i s = .next t := by
  cases hh : s.halted with
  | true => exact ⟨_, execWith_halted hh⟩
  | false =>
    by_cases hp : unitPresent i s
    · cases hi : resamplerCommand i with
      | true =>
        have hlt : unitOf i < s.rs.length := by simpa [unitPresent, hi] using hp
        have hu := List.getElem?_eq_getElem hlt
        obtain ⟨e, he⟩ := exists_rsEffect (i := i) (hs.resamplers _ (List.mem_of_getElem? hu))
        exact ⟨_, by rw [execWith_rsUnit hi hh hu, he, rsEnd]⟩
      | false =>
        have hlt : unitOf i < s.ins.length := by simpa [unitPresent, hi] using hp
        have hn := List.getElem?_eq_getElem hlt
        have hgo := inEffect_ne_stopped (P := P) (i := i) (hs.integrators _ (List.mem_of_getElem? hn))
        rw [execWith_inUnit hi hh hn]
        cases he : inEffect P i s.tt s.ins[unitOf i] with
        | stopped f => exact absurd he (hgo f)
        | written | raised => exact ⟨_, rfl⟩
    · exact ⟨_, execWith_absent hh hp⟩

/-- A frame of the right length is a command or has an illegal header (R81, R82, R86). -/
theorem decode_of_legal {f : Frame} (h : (HostEvent.frame f).legal = true) :
    (∃ i, decode f = .ok i) ∨ decode f = .error .illegalHeader := by
  have hslots : f.slots.length = slotCount f.hdr := by simpa [HostEvent.legal] using h
  rw [slotCount] at hslots
  cases hrow : rowOf f.hdr with
  | none =>
    simp only [hrow] at hslots
    exact .inr (decode_eq_illegal.mpr ⟨hrow, List.eq_nil_of_length_eq_zero hslots⟩)
  | some r =>
    simp only [hrow] at hslots
    obtain ⟨i, hi⟩ := Option.isSome_iff_exists.mp (commandOfRow_isSome (u := headerUnit f.hdr).mpr hslots)
    exact .inl ⟨i, decode_eq_ok.mpr ⟨r, hrow, hi⟩⟩

theorem exists_stepWith (hs : s.Sound P) (hlegal : ∀ e rest, s.events = e :: rest → e.legal = true) :
    ∃ t, stepWith P s = .next t := by
  cases he : s.events with
  | nil => exact ⟨s, by simp [stepWith, stepBy, fetch, he]⟩
  | cons e rest =>
    cases e with
    | hardwareReset => exact ⟨_, by simp [stepWith, stepBy, fetch, he]; rfl⟩
    | frame f =>
      rcases decode_of_legal (hlegal _ _ he) with ⟨i, hd⟩ | hd
      · obtain ⟨t, ht⟩ := exists_execWith hs.takeEvent i
        exact ⟨t, by simpa [stepWith, stepBy, fetch, he, hd] using ht⟩
      · exact ⟨_, by simp [stepWith, stepBy, fetch, he, hd]; rfl⟩

end progress

/-! ## Lengths at the values of R9 -/

theorem lengthsInRange_hardwareReset (s : State) : s.hardwareReset.LengthsInRange where
  units := fun unit hu hc => by
    obtain rfl := List.eq_of_mem_replicate hu
    cases hc
  keys := nofun

/-- A command keeps every length at 7 at least: only a construction makes one. -/
theorem Ends.lengthsInRange {i : Instr} {s t : State} (h : Ends params i s t) (hs : s.LengthsInRange) :
    t.LengthsInRange := by
  cases h with
  | halted | absent | written | raised => exact ⟨hs.units, hs.keys⟩
  | @rs unit e _ _ hu he =>
    suffices hkept : (e.unit.cfgv = true → 7 ≤ e.unit.len) ∧ ∀ entry ∈ e.cache, 7 ≤ entry.1.len by
      refine ⟨fun v hv hc => ?_, hkept.2⟩
      rcases List.mem_or_eq_of_mem_set hv with hv | rfl
      · exact hs.units v hv hc
      · exact hkept.1 hc
    have hunit := hs.units unit (List.mem_of_getElem? hu)
    cases rsEffects_of_eq_ok he with
    | refused | output | reset => exact ⟨hunit, hs.keys⟩
    | input _ hc hin =>
      exact ⟨fun _ => (hunit hc).trans_eq (congrArg FilterKey.len (inputLeaves hin).key).symm, hs.keys⟩
    | config _ hd =>
      have hseven := filterLengthAtLeastSeven _ _ _ _ hd
      refine ⟨fun _ => hseven, fun entry hentry => ?_⟩
      rw [lookupOrBuild] at hentry
      split at hentry
      next => exact hs.keys entry hentry
      next =>
        rcases Cache.mem_insert hentry with rfl | hentry
        · exact hseven
        · exact hs.keys entry hentry

/-! ## The statements -/

theorem params_ringHalf_pos : 1 ≤ params.ringHalf := by decide

/-- Settles O13: soundness over the ways a step ends; the lengths by the shortest filter's. -/
theorem everyStepKeepsInvariants : Obligations.EveryStepKeepsInvariants := by
  refine ⟨fun s t hs h => ?_, fun s t hs h => ?_⟩
  · exact stepWith_sound params_num rfl params_ringHalf_pos hs ((stepWith_params s).symm.trans h)
  · rcases step_next h with ⟨-, rfl⟩ | ⟨rest, -, rfl⟩ | ⟨f, rest, -, -, rfl⟩ | ⟨f, rest, i, -, -, hexec⟩
    · exact hs
    · exact lengthsInRange_hardwareReset _
    · have hunits := (illegalFrame_units s.takeEvent).1
      have hcache := (illegalFrame_keeps s.takeEvent).2.1
      exact ⟨by rw [hunits]; exact hs.units, by rw [hcache]; exact hs.keys⟩
    · exact (exec_ends hexec).lengthsInRange ⟨hs.units, hs.keys⟩

/-- Settles O14. -/
theorem soundCoreNeverStops : Obligations.SoundCoreNeverStops := by
  intro s hs hlegal
  rw [stepWith_params]
  exact exists_stepWith hs hlegal

/-- Settles O12. -/
theorem resetStateIsSound : Obligations.ResetStateIsSound := by
  refine ⟨sound_resetWith params (nrs := params.nrs) (nin := params.nin)
    (tables := List.replicate params.ntt []) (by decide) (by decide)
    (by rw [List.length_replicate]; decide) State.reset_memories_wf.1, ⟨fun unit hu hc => ?_, nofun⟩,
    fun nrs nin tables hrs hrs' hin hin' htt htt' hwf => ?_⟩
  · obtain rfl := List.eq_of_mem_replicate hu
    cases hc
  · exact sound_resetWith params ⟨hrs, hrs'⟩ ⟨hin, hin'⟩ ⟨htt, htt'⟩ hwf

/-- Settles O60: the lemmas above name no other parameter. -/
theorem otherSettingsKeepInvariants : Obligations.OtherSettingsKeepInvariants := by
  intro P hnum hresErr hring
  refine ⟨fun s t => stepWith_sound hnum hresErr hring, fun s => exists_stepWith, ?_⟩
  intro tables hrs hrs' hin hin' htt htt' hwf
  exact sound_resetWith P ⟨hrs, hrs'⟩ ⟨hin, hin'⟩ ⟨htt, htt'⟩ hwf

end Sys2Proof.Machine

/-!
PROOF. Sequences of samples (spec/42_resampler_stream.md sections 1 to 5): what one `RS.INPUT` leaves in a sound
state, the first output after a reset, the cadence of outputs, and that two reset units of equal configuration
answer alike.
-/

namespace Sys2Proof.Machine

/-! ## One input -/

section input
variable {s : State} {u : Nat} {unit unit' : RsUnit F} {x : F}

theorem InputLeaves.withErr {c : Cache F} (h : InputLeaves params c unit x unit') (e : BitVec 4) :
    InputLeaves params c unit x { unit' with err := e } :=
  ⟨h.stored, h.cfgv, h.cps, h.key, h.due, h.notDue⟩

/-- The state after an input that leaves `unit'`, ERR 0, and the response OK (R89, R160). -/
def afterInput (s : State) (u : Nat) (unit' : RsUnit F) : State :=
  { s with
    rs := s.rs.set u unit'
    rsp := some (responseOf .ok (rsStatus unit') s.faultReg 0) }

/-- An input to a configured unit that has what the filtering step needs, its phase and ratio in range. -/
theorem exec_rsInput_of_filterable {table : FilterTable F} (hh : s.halted = false) (hu : s.rs[u]? = some unit)
    (hc : unit.cfgv = true) (hfilter : Filterable params s.cache unit table)
    (hphase : 0 ≤ unit.acc.toInt ∧ unit.acc.toInt < unit.cps.toInt)
    (hratio : 1024 ≤ unit.cps.toInt ∧ unit.cps.toInt ≤ 2 ^ 31 - 1024) (x : F) :
    ∃ unit', unit'.err = 0 ∧ InputLeaves params s.cache unit x unit' ∧
      exec (.rsInput u x) s = .next (afterInput s u unit') := by
  obtain ⟨unit', hin⟩ := hfilter.exists_inputUnit x hphase hratio
  refine ⟨{ unit' with err := 0 }, rfl, (inputLeaves hin).withErr 0, ?_⟩
  rw [exec_eq_execWith, execWith_rsUnit (i := .rsInput u x) rfl hh hu]
  simp only [rsEffect, hc, Bool.not_true, Bool.false_eq_true, if_false, params_num, Binary64.realOf_ops, hin]
  rfl

theorem exec_rsInput_of_sound (hs : s.Sound params) (hh : s.halted = false) (hu : s.rs[u]? = some unit)
    (hc : unit.cfgv = true) (x : F) :
    ∃ unit', unit'.err = 0 ∧ InputLeaves params s.cache unit x unit' ∧
      exec (.rsInput u x) s = .next (afterInput s u unit') := by
  have hunit := hs.resamplers unit (List.mem_of_getElem? hu)
  exact exec_rsInput_of_filterable hh hu hc (hunit.filterable hc) (hunit.phase hc) (hunit.ratio hc) x

theorem afterInput_unit (hu : s.rs[u]? = some unit) (unit' : RsUnit F) :
    (afterInput s u unit').rs[u]? = some unit' := by
  obtain ⟨hlt, -⟩ := List.getElem?_eq_some_iff.mp hu
  exact List.getElem?_set_self hlt

end input

/-- Settles O42: what an input leaves, its stored sample read back. -/
theorem rsInputStoresAndAdvances : Obligations.RsInputStoresAndAdvances := by
  intro s u x unit hs hh hu
  refine ⟨fun hc => ?_, fun hc => ?_⟩
  · exact onRs_of_unconfigured _ hh hu hc
  · obtain ⟨unit', herr, hin, hexec⟩ := exec_rsInput_of_sound hs hh hu hc x
    have hkey : unit'.len = unit.len ∧ unit'.res = unit.res ∧ unit'.rbits = unit.rbits := by
      simpa [unitKey] using hin.key
    have hform := (hs.resamplers unit (List.mem_of_getElem? hu)).histForm
    exact ⟨unit', hexec, pushSample_read hin.stored hform, pushSample_cur hin.stored, herr, hin.cfgv.trans hc,
      hin.cps, hkey.1, hkey.2.1, hkey.2.2, hin.due, hin.notDue⟩

/-! ## The first output -/

section first
open Binary64

/-- A history of zeros is mirrored, and zero from its cursor on. -/
theorem Silent.fromCursor {unit : RsUnit F} (h : Silent params unit) (hcur : unit.cur < 2048) {i : Nat} (hi : i < 2048) :
    fromCursor unit i = zero :=
  h.history _ (by rw [params_ringHalf]; omega)

theorem Silent.mirrored {unit : RsUnit F} (h : Silent params unit) (k : Nat) (hk : k < params.ringHalf) :
    unit.hist.read k = unit.hist.read (k + params.ringHalf) := by
  rw [h.history k (by omega), h.history _ (by omega)]

theorem isFinite_roundSum_units (s : Bool) {v : F} (hf : isFinite v = true) :
    isFinite (roundSum s (units v)) = true := by
  rw [roundSum]
  split
  · cases s <;> decide
  · rw [natAbs_units, roundMag_exact (m := magField v) Nat.one_pos ((isFinite_iff v).mp hf).le
      (by rw [magUnits_eq, Nat.mul_one]), isFinite_pack _ (magField_lt v)]
    exact (isFinite_iff v).mp hf

/-- With remainder 0 the interpolation of zero with a finite value is positive zero (R165). -/
theorem interpolate_zero {v : F} (hf : isFinite v = true) : interpolate ops zero v 0 = zero := by
  have hsub : isFinite (Binary64.sub v zero) = true := by
    rw [sub_of_isFinite hf isFinite_zero, show units zero = 0 by decide, Int.sub_zero]
    exact isFinite_roundSum_units _ hf
  have hdiv : div (ofInt 0) (ofInt 1024) = zero := by decide +kernel
  rw [interpolate, ops_add, ops_mul, ops_div, ops_ofInt, ops_sub, hdiv, zero_mul_eq hsub]
  cases sign (Binary64.sub v zero) <;> decide

theorem isFinite_zero_add {a : F} (hf : isFinite a = true) : isFinite (add zero a) = true := by
  cases h0 : isZero a with
  | true => rw [zero_add_of_isZero hf h0]; exact isFinite_zero
  | false => rwa [zero_add_eq hf h0]

variable {unit pushed : RsUnit F} {x : F} {cols : List F}

/-- The windows of the first input after a reset: zeros, and where the window is shifted the sample is the newest
(R166). -/
theorem windowAt_first (hs : Silent params unit) (hform : unit.hist.wf 4096 = true) (hcur : unit.cur < 2048)
    (hlen : unit.len < 2048) (hpush : pushSample params unit x = some pushed) :
    windowAt pushed (windowStart params pushed) = List.replicate unit.len.toNat zero ∧
    (unit.len.toNat ≠ 0 → windowAt pushed (windowStart params pushed + 1) =
      List.replicate (unit.len.toNat - 1) zero ++ [x]) := by
  have hlenPushed : pushed.len = unit.len := by rw [(pushSample_some hpush).2]
  have hread : ∀ i < 2048, fromCursor pushed i = if i + 1 = 2048 then x else zero := fun i hi => by
    rw [fromCursor_push hpush hform hs.mirrored hi, params_ringHalf]
    split
    · rfl
    · exact hs.fromCursor hcur (by omega)
  have hbase := windowAt_eq (P := params) (unit := pushed) (by rw [hlenPushed]; exact hlen) 0
  have hshift := windowAt_eq (P := params) (unit := pushed) (by rw [hlenPushed]; exact hlen) 1
  rw [Nat.cast_zero, Int.add_zero] at hbase
  rw [Nat.cast_one] at hshift
  rw [hbase, hshift, hlenPushed, params_ringHalf]
  refine ⟨?_, fun h0 => ?_⟩
  · refine List.eq_replicate_iff.mpr ⟨by simp, fun y hy => ?_⟩
    obtain ⟨j, hj, rfl⟩ := List.mem_map.mp hy
    have := List.mem_range.mp hj
    rw [hread _ (by omega), if_neg (by omega)]
  · obtain ⟨m, hm⟩ := Nat.exists_eq_succ_of_ne_zero h0
    rw [hm, List.range_succ, List.map_append, List.map_singleton, hread _ (by omega), if_pos (by omega),
      Nat.succ_sub_one]
    refine congrArg (· ++ [x]) (List.eq_replicate_iff.mpr ⟨by simp, fun y hy => ?_⟩)
    obtain ⟨j, hj, rfl⟩ := List.mem_map.mp hy
    have := List.mem_range.mp hj
    rw [hread _ (by omega), if_neg (by omega)]

/-- Zeros with one new sample at the end convolve to a finite value where the last product is finite. -/
theorem isFinite_convolve_last (hfin : ∀ c ∈ cols, isFinite c = true) (h0 : cols ≠ [])
    (hlast : ∀ c, cols.getLast? = some c → isFinite (mul x c) = true) :
    isFinite (convolve ops (List.replicate (cols.length - 1) zero ++ [x]) cols) = true := by
  induction cols using List.reverseRecOn with
  | nil => exact absurd rfl h0
  | append_singleton cols c _ =>
    rw [List.length_append, List.length_singleton, Nat.add_sub_cancel,
      convolve_append_singleton ops x c List.length_replicate,
      convolve_replicate_zero fun d hd => hfin d (List.mem_append_left _ hd)]
    exact isFinite_zero_add (hlast c List.getLast?_concat)

end first

open Binary64 in
/-- The first filtering step after a reset gives positive zero (R166): the base window is zeros, the interpolation's
remainder is 0, and the second convolution is finite. -/
theorem firValue_first {c : Cache F} {unit pushed : RsUnit F} {x : F} {table : FilterTable F}
    (hfilter : Filterable params c unit table) (hs : Silent params unit) (hform : unit.hist.wf 4096 = true)
    (hpush : pushSample params unit x = some pushed)
    (hfin : ∀ row ∈ table.take 2, ∀ c ∈ row, isFinite c = true)
    (hone : unit.res = 1 → ∀ row c, table.head? = some row → row.getLast? = some c → isFinite (mul x c) = true) :
    firValue params table pushed = zero := by
  obtain ⟨hcur, hlen, hres, -, hrows, hcolumns⟩ := hfilter
  obtain ⟨hbase, hshift⟩ := windowAt_first hs hform hcur hlen hpush
  have hacc : pushed.acc.toInt = 0 := by
    rw [(pushSample_some hpush).2, hs.accumulator]
    rfl
  have hresPushed : pushed.res = unit.res := by rw [(pushSample_some hpush).2]
  have hrow : phaseRow pushed = 0 := by
    rw [phaseRow, hacc, Int.zero_mul]
    rfl
  have hrowAt : ∀ k : Int, 0 ≤ k → k < unit.res → k < 2 →
      (rowAt table k).length = unit.len.toNat ∧ ∀ c ∈ rowAt table k, isFinite c = true := fun k h0 hk hk2 => by
    have hget := rowAt_eq (table := table) h0 (by omega)
    refine ⟨hcolumns _ (List.mem_of_getElem? hget), hfin _ ?_⟩
    exact List.mem_of_getElem? (i := k.toNat) (by rw [List.getElem?_take_of_lt (by omega), hget])
  have hzeros : ∀ k : Int, 0 ≤ k → k < unit.res → k < 2 →
      convolve ops (List.replicate unit.len.toNat zero) (rowAt table k) = zero := fun k h0 hk hk2 => by
    obtain ⟨hlength, hfinite⟩ := hrowAt k h0 hk hk2
    rw [← hlength]
    exact convolve_replicate_zero hfinite
  rw [firValue, hbase, hrow, hacc, Int.zero_mul, params_num, hzeros 0 le_rfl (by omega) (by omega)]
  refine interpolate_zero ?_
  rw [nextStart, nextRow, hrow, hresPushed]
  by_cases hlast : (0 : Int) + 1 = unit.res
  · rw [if_pos hlast, if_pos hlast]
    obtain ⟨hlength, hfinite⟩ := hrowAt 0 le_rfl (by omega) (by omega)
    by_cases h0 : unit.len.toNat = 0
    · rw [List.length_eq_zero_iff.mp (hlength.trans h0), convolve, List.zip_nil_right]
      exact isFinite_zero
    · rw [hshift h0, ← hlength]
      refine isFinite_convolve_last hfinite (fun hnil => h0 (by rw [← hlength, hnil]; rfl)) fun c hc => ?_
      refine hone hlast.symm _ c ?_ hc
      rw [List.head?_eq_getElem?]
      exact rowAt_eq (row := 0) le_rfl (by omega)
  · rw [if_neg hlast, if_neg hlast, hbase, Int.zero_add, hzeros 1 (by omega) (by omega) (by omega)]
    exact isFinite_zero

/-- The last tap of the first row that a construction builds is a product with zero. -/
theorem getLast?_head?_buildTable {len res : Int} {r c : F} {row : List F} (hodd : len % 2 = 1) (hlen : 3 ≤ len)
    (hlen' : len < 2048) (hres : 1 ≤ res) (hres' : res ≤ 285)
    (hrow : (buildTable params len res r (kaiserBeta params) (kaiserI0Beta params)).head? = some row)
    (hc : row.getLast? = some c) : ∃ a, c = Binary64.mul a Binary64.zero := by
  obtain ⟨a, ha⟩ := rowZero_last_coefficient r hodd hlen hlen' hres hres'
  obtain ⟨m, hm⟩ : ∃ m, res.toNat = m + 1 := ⟨res.toNat - 1, by omega⟩
  obtain ⟨l, hl⟩ : ∃ l, len.toNat = l + 1 := ⟨len.toNat - 1, by omega⟩
  rw [buildTable, hm, List.range_succ_eq_map, List.map_cons, List.head?_cons, Option.some.injEq] at hrow
  rw [← hrow, hl, List.range_succ, List.map_append, List.map_singleton, List.getLast?_concat,
    Option.some.injEq] at hc
  exact ⟨a, by rw [← ha, hl, Nat.add_sub_cancel, ← hc]⟩

/-- Settles O46: the first filtering step is over zeros but for one shifted sample; and the last tap of a built row 0
is a zero. -/
theorem firstOutputIsZero : Obligations.FirstOutputIsZero := by
  refine ⟨?_, ?_⟩
  · intro s u x unit table hh hu hc hform hs hcur hlen hres hratio hratio' hfound hrows hcolumns hfin hone
    have hacc : unit.acc.toInt = 0 := by rw [hs.accumulator]; rfl
    have hfilter : Filterable params s.cache unit table := ⟨hcur, hlen, hres, hfound, hrows, hcolumns⟩
    obtain ⟨unit', -, hin, hexec⟩ :=
      exec_rsInput_of_filterable hh hu hc hfilter ⟨by omega, by omega⟩ ⟨hratio, hratio'⟩ x
    obtain ⟨hready, -, hfir⟩ := hin.due (by omega)
    refine ⟨_, unit', hexec, afterInput_unit hu unit', hready, ?_⟩
    rw [(hfilter.push hin.stored).fir_eq hacc.ge (hacc.trans_lt (by decide)),
      firValue_first hfilter hs hform hin.stored hfin hone] at hfir
    exact (Except.ok.inj hfir).symm
  · intro len res r x hodd hlen hlen' hres hres' _ _ hx row c hrow hc hfin
    obtain ⟨a, rfl⟩ := getLast?_head?_buildTable hodd hlen hlen' hres hres' hrow hc
    have hzero := isZero_mul_zero hfin
    refine ⟨hzero, ?_⟩
    rw [Binary64.mul_zero_eq hx _ hzero hfin]
    cases Binary64.sign _ != Binary64.sign _ <;> decide

/-! ## Sequences of inputs -/

/-- Unit `u` of a running, sound core is `unit`, and configured. -/
structure Streaming (s : State) (u : Nat) (unit : RsUnit F) : Prop where
  sound : s.Sound params
  running : s.halted = false
  addressed : s.rs[u]? = some unit
  configured : unit.cfgv = true

section sequence
variable {s t : State} {u : Nat} {unit : RsUnit F}

theorem Streaming.rsSound (h : Streaming s u unit) : RsSound params s.cache unit :=
  h.sound.resamplers unit (List.mem_of_getElem? h.addressed)

/-- An input leaves such a core. -/
theorem Streaming.input (h : Streaming s u unit) (x : F) :
    ∃ unit', exec (.rsInput u x) s = .next (afterInput s u unit') ∧ Streaming (afterInput s u unit') u unit' ∧
      InputLeaves params s.cache unit x unit' := by
  obtain ⟨unit', -, hin, hexec⟩ := exec_rsInput_of_sound h.sound h.running h.addressed h.configured x
  exact ⟨unit', hexec, ⟨(exec_ends hexec).sound params_num rfl params_ringHalf_pos h.sound, h.running,
    afterInput_unit h.addressed unit', hin.cfgv.trans h.configured⟩, hin⟩

/-- What a unit shows of an input: the output sample where READY. -/
def shownOutput (unit : RsUnit F) : Option F := if unit.ready then some unit.out else none

theorem feed_cons {unit' : RsUnit F} {x : F} {xs : List F} {ys : List (Option F)}
    (hexec : exec (.rsInput u x) s = .next (afterInput s u unit'))
    (hu : (afterInput s u unit').rs[u]? = some unit') (hrest : feed u xs (afterInput s u unit') = some (ys, t)) :
    feed u (x :: xs) s = some (shownOutput unit' :: ys, t) := by
  rw [feed, hexec]
  simp only [hu, hrest]
  rfl

theorem InputLeaves.shown_isSome {c : Cache F} {unit' : RsUnit F} {x : F} (h : InputLeaves params c unit x unit') :
    (shownOutput unit').isSome = true ↔ unit.acc.toInt < 1024 := by
  rw [shownOutput]
  by_cases hdue : unit.acc.toInt < 1024
  · simp [(h.due hdue).1, hdue]
  · simp [(h.notDue (by omega)).1, hdue]

/-- A multiple of the ratio, added to the phase `acc`, falls in input `k` (R171). -/
def FallsIn (acc cps : Int) (k : Nat) : Prop :=
  ∃ j : Nat, 1024 * (k : Int) ≤ acc + j * cps ∧ acc + j * cps < 1024 * (k + 1)

theorem fallsIn_zero_iff {acc cps : Int} (hacc : 0 ≤ acc) (hcps : 0 ≤ cps) : FallsIn acc cps 0 ↔ acc < 1024 := by
  refine ⟨fun ⟨j, _, hj⟩ => ?_, fun hdue => ⟨0, by simpa using ⟨hacc, hdue⟩⟩⟩
  have := Int.mul_nonneg (Int.natCast_nonneg j) hcps
  push_cast at hj
  omega

/-- The inputs after the first are those of the phase that the first one leaves. -/
theorem fallsIn_succ_iff {acc cps : Int} {k : Nat} :
    FallsIn acc cps (k + 1) ↔ FallsIn ((if acc < 1024 then acc + cps else acc) - 1024) cps k := by
  split
  next hdue =>
    refine ⟨fun ⟨j, hj, hj'⟩ => ?_, fun ⟨j, hj, hj'⟩ => ⟨j + 1, ?_, ?_⟩⟩
    · cases j with
      | zero =>
        push_cast at hj
        omega
      | succ j => refine ⟨j, ?_, ?_⟩ <;> push_cast at hj hj' <;> linarith
    · push_cast
      linarith
    · push_cast
      linarith
  next => refine exists_congr fun j => and_congr ?_ ?_ <;> push_cast <;> constructor <;> intro hj <;> linarith

/-- The cadence from any phase: the accumulator counts the outputs, and an input makes one exactly where a multiple
of the ratio, added to the phase, falls in it. -/
theorem Streaming.feed (h : Streaming s u unit) (xs : List F) :
    ∃ ys t unit', Machine.feed u xs s = some (ys, t) ∧ Streaming t u unit' ∧ ys.length = xs.length ∧
      unit'.cps = unit.cps ∧
      unit'.acc.toInt = unit.acc.toInt + ys.countP Option.isSome * unit.cps.toInt - 1024 * xs.length ∧
      ∀ k < xs.length, (∃ y, ys[k]? = some (some y)) ↔ FallsIn unit.acc.toInt unit.cps.toInt k := by
  induction xs generalizing s unit with
  | nil => exact ⟨[], s, unit, rfl, h, rfl, rfl, by simp, nofun⟩
  | cons x xs ih =>
    obtain ⟨mid, hexec, hmid, hin⟩ := h.input x
    obtain ⟨ys, t, last, hfeed, hlast, hlength, hcps, hacc, houts⟩ := ih hmid
    have hphase := h.rsSound.phase h.configured
    have hratio := h.rsSound.ratio h.configured
    rw [hin.cps] at hcps hacc houts
    rw [hin.acc] at hacc houts
    refine ⟨_, t, last, feed_cons hexec hmid.addressed hfeed, hlast, by simp [hlength], hcps, ?_, fun k hk => ?_⟩
    · rw [hacc, List.countP_cons, List.length_cons]
      simp only [hin.shown_isSome]
      split <;> push_cast <;> linarith
    · cases k with
      | zero =>
        rw [fallsIn_zero_iff hphase.1 (by omega), ← hin.shown_isSome]
        simp [Option.isSome_iff_exists]
      | succ k => rw [List.getElem?_cons_succ, houts k (by simpa using hk), fallsIn_succ_iff]

end sequence

/-- Settles O47: the counting from phase 0, with the phase after in 0..CPS-1. -/
theorem cadenceOfOutputs : Obligations.CadenceOfOutputs := by
  intro s u unit xs hs hh hu hc hzero
  obtain ⟨ys, t, unit', hfeed, hend, hlength, hcps, hacc, houts⟩ := (Streaming.mk hs hh hu hc).feed xs
  have hphase := hend.rsSound.phase hend.configured
  have hratio := hend.rsSound.ratio hend.configured
  refine ⟨ys, t, unit', hfeed, hend.addressed, hlength, ?_⟩
  intro cps outputs
  have hcpsInt : unit.cps.toInt = cps := by
    rw [hcps] at hratio
    exact (Int.toNat_of_nonneg (by omega)).symm
  have hstart : unit.acc.toInt = 0 := by rw [hzero]; rfl
  rw [hcps, hcpsInt] at hphase hratio
  have hpos : 0 < cps := by omega
  rw [hstart, hcpsInt, Int.zero_add] at hacc
  change unit'.acc.toInt = (outputs : Int) * cps - 1024 * xs.length at hacc
  refine ⟨?_, by rw [hacc, hcpsInt], fun k hk => (houts k hk).trans (exists_congr fun j => ?_)⟩
  · rw [hacc] at hphase
    obtain ⟨hlow, hhigh⟩ := hphase
    have hlow' : 1024 * xs.length ≤ outputs * cps := by zify; linarith
    have hhigh' : outputs * cps < 1024 * xs.length + cps := by zify; linarith
    symm
    rw [Nat.div_eq_iff hpos]
    omega
  · rw [hstart, hcpsInt, Int.zero_add]
    norm_cast
    omega

/-! ## Two reset units of equal configuration -/

/-- Two units that no `RS.INPUT` tells apart: equal configuration and phase, and the same samples from the cursor. -/
structure SameStream (a b : RsUnit F) : Prop where
  key : unitKey a = unitKey b
  cps : a.cps = b.cps
  acc : a.acc = b.acc
  samples : ∀ i < 2048, fromCursor a i = fromCursor b i

section same
variable {a b a' b' : RsUnit F} {x : F} {c : Cache F}

theorem SameStream.windowAt_eq (h : SameStream a b) (hlen : a.len < 2048) {e : Nat} (he : e ≤ 1) :
    windowAt a (windowStart params a + e) = windowAt b (windowStart params b + e) := by
  have hlen' : a.len = b.len := congrArg FilterKey.len h.key
  have hb := Machine.windowAt_eq (P := params) (unit := b) (by rw [← hlen']; exact hlen) e
  rw [Machine.windowAt_eq (P := params) hlen, hb, ← hlen', params_ringHalf]
  refine List.map_congr_left fun j hj => h.samples _ ?_
  have := List.mem_range.mp hj
  omega

theorem nextStart_eq (P : Params F) (unit : RsUnit F) :
    nextStart P unit = windowStart P unit + ((if phaseRow unit + 1 = unit.res then 1 else 0 : Nat) : Int) := by
  rw [nextStart]
  split <;> simp

theorem SameStream.firValue_eq (h : SameStream a b) (hlen : a.len < 2048) (table : FilterTable F) :
    firValue params table a = firValue params table b := by
  have hres : a.res = b.res := congrArg FilterKey.res h.key
  have hrow : phaseRow a = phaseRow b := by rw [phaseRow, phaseRow, h.acc, hres]
  have hbase := h.windowAt_eq hlen (e := 0) (by omega)
  have hnext := h.windowAt_eq hlen (e := if phaseRow b + 1 = b.res then 1 else 0) (by split <;> omega)
  rw [Nat.cast_zero, Int.add_zero, Int.add_zero] at hbase
  rw [firValue, firValue, nextStart_eq, nextStart_eq, nextRow, nextRow, hrow, hres, h.acc, hbase, hnext]

/-- Both units store the sample as their newest. -/
theorem SameStream.push (h : SameStream a b) (ha : RsSound params c a) (hb : RsSound params c b)
    (hpa : pushSample params a x = some a') (hpb : pushSample params b x = some b') : SameStream a' b' := by
  obtain ⟨-, ha'⟩ := pushSample_some hpa
  obtain ⟨-, hb'⟩ := pushSample_some hpb
  refine ⟨by rw [ha', hb']; exact h.key, by rw [ha', hb']; exact h.cps, by rw [ha', hb']; exact h.acc,
    fun i hi => ?_⟩
  rw [fromCursor_push hpa ha.histForm ha.mirrored hi, fromCursor_push hpb hb.histForm hb.mirrored hi,
    params_ringHalf]
  split
  · rfl
  · exact h.samples _ (by omega)

/-- An input shows the same of both and leaves them alike. -/
theorem SameStream.input (h : SameStream a b) (ha : RsSound params c a) (hb : RsSound params c b)
    (hca : a.cfgv = true) (hcb : b.cfgv = true) (hia : InputLeaves params c a x a')
    (hib : InputLeaves params c b x b') : shownOutput a' = shownOutput b' ∧ SameStream a' b' := by
  have hpushed := h.push ha hb hia.stored hib.stored
  have hacc := hia.acc
  have hphase := ha.phase hca
  refine ⟨?_, hia.key.trans (h.key.trans hib.key.symm), hia.cps.trans (h.cps.trans hib.cps.symm),
    BitVec.eq_of_toInt_eq ?_, hpushed.samples⟩
  · rw [shownOutput, shownOutput]
    by_cases hdue : a.acc.toInt < 1024
    · obtain ⟨hra, -, hfa⟩ := hia.due hdue
      obtain ⟨hrb, -, hfb⟩ := hib.due (h.acc ▸ hdue)
      rw [((ha.filterable hca).push hia.stored).fir_eq hphase.1 hdue] at hfa
      rw [((hb.filterable hcb).push hib.stored).fir_eq (h.acc ▸ hphase.1) (h.acc ▸ hdue), ← h.key,
        ← hpushed.firValue_eq (ha.lenShort hca), hfa] at hfb
      rw [hra, hrb, Except.ok.inj hfb]
    · rw [(hia.notDue (by omega)).1, (hib.notDue (by rw [← h.acc]; omega)).1]
      rfl
  · rw [hia.acc, hib.acc, h.acc, h.cps]

/-- Any samples show the same of both. -/
theorem SameStream.feed {s s' : State} {u u' : Nat} (h : SameStream a b) (hs : Streaming s u a)
    (hs' : Streaming s' u' b) (hcache : s.cache = s'.cache) (xs : List F) :
    ∃ ys t t', Machine.feed u xs s = some (ys, t) ∧ Machine.feed u' xs s' = some (ys, t') := by
  induction xs generalizing s s' a b with
  | nil => exact ⟨[], s, s', rfl, rfl⟩
  | cons x xs ih =>
    obtain ⟨a', hexec, hmid, hin⟩ := hs.input x
    obtain ⟨b', hexec', hmid', hin'⟩ := hs'.input x
    rw [← hcache] at hin'
    obtain ⟨hshown, hnext⟩ := h.input hs.rsSound (hcache ▸ hs'.rsSound) hs.configured hs'.configured hin hin'
    obtain ⟨ys, t, t', hfeed, hfeed'⟩ := ih hnext hmid hmid' hcache
    refine ⟨_, t, t', feed_cons hexec hmid.addressed hfeed, ?_⟩
    rw [hshown]
    exact feed_cons hexec' hmid'.addressed hfeed'

end same

/-- An `RS` command that answers OK has run on its unit. -/
theorem Ends.rs_of_ok {P : Params F} {i : Instr} {s t : State} {r : BitVec 128} (h : Ends P i s t)
    (hi : resamplerCommand i = true) (hr : t.rsp = some r) (hok : r.extractLsb' 0 4 = 0) :
    ∃ unit e, s.rs[unitOf i]? = some unit ∧ RsEffects P i s.cache unit e ∧ e.code = .ok ∧
      t.rs[unitOf i]? = some { e.unit with err := codeBits e.code } := by
  cases h with
  | halted | absent | raised =>
    obtain rfl := Option.some.inj hr
    rw [responseOf_code] at hok
    exact absurd hok (by decide)
  | written hi' => exact absurd hi (by simp [hi'])
  | rs _ _ hu he =>
    obtain rfl := Option.some.inj hr
    rw [responseOf_code, codeBits_eq_zero] at hok
    obtain ⟨hlt, -⟩ := List.getElem?_eq_some_iff.mp hu
    exact ⟨_, _, hu, rsEffects_of_eq_ok he, hok, List.getElem?_set_self hlt⟩

/-- Settles O48: what the two resets leave, and that units in that state answer alike. -/
theorem resetEquivalence : Obligations.ResetEquivalence := by
  refine ⟨fun s t u r h hr hok => ?_, fun s t u fclk fs fpass r h hr hok => ?_, ?_⟩
  · obtain ⟨old, e, hold, heffect, hcode, hunit⟩ := (exec_ends h).rs_of_ok rfl hr hok
    cases heffect with
    | refused hcode' => exact absurd hcode hcode'.1
    | config hi | input hi | output hi => cases hi
    | reset _ hc =>
      exact ⟨old, _, hold, hunit, ⟨fun k hk => silentHistory_read hk, rfl⟩, rfl, rfl, rfl, rfl, hc⟩
  · obtain ⟨old, e, hold, heffect, hcode, hunit⟩ := (exec_ends h).rs_of_ok rfl hr hok
    cases heffect with
    | refused hcode' => exact absurd hcode hcode'.1
    | reset hi | input hi | output hi => cases hi
    | config => exact ⟨_, hunit, ⟨fun k hk => silentHistory_read hk, rfl⟩, rfl⟩
  · intro s a b ua ub xs hs hh ha hb hca hcb hsa hsb hlen hres hrbits hcps
    have hstream : Streaming s a ua := ⟨hs, hh, ha, hca⟩
    have hstream' : Streaming s b ub := ⟨hs, hh, hb, hcb⟩
    have hsame : SameStream ua ub := {
      key := by rw [unitKey, unitKey, hlen, hres, hrbits]
      cps := hcps
      acc := by rw [hsa.accumulator, hsb.accumulator]
      samples := fun i hi => by
        rw [hsa.fromCursor (hstream.rsSound.cursor hca) hi, hsb.fromCursor (hstream'.rsSound.cursor hcb) hi] }
    exact hsame.feed hstream hstream' rfl xs

end Sys2Proof.Machine

/-!
PROOF. What the Integrator's commands complete with and refuse (spec/43_integrator.md), and the refusals of `RS.CONFIG`
(spec/41_resampler_config.md section 6), at the values of R9.
-/

namespace Sys2Proof.Machine

/-! ## A command on the unit it addresses -/

section addressed
variable {i : Instr} {s t : State}

/-- A refused `IN` command writes ERR and the response (R214). -/
theorem exec_in_refused {unit : InUnit F} {code : RspCode} (hi : resamplerCommand i = false) (hh : s.halted = false)
    (hn : s.ins[unitOf i]? = some unit) (he : inEffect params i s.tt unit = .written unit code 0) :
    exec i s = .next { s with
      ins := s.ins.set (unitOf i) { unit with err := codeBits code }
      rsp := some (responseOf code (inStatus { unit with err := codeBits code }) s.faultReg 0) } := by
  rw [exec_eq_execWith, execWith_inUnit hi hh hn, he, inEnd, ← inError_eq]
  rfl

/-- An `IN` command that completes writes its unit with ERR 0 and the response (R210). -/
theorem exec_in_ok {unit unit' : InUnit F} {value : BitVec 64} (hi : resamplerCommand i = false)
    (hh : s.halted = false) (hn : s.ins[unitOf i]? = some unit)
    (he : inEffect params i s.tt unit = .written unit' .ok value) :
    exec i s = .next { s with
      ins := s.ins.set (unitOf i) { unit' with err := 0 }
      rsp := some (responseOf .ok (inStatus { unit' with err := 0 }) s.faultReg value) } := by
  rw [exec_eq_execWith, execWith_inUnit hi hh hn, he]
  rfl

/-- A refused `RS` command writes ERR and the response (R214). -/
theorem exec_rs_refused {unit : RsUnit F} {code : RspCode} (hi : resamplerCommand i = true) (hh : s.halted = false)
    (hu : s.rs[unitOf i]? = some unit) (he : rsEffect params i s.cache unit = .ok ⟨s.cache, unit, code, 0⟩) :
    exec i s = .next { s with
      rs := s.rs.set (unitOf i) { unit with err := codeBits code }
      rsp := some (responseOf code (rsStatus { unit with err := codeBits code }) s.faultReg 0) } := by
  rw [exec_eq_execWith, execWith_rsUnit hi hh hu, he, rsEnd, rsWrite, State.Over.rsFinish, State.Over.respond, ite_self]

/-- An `IN` command that answers OK has run on its unit. -/
theorem Ends.in_of_ok {P : Params F} {r : BitVec 128} (h : Ends P i s t) (hi : resamplerCommand i = false)
    (hr : t.rsp = some r) (hok : r.extractLsb' 0 4 = 0) :
    ∃ unit unit' value, s.ins[unitOf i]? = some unit ∧ InWrites P i s.tt unit unit' .ok value ∧
      t.ins[unitOf i]? = some { unit' with err := 0 } ∧ r.extractLsb' 64 64 = value := by
  cases h with
  | halted | absent | raised =>
    obtain rfl := Option.some.inj hr
    rw [responseOf_code] at hok
    exact absurd hok (by decide)
  | rs hi' => exact absurd hi (by simp [hi'])
  | written _ _ hn he =>
    obtain rfl := Option.some.inj hr
    rw [responseOf_code, codeBits_eq_zero] at hok
    subst hok
    obtain ⟨hlt, -⟩ := List.getElem?_eq_some_iff.mp hn
    exact ⟨_, _, _, hn, inWrites_of_eq_written he, List.getElem?_set_self hlt, responseOf_value ..⟩

end addressed

/-! ## IN.SOLVE -/

section solve
variable {P : Params F} {unit : InUnit F} {vi : Int}

/-- The converse of `solveFault_eq_none`. -/
theorem solveFault_of_passed (hvx : unit.vx.toInt < unit.nvgt.toNat)
    (hd : fitsS32 (driveDifference unit vi) = true) (hi : fitsS32 (driveCurrent P unit vi) = true)
    (hvc : fitsS32 (newCharge P unit vi) = true)
    (hidx : 0 ≤ chargeIndex P (newCharge P unit vi) ∧ chargeIndex P (newCharge P unit vi) ≤ 65535) :
    solveFault P unit vi = none := by
  simp [solveFault, hvx, hd, hi, hvc, hidx]

/-- The effect of a step that passes every check. -/
theorem inEffect_inSolve_of_passed (n : Nat) {tt : List (Memory U16)} {table : Memory U16} (hc : unit.cfgv = true)
    (hv : unit.ndacv = true) (hf : solveFault P unit vi = none) (ht : tt[unit.ttsel]? = some table) :
    inEffect P (.inSolve n vi) tt unit = .written
      { unit with
        vc := BitVec.ofInt 32 (newCharge P unit vi)
        vx := BitVec.ofInt 32 (table.read (chargeIndex P (newCharge P unit vi)).toNat).toNat }
      .ok (sextValue (solveResult P (table.read (chargeIndex P (newCharge P unit vi)).toNat).toNat
        (newCharge P unit vi))) := by
  simp only [inEffect, hc, hv, hf, ht, Bool.not_true, Bool.or_self, Bool.false_eq_true, if_false]

end solve

/-- Settles O26: no check fails, and the result fits its register. -/
theorem solveRunsOneCycle : Obligations.SolveRunsOneCycle := by
  intro s n vi unit table hh hn hc hv ht nvgt vgst vgdt d i vc idx hvx hd0 hd1 hi0 hi1 hvc0 hvc1 hidx0 hidx1 vx unit'
  have hvc : fitsS32 (newCharge params unit vi) = true := fitsS32_iff.mpr ⟨hvc0, hvc1⟩
  have hidx : 0 ≤ chargeIndex params (newCharge params unit vi) ∧
      chargeIndex params (newCharge params unit vi) ≤ 65535 := ⟨hidx0, hidx1⟩
  have hf : solveFault params unit vi = none :=
    solveFault_of_passed hvx (fitsS32_iff.mpr ⟨hd0, hd1⟩) (fitsS32_iff.mpr ⟨hi0, hi1⟩) hvc hidx
  have heffect := inEffect_inSolve_of_passed n hc hv hf ht
  rw [sextValue_eq_ofInt (fitsS32_solveResult _ hidx)] at heffect
  exact ⟨exec_in_ok (i := .inSolve n vi) rfl hh hn heffect, toInt_ofInt_of_fitsS32 hvc,
    toInt_ofInt_of_fitsS32 (fitsS32_u16 _)⟩

/-- The index is in the table exactly for a charge in -2^30..2^30-1 (R195). -/
theorem chargeIndex_range_iff (vc : Int) :
    (0 ≤ chargeIndex params vc ∧ chargeIndex params vc ≤ 65535) ↔ (-2 ^ 30 ≤ vc ∧ vc < 2 ^ 30) := by
  simp only [chargeIndex, floorShift, params_shIdx, params_idxBias]
  omega

/-- The result of a voltage and a charge in range (R197). -/
theorem solveResult_range (x : U16) {vc : Int} (h : -2 ^ 30 ≤ vc ∧ vc < 2 ^ 30) :
    -65535 ≤ solveResult params x.toNat vc ∧ solveResult params x.toNat vc ≤ 131071 := by
  have := x.isLt
  simp only [solveResult, floorShift, params_shOut]
  omega

/-- Settles O27. -/
theorem solveKeepsRanges : Obligations.SolveKeepsRanges := by
  refine ⟨chargeIndex_range_iff, fun s t n vi r h hr hok => ?_⟩
  obtain ⟨unit, unit', value, -, hwrites, ht, hvalue⟩ := (exec_ends h).in_of_ok rfl hr hok
  cases hwrites with
  | refused hcode => exact absurd rfl hcode.1
  | config hi | setfc hi | setv hi => cases hi
  | @solve _ _ table hi _ _ hf =>
    obtain ⟨rfl, rfl⟩ := Instr.inSolve.inj hi
    obtain ⟨-, -, -, hvc, hidx⟩ := solveFault_eq_none hf
    have hcharge := (chargeIndex_range_iff _).mp hidx
    generalize table.read (chargeIndex params (newCharge params unit vi)).toNat = x at *
    have hx := x.isLt
    have hresult := solveResult_range x hcharge
    have hvalueInt : (r.extractLsb' 64 64).toInt = solveResult params x.toNat (newCharge params unit vi) := by
      rw [hvalue, sextValue_eq_ofInt (fitsS32_solveResult x hidx), BitVec.toInt_ofInt, Int.bmod_eq_of_le] <;> omega
    refine ⟨_, ht, ?_, ?_, ?_, ?_, ?_, ?_⟩
    · rw [toInt_ofInt_of_fitsS32 hvc]
      exact hcharge.1
    · rw [toInt_ofInt_of_fitsS32 hvc]
      exact hcharge.2
    · rw [toInt_ofInt_of_fitsS32 (fitsS32_u16 x)]
      omega
    · rw [toInt_ofInt_of_fitsS32 (fitsS32_u16 x)]
      omega
    · rw [hvalueInt]
      exact hresult.1
    · rw [hvalueInt]
      exact hresult.2

/-! ### The direction of the charge (R199) -/

section direction
variable {unit : InUnit F} {vi : Int}

theorem newCharge_eq (unit : InUnit F) (vi : Int) :
    newCharge params unit vi = unit.vc.toInt + unit.ndac.toNat * (driveDifference unit vi / 2 ^ 15) := rfl

/-- At or above the working voltage the input's drive term is no greater than the stored one. -/
theorem driveDifference_nonneg (hvx : unit.vx.toInt < unit.nvgt.toNat) (h : unit.vx.toInt ≤ vi) :
    0 ≤ driveDifference unit vi := by
  have hterm : 0 ≤ driveInput unit vi ∧ driveInput unit vi ≤ driveStored unit := by
    rw [driveInput, driveStored]
    split <;> omega
  rw [driveDifference]
  nlinarith

theorem driveDifference_eq_zero (hvx : unit.vx.toInt < unit.nvgt.toNat) (h : unit.vx.toInt = vi) :
    driveDifference unit vi = 0 := by
  rw [driveDifference, driveInput, if_pos (by omega), driveStored, h, Int.sub_self]

/-- Below the working voltage the input's drive term is the greater one. -/
theorem driveDifference_neg (hvx : unit.vx.toInt < unit.nvgt.toNat) (h : vi < unit.vx.toInt) :
    driveDifference unit vi < 0 := by
  have hterm : 0 < driveStored unit ∧ driveStored unit < driveInput unit vi := by
    rw [driveInput, driveStored, if_pos (by omega)]
    omega
  rw [driveDifference]
  nlinarith

end direction

/-- A step that leaves the core running has passed every check, and its unit holds the new charge. -/
theorem newCharge_of_running {s t : State} {n : Nat} {vi : Int} {unit : InUnit F} (hh : s.halted = false)
    (hn : s.ins[n]? = some unit) (hc : unit.cfgv = true) (hv : unit.ndacv = true)
    (h : exec (.inSolve n vi) s = .next t) (ht : t.halted = false) :
    solveFault params unit vi = none ∧
      ∃ unit', t.ins[n]? = some unit' ∧ unit'.vc = BitVec.ofInt 32 (newCharge params unit vi) := by
  cases hf : solveFault params unit vi with
  | some c =>
    rw [exec_inSolve_of_fault hh hn hc hv hf] at h
    have hset : t.halted = true := Host.Outcome.next.inj h ▸ faultFlag_faultRegOf n c
    rw [hset] at ht
    cases ht
  | none =>
    rw [exec_eq_execWith, execWith_inUnit (i := .inSolve n vi) rfl hh hn] at h
    cases htable : s.tt[unit.ttsel]? with
    | none => simp [inEffect, hc, hv, hf, htable, inEnd] at h
    | some table =>
      rw [inEffect_inSolve_of_passed n hc hv hf htable] at h
      obtain ⟨hlt, -⟩ := List.getElem?_eq_some_iff.mp hn
      rw [← Host.Outcome.next.inj h]
      exact ⟨rfl, _, List.getElem?_set_self hlt, rfl⟩

/-- Settles O28: the sign of the difference of squares decides the direction. -/
theorem solveMovesChargeTowardInput : Obligations.SolveMovesChargeTowardInput := by
  intro s t n vi unit hh hn hc hv h ht
  obtain ⟨hf, unit', hunit, hcharge⟩ := newCharge_of_running hh hn hc hv h ht
  obtain ⟨hvx, -, -, hfits, -⟩ := solveFault_eq_none hf
  have hvalue : unit'.vc.toInt = unit.vc.toInt + unit.ndac.toNat * (driveDifference unit vi / 2 ^ 15) := by
    rw [hcharge, toInt_ofInt_of_fitsS32 hfits, newCharge_eq]
  refine ⟨unit', hunit, fun hle => ?_, fun heq => ?_, fun hzero => ?_, fun hlt => ?_⟩
  · have hd := driveDifference_nonneg hvx hle
    have hshift : 0 ≤ driveDifference unit vi / 2 ^ 15 := by omega
    have := Int.mul_nonneg (Int.natCast_nonneg unit.ndac.toNat) hshift
    omega
  · refine BitVec.eq_of_toInt_eq ?_
    rw [hvalue, driveDifference_eq_zero hvx heq]
    simp
  · refine BitVec.eq_of_toInt_eq ?_
    rw [hvalue, hzero]
    simp
  · have hd := driveDifference_neg hvx hlt
    have hshift : driveDifference unit vi / 2 ^ 15 ≤ -1 := by omega
    have := Int.mul_le_mul_of_nonneg_left hshift (Int.natCast_nonneg unit.ndac.toNat)
    omega

/-! ## The quantized registers -/

section quantized
open Binary64

/-- A product that is not finite, or that rounds outside 0..65535, has no quantized value (R121). -/
theorem quant16_of_outOfRange {t : F}
    (h : isFinite t = false ∨ (toRat t + 1 / 2).floor < 0 ∨ 65535 < (toRat t + 1 / 2).floor) :
    quant16 ops t = none := by
  cases hf : isFinite t with
  | false => exact quant16_of_not_isFinite hf
  | true =>
    have hout := h.resolve_left (by simp [hf])
    refine (quant16_eq_none_iff hf).mpr ?_
    rw [ops_toRat]
    omega

/-- The 16-bit pattern of an integer in range is the value quantized to it. -/
theorem ofInt_of_toNat_eq {q : U16} {z : Int} (h : (q.toNat : Int) = z) : BitVec.ofInt 16 z = q := by
  rw [← h, BitVec.ofInt_natCast, BitVec.ofNat_toNat, BitVec.setWidth_eq]

variable {vdc vth vmin n16 m : F}

theorem gateQuant_of_outOfRange
    (hm : (ops.isFinite m && ops.lt ops.one m && ops.lt m (ops.ofInt 2)) = true)
    (hq : quant16 ops (mul n16 (Binary64.sub (Binary64.sub (mul vdc m) vth) vmin)) = none) :
    gateQuant ops vdc vth vmin n16 m = .error .eQrange := by
  rw [gateQuant, if_pos hm]
  simp only [ops_mul, ops_sub, hq]

/-- The multipliers R182 admits, on exact values. -/
theorem admitted_iff : (ops.isFinite m && ops.lt ops.one m && ops.lt m (ops.ofInt 2)) = true ↔
    isFinite m = true ∧ 1 < toRat m ∧ toRat m < 2 := by
  have htwo : toRat (ofInt 2) = 2 := toRat_ofInt_natCast (k := 2) (by norm_num)
  have htwoFinite : isFinite (ofInt 2) = true := by decide +kernel
  simp only [Bool.and_eq_true, ops_isFinite, ops_lt, ops_one, ops_ofInt, and_assoc]
  refine and_congr_right fun hm => ?_
  rw [lt_iff_toRat isFinite_one hm, lt_iff_toRat hm htwoFinite, toRat_one, htwo]

end quantized

/-! ### The effects of the three commands, by their quantizer's answer -/

section effects
variable {unit : InUnit F} {tt : List (Memory U16)} {n : Nat} {c : RspCode} {v : U16}

theorem inEffect_inConfig_of_error {k : Nat} {vdc vth nkp vmin n16 : F}
    (h : checkCalibration params tt.length k vdc vth nkp vmin n16 = .error c) :
    inEffect params (.inConfig n k vdc vth nkp vmin n16) tt unit = .written unit c 0 := by
  simp only [inEffect, params_num, Binary64.realOf_ops, h]

variable {wl : F}

theorem inEffect_inSetfc_of_error (hc : unit.cfgv = true) (h : driveQuant params unit.nkp wl = .error c) :
    inEffect params (.inSetfc n wl) tt unit = .written unit c 0 := by
  simp only [inEffect, hc, Bool.not_true, Bool.false_eq_true, if_false, params_num, Binary64.realOf_ops, h]

theorem inEffect_inSetfc_of_ok (hc : unit.cfgv = true) (h : driveQuant params unit.nkp wl = .ok v) :
    inEffect params (.inSetfc n wl) tt unit =
      .written { unit with ndac := v, ndacv := true } .ok (zextValue v) := by
  simp only [inEffect, hc, Bool.not_true, Bool.false_eq_true, if_false, params_num, Binary64.realOf_ops, h]

variable {m : F}

theorem inEffect_inSetv_of_error (hc : unit.cfgv = true)
    (h : gateQuant Binary64.ops unit.vdc unit.vth unit.vmin unit.n16 m = .error c) :
    inEffect params (.inSetv n m) tt unit = .written unit c 0 := by
  simp only [inEffect, hc, Bool.not_true, Bool.false_eq_true, if_false, params_num, Binary64.realOf_ops, h]

theorem inEffect_inSetv_of_ok (hc : unit.cfgv = true)
    (h : gateQuant Binary64.ops unit.vdc unit.vth unit.vmin unit.n16 m = .ok v) :
    inEffect params (.inSetv n m) tt unit = .written { unit with nvgt := v } .ok (zextValue v) := by
  simp only [inEffect, hc, Bool.not_true, Bool.false_eq_true, if_false, params_num, Binary64.realOf_ops, h]

/-- `IN.SETFC` quantizes `2^13 * NKP * wl` (R186). -/
theorem driveQuant_params {nkp : F} (hf : Binary64.isFinite wl = true) {q : Option U16}
    (hq : quant16 Binary64.ops (Binary64.mul (Binary64.mul (Binary64.ofInt 8192) nkp) wl) = q) :
    driveQuant params nkp wl = (q.elim (.error .eQrange) .ok) := by
  have hscale : (2 : Int) ^ 13 = 8192 := by norm_num
  rw [driveQuant, params_num, Binary64.ops_isFinite, if_pos hf]
  simp only [Binary64.ops_mul, Binary64.ops_ofInt, params_fcScaleLog2, hscale, hq]
  cases q <;> rfl

theorem driveQuant_of_not_isFinite {nkp : F} (hf : Binary64.isFinite wl = false) :
    driveQuant params nkp wl = .error .eArg := by
  rw [driveQuant, params_num, Binary64.ops_isFinite, if_neg (by simp [hf])]

end effects

/-- Settles O30: the checks of R181 one after the other. -/
theorem inConfigRefusals : Obligations.InConfigRefusals := by
  intro s n k vdc vth nkp vmin n16 unit hh hn refused m g q
  have hrefused (c : RspCode) (hcheck : checkCalibration params s.tt.length k vdc vth nkp vmin n16 = .error c) :
      exec (.inConfig n k vdc vth nkp vmin n16) s = .next (refused c) :=
    exec_in_refused (i := .inConfig n k vdc vth nkp vmin n16) rfl hh hn (inEffect_inConfig_of_error hcheck)
  refine ⟨fun hk => hrefused _ (if_pos hk), fun hk => ⟨fun hnot => hrefused _ ?_, fun hfinite hout => hrefused _ ?_⟩⟩
  · rw [checkCalibration, if_neg (not_le.mpr hk), if_pos]
    simpa [and_assoc, or_assoc, imp_iff_not_or] using hnot
  · have hadmitted := mDefault_admitted
    simp only [params_num, params_mDefault, Binary64.ops_ofLit] at hadmitted
    obtain ⟨hf, hlo, hhi⟩ := hadmitted
    have hquant : quant16 Binary64.ops g = none := quant16_of_outOfRange hout
    rw [checkCalibration_of_finite hk hfinite, params_num, params_mDefault, Binary64.ops_ofLit]
    exact gateQuant_of_outOfRange (by rw [hf, hlo, hhi]; rfl) hquant

/-- Settles O31: the checks of R186 one after the other, and the rounded drive factor. -/
theorem setfcQuantizesTheDrive : Obligations.SetfcQuantizesTheDrive := by
  intro s n wl unit hh hn refused g q unit'
  have hrefused (c : RspCode) (he : inEffect params (.inSetfc n wl) s.tt unit = .written unit c 0) :
      exec (.inSetfc n wl) s = .next (refused c) := exec_in_refused (i := .inSetfc n wl) rfl hh hn he
  refine ⟨fun hc => hrefused _ ?_, fun hc => ⟨fun hf => hrefused _ ?_, fun hf => ⟨fun hout => hrefused _ ?_, ?_⟩⟩⟩
  · simp only [inEffect, hc, Bool.not_false, if_true]
  · exact inEffect_inSetfc_of_error hc (driveQuant_of_not_isFinite hf)
  · exact inEffect_inSetfc_of_error hc (driveQuant_params hf (quant16_of_outOfRange hout))
  · intro hg h0 h1
    obtain ⟨v, hv, hvalue⟩ := exists_quant16_of_inRange (N := Binary64.ops) hg h0 h1
    have hpattern : BitVec.ofInt 16 q = v := ofInt_of_toNat_eq hvalue
    have hunit : unit' = { unit with ndac := v, ndacv := true, err := 0 } := by simp only [unit', hpattern]
    have heffect := inEffect_inSetfc_of_ok (tt := s.tt) (n := n) hc (driveQuant_params hf hv)
    rw [zextValue_eq_ofInt, hvalue] at heffect
    rw [hunit]
    exact ⟨exec_in_ok (i := .inSetfc n wl) rfl hh hn heffect, hvalue⟩

/-- Settles O32: the checks of R188 and R182 one after the other, and the rounded gate voltage. -/
theorem setvQuantizesTheGate : Obligations.SetvQuantizesTheGate := by
  intro s n m unit hh hn refused g q inside unit'
  have hrefused (c : RspCode) (he : inEffect params (.inSetv n m) s.tt unit = .written unit c 0) :
      exec (.inSetv n m) s = .next (refused c) := exec_in_refused (i := .inSetv n m) rfl hh hn he
  refine ⟨fun hc => hrefused _ ?_, fun hc => ⟨fun hout => hrefused _ ?_, fun hin => ⟨fun hout => hrefused _ ?_, ?_⟩⟩⟩
  · simp only [inEffect, hc, Bool.not_false, if_true]
  · exact inEffect_inSetv_of_error hc (if_neg (mt admitted_iff.mp hout))
  · exact inEffect_inSetv_of_error hc (gateQuant_of_outOfRange (admitted_iff.mpr hin) (quant16_of_outOfRange hout))
  · intro hg h0 h1
    obtain ⟨v, hv, hvalue⟩ := exists_quant16_of_inRange (N := Binary64.ops) hg h0 h1
    have hpattern : BitVec.ofInt 16 q = v := ofInt_of_toNat_eq hvalue
    have hunit : unit' = { unit with nvgt := v, err := 0 } := by simp only [unit', hpattern]
    have hadmitted := admitted_iff.mpr hin
    simp only [Bool.and_eq_true] at hadmitted
    obtain ⟨⟨hf, hlo⟩, hhi⟩ := hadmitted
    have heffect := inEffect_inSetv_of_ok (tt := s.tt) (n := n) hc (gateQuant_of_quantized hf hlo hhi hv)
    rw [zextValue_eq_ofInt, hvalue] at heffect
    rw [hunit]
    exact ⟨exec_in_ok (i := .inSetv n m) rfl hh hn heffect, hvalue⟩

/-! ## The refusals of RS.CONFIG -/

section design
variable {P : Params F} {fclk fs fpass : F}

theorem designFilter_of_args (h : checkArgs P.num fclk fs fpass = false) :
    designFilter P fclk fs fpass = .error .eArg := by
  simp [designFilter, h]

theorem designFilter_of_ratio (ha : checkArgs P.num fclk fs fpass = true)
    (h : ratioFixed P (clockRatio P.num fclk fs) = none) : designFilter P fclk fs fpass = .error .eRatio := by
  simp [designFilter, ha, h]

theorem designFilter_of_length {cps : Int} (ha : checkArgs P.num fclk fs fpass = true)
    (hr : ratioFixed P (clockRatio P.num fclk fs) = some cps)
    (h : filterLength P (clockRatio P.num fclk fs) (transition P.num fs fpass) = none) :
    designFilter P fclk fs fpass = .error .eLen := by
  simp [designFilter, ha, hr, h]

end design

/-- Settles O35: the checks of R130's pseudocode one after the other. -/
theorem rsConfigRefusals : Obligations.RsConfigRefusals := by
  intro s u fclk fs fpass unit hh hu refused two a r cps dw xo order p taps len args ratio
  have hrefused (c : RspCode) (hd : designFilter params fclk fs fpass = .error c) :
      exec (.rsConfig u fclk fs fpass) s = .next (refused c) := by
    refine exec_rs_refused (i := .rsConfig u fclk fs fpass) rfl hh hu ?_
    simp only [rsEffect, params_num, Binary64.realOf_ops, hd]
  have hargs : checkArgs params.num fclk fs fpass = true ↔ args := by
    rw [checkArgs_eq_true]
    simp only [args, List.forall_mem_cons, List.not_mem_nil, false_imp_iff, forall_const, and_true]
    exact ⟨fun ⟨⟨h1, h2, h3⟩, ⟨h4, h5, h6⟩, h7⟩ => ⟨⟨⟨h1, h4⟩, ⟨h2, h5⟩, h3, h6⟩, h7⟩,
      fun ⟨⟨⟨h1, h4⟩, ⟨h2, h5⟩, h3, h6⟩, h7⟩ => ⟨⟨h1, h2, h3⟩, ⟨h4, h5, h6⟩, h7⟩⟩
  have hxo : realOrder params (transition params.num fs fpass) = xo := realOrder_params dw
  have hp : params.num.mul (params.num.ofInt (roundOrder params xo)) r = p := by
    rw [roundOrder_params]
    rfl
  refine ⟨fun hnot => hrefused _ (designFilter_of_args (Bool.eq_false_iff.mpr (mt hargs.mp hnot))),
    fun h hnot => hrefused _ (designFilter_of_ratio (hargs.mpr h) ?_), fun h hr hlen => hrefused _ ?_⟩
  · refine Option.eq_none_iff_forall_ne_some.mpr fun z hz => hnot ?_
    obtain ⟨hf, hone, rfl, hmax⟩ := ratioFixed_eq_some hz
    exact ⟨hf, hone, hmax⟩
  · obtain ⟨hf, hone, hmax⟩ := hr
    refine designFilter_of_length (hargs.mpr h) (ratioFixed_of_accepted hf hone hmax) ?_
    refine Option.eq_none_iff_forall_ne_some.mpr fun z hz => ?_
    obtain ⟨hxoFinite, hpFinite, hz, hshort⟩ := filterLength_eq_some hz
    rw [hxo] at hxoFinite hpFinite hz
    have hr : clockRatio params.num fclk fs = r := rfl
    rw [hr, hp] at hpFinite hz
    have hlenEq : z = len := hz
    rcases hlen with hlen | hlen | hlen
    · exact absurd hxoFinite (Bool.eq_false_iff.mp hlen)
    · exact absurd hpFinite (Bool.eq_false_iff.mp hlen)
    · rw [hlenEq, params_ringHalf] at hshort
      exact absurd hlen (by omega)

end Sys2Proof.Machine

/-!
PROOF. What a step shows (spec/10_state.md section 4, R45, R52): units alike but for what cannot be observed have alike
effects, so states alike but for that stay alike under every step.
-/

namespace Sys2Proof.Machine

/-! ## Units alike -/

section units
variable {a b : RsUnit F}

@[simp] theorem rsObservable_cfgv (unit : RsUnit F) : unit.observable.cfgv = unit.cfgv := by
  rw [RsUnit.observable]
  cases hc : unit.cfgv <;> simp [hc, RsUnit.reset]

theorem rsObservable_of_unconfigured {unit : RsUnit F} (h : unit.cfgv = false) :
    unit.observable = { RsUnit.reset with ready := unit.ready, err := unit.err } := by
  rw [RsUnit.observable, if_neg (by simp [h])]

theorem rsObservable_of_configured {unit : RsUnit F} (h : unit.cfgv = true) : unit.observable = unit := by
  rw [RsUnit.observable, if_pos h]

/-- Alike Resampler units are equal, or both unconfigured with the same flags. -/
theorem rs_alike (h : a.observable = b.observable) :
    a = b ∨ (a.cfgv = false ∧ b.cfgv = false ∧ a.ready = b.ready) := by
  have hcfgv : a.cfgv = b.cfgv := by rw [← rsObservable_cfgv a, h, rsObservable_cfgv]
  cases hb : b.cfgv with
  | true =>
    rw [rsObservable_of_configured (hcfgv.trans hb), rsObservable_of_configured hb] at h
    exact .inl h
  | false =>
    rw [rsObservable_of_unconfigured (hcfgv.trans hb), rsObservable_of_unconfigured hb] at h
    exact .inr ⟨hcfgv.trans hb, rfl, (RsUnit.mk.inj h).2.1⟩

/-- The status shows nothing else (R37). -/
theorem rsStatus_observable (unit : RsUnit F) : rsStatus unit.observable = rsStatus unit := by
  cases hc : unit.cfgv with
  | true => rw [rsObservable_of_configured hc]
  | false =>
    rw [rsObservable_of_unconfigured hc, rsStatus, rsStatus, hc]
    rfl

theorem rs_alike_withErr (h : a.observable = b.observable) (e : BitVec 4) :
    ({ a with err := e } : RsUnit F).observable = ({ b with err := e } : RsUnit F).observable := by
  rcases rs_alike h with rfl | ⟨ha, hb, hready⟩
  · rfl
  · rw [rsObservable_of_unconfigured (by exact ha), rsObservable_of_unconfigured (by exact hb), hready]

end units

section units
variable {a b : InUnit F}

@[simp] theorem inObservable_cfgv (unit : InUnit F) : unit.observable.cfgv = unit.cfgv := by
  rw [InUnit.observable]
  cases hc : unit.cfgv <;> cases hv : unit.ndacv <;> simp [hc, InUnit.reset]

@[simp] theorem inObservable_ndacv (unit : InUnit F) : unit.observable.ndacv = unit.ndacv := by
  rw [InUnit.observable]
  cases hc : unit.cfgv <;> cases hv : unit.ndacv <;> simp [hv]

theorem inObservable_of_unconfigured {unit : InUnit F} (h : unit.cfgv = false) :
    unit.observable = { InUnit.reset with ndacv := unit.ndacv, err := unit.err } := by
  rw [InUnit.observable, if_neg (by simp [h])]

theorem inObservable_of_driven {unit : InUnit F} (hc : unit.cfgv = true) (hv : unit.ndacv = true) :
    unit.observable = unit := by
  rw [InUnit.observable, if_pos hc, if_pos hv]

theorem inObservable_of_undriven {unit : InUnit F} (hc : unit.cfgv = true) (hv : unit.ndacv = false) :
    unit.observable = { unit with ndac := 0 } := by
  rw [InUnit.observable, if_pos hc, if_neg (by simp [hv])]

/-- Alike Integrator units are equal, or both unconfigured with the same flags, or both without a drive factor and
equal but for its bits. -/
theorem in_alike (h : a.observable = b.observable) :
    a = b ∨ (a.cfgv = false ∧ b.cfgv = false ∧ a.ndacv = b.ndacv) ∨
      (a.cfgv = true ∧ a.ndacv = false ∧ ∃ q, b = { a with ndac := q }) := by
  have hcfgv : a.cfgv = b.cfgv := by rw [← inObservable_cfgv a, h, inObservable_cfgv]
  have hndacv : a.ndacv = b.ndacv := by rw [← inObservable_ndacv a, h, inObservable_ndacv]
  cases hb : b.cfgv with
  | false => exact .inr (.inl ⟨hcfgv.trans hb, rfl, hndacv⟩)
  | true =>
    cases hv : b.ndacv with
    | true =>
      rw [inObservable_of_driven (hcfgv.trans hb) (hndacv.trans hv), inObservable_of_driven hb hv] at h
      exact .inl h
    | false =>
      rw [inObservable_of_undriven (hcfgv.trans hb) (hndacv.trans hv), inObservable_of_undriven hb hv] at h
      refine .inr (.inr ⟨hcfgv.trans hb, hndacv.trans hv, b.ndac, ?_⟩)
      have hrest : b = { ({ b with ndac := 0 } : InUnit F) with ndac := b.ndac } := rfl
      rw [hrest, ← h]

/-- The status shows nothing else (R49). -/
theorem inStatus_observable (unit : InUnit F) : inStatus unit.observable = inStatus unit := by
  cases hc : unit.cfgv with
  | false =>
    rw [inObservable_of_unconfigured hc, inStatus, inStatus, hc]
    rfl
  | true =>
    cases hv : unit.ndacv with
    | true => rw [inObservable_of_driven hc hv]
    | false =>
      rw [inObservable_of_undriven hc hv]
      rfl

/-- A unit without a drive factor shows nothing of its bits (R45). -/
theorem in_alike_ndac {unit : InUnit F} (hc : unit.cfgv = true) (hv : unit.ndacv = false) (q : U16) :
    ({ unit with ndac := q } : InUnit F).observable = unit.observable := by
  rw [inObservable_of_undriven hc hv, inObservable_of_undriven (by exact hc) (by exact hv)]

theorem in_alike_withErr (h : a.observable = b.observable) (e : BitVec 4) :
    ({ a with err := e } : InUnit F).observable = ({ b with err := e } : InUnit F).observable := by
  rcases in_alike h with rfl | ⟨ha, hb, hndacv⟩ | ⟨ha, hv, q, rfl⟩
  · rfl
  · rw [inObservable_of_unconfigured (by exact ha), inObservable_of_unconfigured (by exact hb), hndacv]
  · exact (in_alike_ndac (unit := { a with err := e }) ha hv q).symm

end units

/-! ## Effects alike -/

/-- Effects of the same kind and answer that leave alike units. -/
structure RsEffect.Alike (e e' : RsEffect) : Prop where
  cache : e.cache = e'.cache
  unit : e.unit.observable = e'.unit.observable
  code : e.code = e'.code
  value : e.value = e'.value

/-- Effects of the same kind and answer that leave alike units. -/
inductive InEffect.Alike : InEffect → InEffect → Prop
  | written {unit unit' : InUnit F} (code : RspCode) (value : BitVec 64)
      (h : unit.observable = unit'.observable) : Alike (.written unit code value) (.written unit' code value)
  | raised (c : FaultCode) : Alike (.raised c) (.raised c)
  | stopped (f : Fault) : Alike (.stopped f) (.stopped f)

section effects
variable {P : Params F} {i : Instr}

/-- Alike units have alike effects: an unconfigured one is refused or constructed anew. -/
theorem rsEffect_alike {c : Cache F} {a b : RsUnit F} (h : a.observable = b.observable) {e : RsEffect}
    (he : rsEffect P i c a = .ok e) : ∃ e', rsEffect P i c b = .ok e' ∧ e.Alike e' := by
  rcases rs_alike h with rfl | ⟨ha, hb, -⟩
  · exact ⟨e, he, rfl, rfl, rfl, rfl⟩
  · cases i with
    | inConfig | inSetfc | inSetv | inSolve =>
      obtain rfl := Except.ok.inj he
      exact ⟨_, rfl, rfl, h, rfl, rfl⟩
    | rsInput | rsOutput | rsReset =>
      simp only [rsEffect, ha, hb, Bool.not_false, if_true] at he ⊢
      obtain rfl := Except.ok.inj he
      exact ⟨_, rfl, rfl, h, rfl, rfl⟩
    | rsConfig u fclk fs fpass =>
      simp only [rsEffect] at he ⊢
      cases hd : designFilter P (realOf P.num fclk) (realOf P.num fs) (realOf P.num fpass) with
      | error code =>
        simp only [hd] at he ⊢
        obtain rfl := Except.ok.inj he
        exact ⟨_, rfl, rfl, h, rfl, rfl⟩
      | ok d =>
        simp only [hd] at he ⊢
        exact ⟨e, he, rfl, rfl, rfl, rfl⟩

/-- A construction shows nothing of the unit it is made in (R184, log 14). -/
theorem constructedIn_alike (a b : InUnit F) (k : Nat) (vdc vth nkp vmin n16 : F) (q : U16) :
    (constructedIn a k vdc vth nkp vmin n16 q).observable = (constructedIn b k vdc vth nkp vmin n16 q).observable :=
  rfl

/-- Alike units have alike effects: an unconfigured one is refused or constructed anew, and a drive factor that is
not valid is not read. -/
theorem inEffect_alike {tt : List (Memory U16)} {a b : InUnit F} (h : a.observable = b.observable) :
    (inEffect P i tt a).Alike (inEffect P i tt b) := by
  rcases in_alike h with rfl | hcase
  · cases inEffect P i tt a with
    | written => exact .written _ _ rfl
    | raised => exact .raised _
    | stopped => exact .stopped _
  · cases i with
    | rsConfig | rsInput | rsOutput | rsReset => exact .written _ _ h
    | inConfig n k vdc vth nkp vmin n16 =>
      simp only [inEffect]
      cases checkCalibration P tt.length k (realOf P.num vdc) (realOf P.num vth) (realOf P.num nkp)
          (realOf P.num vmin) (realOf P.num n16) with
      | error code => exact .written _ _ h
      | ok q => exact .written _ _ (constructedIn_alike ..)
    | inSolve n vi =>
      have hrefused : inEffect P (.inSolve n vi) tt a = .written a .eUnconfig 0 ∧
          inEffect P (.inSolve n vi) tt b = .written b .eUnconfig 0 := by
        rcases hcase with ⟨ha, hb, -⟩ | ⟨ha, hv, q, rfl⟩
        · simp [inEffect, ha, hb]
        · simp [inEffect, hv]
      rw [hrefused.1, hrefused.2]
      exact .written _ _ h
    | inSetfc n wl =>
      rcases hcase with ⟨ha, hb, -⟩ | ⟨ha, hv, q, rfl⟩
      · simp only [inEffect, ha, hb, Bool.not_false, if_true]
        exact .written _ _ h
      · simp only [inEffect]
        rw [if_neg (by simp [ha]), if_neg (by simp [ha])]
        cases driveQuant P a.nkp (realOf P.num wl) with
        | error code => exact .written _ _ h
        | ok v => exact .written _ _ rfl
    | inSetv n m =>
      rcases hcase with ⟨ha, hb, -⟩ | ⟨ha, hv, q, rfl⟩
      · simp only [inEffect, ha, hb, Bool.not_false, if_true]
        exact .written _ _ h
      · simp only [inEffect]
        rw [if_neg (by simp [ha]), if_neg (by simp [ha])]
        cases gateQuant P.num a.vdc a.vth a.vmin a.n16 (realOf P.num m) with
        | error code => exact .written _ _ h
        | ok v => exact .written _ _ (in_alike_ndac (unit := { a with nvgt := v }) ha hv q).symm

end effects

/-! ## States alike -/

section states
variable {s s' t : State}

/-- States alike agree but for the units, and in those but for what cannot be observed. -/
theorem observable_eq_iff : s.observable = s'.observable ↔
    s.faultReg = s'.faultReg ∧ s.cache = s'.cache ∧ s.tt = s'.tt ∧
      s.rs.map RsUnit.observable = s'.rs.map RsUnit.observable ∧
      s.ins.map InUnit.observable = s'.ins.map InUnit.observable ∧ s.rsp = s'.rsp ∧ s.events = s'.events := by
  rw [State.Over.observable, State.Over.observable, State.Over.mk.injEq]

/-- Lists alike have alike elements. -/
theorem alike_getElem? {α : Type} {f : α → α} {l l' : List α} (h : l.map f = l'.map f) (k : Nat) :
    (l[k]?).map f = (l'[k]?).map f := by
  rw [← List.getElem?_map, h, List.getElem?_map]

theorem alike_some {α : Type} {f : α → α} {l l' : List α} (h : l.map f = l'.map f) {k : Nat} {x : α}
    (hx : l[k]? = some x) : ∃ x', l'[k]? = some x' ∧ f x = f x' := by
  have hk := alike_getElem? h k
  rw [hx] at hk
  obtain ⟨x', hx', heq⟩ := Option.map_eq_some_iff.mp hk.symm
  exact ⟨x', hx', heq.symm⟩

theorem alike_length {α : Type} {f : α → α} {l l' : List α} (h : l.map f = l'.map f) : l.length = l'.length := by
  simpa using congrArg List.length h

theorem alike_set {α : Type} {f : α → α} {l l' : List α} (h : l.map f = l'.map f) (k : Nat) {x x' : α}
    (hx : f x = f x') : (l.set k x).map f = (l'.set k x').map f := by
  rw [List.map_set, List.map_set, h, hx]

/-- States alike respond alike. -/
theorem respond_alike (h : s.observable = s'.observable) (code : RspCode) (st : BitVec 16) (v : BitVec 64) :
    (s.respond code st v).observable = (s'.respond code st v).observable := by
  obtain ⟨hfault, hcache, htt, hrs, hins, -, hevents⟩ := observable_eq_iff.mp h
  refine observable_eq_iff.mpr ⟨hfault, hcache, htt, hrs, hins, ?_, hevents⟩
  rw [respond_rsp, respond_rsp, hfault]

theorem rsStatusAt_alike (h : s.observable = s'.observable) (u : Nat) : s.rsStatusAt u = s'.rsStatusAt u := by
  have hu := alike_getElem? (observable_eq_iff.mp h).2.2.2.1 u
  rw [State.Over.rsStatusAt, State.Over.rsStatusAt]
  cases ha : s.rs[u]? with
  | none => cases hb : s'.rs[u]? <;> simp_all
  | some a =>
    obtain ⟨b, hb, heq⟩ := alike_some (observable_eq_iff.mp h).2.2.2.1 ha
    simp only [hb]
    rw [← rsStatus_observable, heq, rsStatus_observable]

theorem inStatusAt_alike (h : s.observable = s'.observable) (n : Nat) : s.inStatusAt n = s'.inStatusAt n := by
  have hn := alike_getElem? (observable_eq_iff.mp h).2.2.2.2.1 n
  rw [State.Over.inStatusAt, State.Over.inStatusAt]
  cases ha : s.ins[n]? with
  | none => cases hb : s'.ins[n]? <;> simp_all
  | some a =>
    obtain ⟨b, hb, heq⟩ := alike_some (observable_eq_iff.mp h).2.2.2.2.1 ha
    simp only [hb]
    rw [← inStatus_observable, heq, inStatus_observable]

theorem halted_alike (h : s.observable = s'.observable) : s.halted = s'.halted := by
  rw [State.Over.halted, State.Over.halted, (observable_eq_iff.mp h).1]

theorem addressedStatus_alike (h : s.observable = s'.observable) (i : Instr) :
    addressedStatus i s = addressedStatus i s' := by
  rw [addressedStatus, addressedStatus, rsStatusAt_alike h, inStatusAt_alike h]

theorem unitPresent_alike (h : s.observable = s'.observable) (i : Instr) : unitPresent i s ↔ unitPresent i s' := by
  obtain ⟨-, -, -, hrs, hins, -, -⟩ := observable_eq_iff.mp h
  rw [unitPresent, unitPresent, alike_length hrs, alike_length hins]

theorem rsWrite_alike (h : s.observable = s'.observable) (u : Nat) {e e' : RsEffect} (he : e.Alike e') :
    (rsWrite s u e).observable = (rsWrite s' u e').observable := by
  obtain ⟨hfault, -, htt, hrs, hins, -, hevents⟩ := observable_eq_iff.mp h
  obtain ⟨hcache, hunit, hcode, hvalue⟩ := he
  have hwritten := rs_alike_withErr hunit (codeBits e.code)
  have hstatus : rsStatus { e.unit with err := codeBits e.code } = rsStatus { e'.unit with err := codeBits e.code } := by
    rw [← rsStatus_observable, hwritten, rsStatus_observable]
  refine observable_eq_iff.mpr ⟨hfault, hcache, htt, ?_, hins, ?_, hevents⟩
  · rw [rsWrite, rsWrite, rsFinish_rs, rsFinish_rs, ← hcode]
    exact alike_set hrs u hwritten
  · rw [rsWrite, rsWrite, rsFinish_rsp, rsFinish_rsp, ← hcode, ← hvalue, hstatus]
    exact congrArg some (congrArg (fun fr => responseOf _ _ fr _) hfault)

theorem inFinish_alike (h : s.observable = s'.observable) (n : Nat) {unit unit' : InUnit F}
    (hunit : unit.observable = unit'.observable) (code : RspCode) (value : BitVec 64) :
    (s.inFinish n unit code value).observable = (s'.inFinish n unit' code value).observable := by
  obtain ⟨hfault, hcache, htt, hrs, hins, -, hevents⟩ := observable_eq_iff.mp h
  have hstatus : inStatus unit = inStatus unit' := by rw [← inStatus_observable, hunit, inStatus_observable]
  refine observable_eq_iff.mpr ⟨hfault, hcache, htt, hrs, alike_set hins n hunit, ?_, hevents⟩
  rw [inFinish_rsp, inFinish_rsp, hfault, hstatus]

theorem raise_alike (h : s.observable = s'.observable) (n : Nat) (c : FaultCode) :
    (s.raise n c).observable = (s'.raise n c).observable := by
  obtain ⟨-, hcache, htt, hrs, hins, -, hevents⟩ := observable_eq_iff.mp h
  refine observable_eq_iff.mpr ⟨rfl, hcache, htt, hrs, hins, ?_, hevents⟩
  rw [raise_rsp, raise_rsp, inStatusAt_alike h]

/-- A command run on states alike leaves states alike. -/
theorem execWith_alike {P : Params F} {i : Instr} (h : s.observable = s'.observable)
    (ht : execWith P i s = .next t) : ∃ t', execWith P i s' = .next t' ∧ t.observable = t'.observable := by
  obtain ⟨-, hcache, htt, hrs, hins, -, -⟩ := observable_eq_iff.mp h
  have hhalted := halted_alike h
  cases execWith_ends ht with
  | halted hh =>
    refine ⟨_, execWith_halted (hhalted ▸ hh), ?_⟩
    rw [addressedStatus_alike h]
    exact respond_alike h _ _ _
  | absent hh hu =>
    exact ⟨_, execWith_absent (hhalted ▸ hh) (mt (unitPresent_alike h i).mpr hu), respond_alike h _ _ _⟩
  | rs hi hh hu he =>
    obtain ⟨unit', hu', hunit⟩ := alike_some hrs hu
    obtain ⟨e', he', halike⟩ := rsEffect_alike hunit he
    refine ⟨_, ?_, rsWrite_alike h _ halike⟩
    rw [execWith_rsUnit hi (hhalted ▸ hh) hu', ← hcache, he']
    rfl
  | written hi hh hn he =>
    obtain ⟨unit', hn', hunit⟩ := alike_some hins hn
    have halike := inEffect_alike (P := P) (i := i) (tt := s.tt) hunit
    rw [he] at halike
    rw [execWith_inUnit hi (hhalted ▸ hh) hn', ← htt]
    generalize inEffect P i s.tt unit' = effect at halike
    cases halike with
    | written _ _ hwritten => exact ⟨_, rfl, inFinish_alike h _ (in_alike_withErr hwritten _) _ _⟩
  | raised hi hh hn he =>
    obtain ⟨unit', hn', hunit⟩ := alike_some hins hn
    have halike := inEffect_alike (P := P) (i := i) (tt := s.tt) hunit
    rw [he] at halike
    rw [execWith_inUnit hi (hhalted ▸ hh) hn', ← htt]
    generalize inEffect P i s.tt unit' = effect at halike
    cases halike with
    | raised => exact ⟨_, rfl, raise_alike h _ _⟩

theorem takeEvent_alike (h : s.observable = s'.observable) : s.takeEvent.observable = s'.takeEvent.observable := by
  obtain ⟨hfault, hcache, htt, hrs, hins, hrsp, hevents⟩ := observable_eq_iff.mp h
  exact observable_eq_iff.mpr ⟨hfault, hcache, htt, hrs, hins, hrsp, congrArg List.tail hevents⟩

/-- A reset leaves the same of states alike. -/
theorem hardwareReset_alike (h : s.observable = s'.observable) : s.hardwareReset = s'.hardwareReset := by
  obtain ⟨-, -, htt, hrs, hins, -, hevents⟩ := observable_eq_iff.mp h
  rw [State.Over.hardwareReset, State.Over.hardwareReset, alike_length hrs, alike_length hins, htt, hevents]

theorem illegalFrame_alike (h : s.observable = s'.observable) :
    (illegalFrame s).observable = (illegalFrame s').observable := by
  rw [illegalFrame, illegalFrame, halted_alike h]
  split <;> exact respond_alike h _ _ _

/-- A step of states alike leaves states alike. -/
theorem step_alike (h : s.observable = s'.observable) (ht : step s = .next t) :
    ∃ t', step s' = .next t' ∧ t.observable = t'.observable := by
  have hevents : s.events = s'.events := (observable_eq_iff.mp h).2.2.2.2.2.2
  have htake := takeEvent_alike h
  rcases step_next ht with ⟨he, rfl⟩ | ⟨rest, he, rfl⟩ | ⟨f, rest, he, hd, rfl⟩ | ⟨f, rest, i, he, hd, hexec⟩ <;>
    rw [hevents] at he
  · exact ⟨s', waitingCoreStays s' he, h⟩
  · exact ⟨_, step_of_hardwareReset he, congrArg State.Over.observable (hardwareReset_alike htake)⟩
  · exact ⟨_, step_of_illegalHeader he hd, illegalFrame_alike htake⟩
  · rw [exec_eq_execWith] at hexec
    obtain ⟨t', hexec', halike⟩ := execWith_alike htake hexec
    exact ⟨t', by rw [step_of_command he hd, exec_eq_execWith, hexec'], halike⟩

end states

/-- Settles O11: states alike stay alike, and the response is part of what they agree in. -/
theorem unspecifiedValuesAreUnobservable : Obligations.UnspecifiedValuesAreUnobservable := by
  intro s s' t h ht
  obtain ⟨t', ht', halike⟩ := step_alike h ht
  exact ⟨t', ht', halike.symm, (congrArg State.Over.rsp halike).symm⟩

end Sys2Proof.Machine

/-!
PROOF. Commands to different units commute (spec/20_memory.md R71): a command that neither faults nor meets a halted
core makes a change that depends on what it reads alone, no other unit's change alters that, and two such changes
can be made in either order.
-/

namespace Sys2Proof.Machine

/-! ## Changes -/

/-- The cache after the cache step at a key, if there is one. -/
def cacheStep (c : Cache F) : Option FilterKey → Cache F
  | some k => lookupOrBuild params c k
  | none => c

/-- A memory of units with one replaced, if there is one to replace. -/
def setUnit {α : Type} (l : List α) : Option (Nat × α) → List α
  | some (k, x) => l.set k x
  | none => l

/-- What a command changes: the cache at one key, one unit, and the response. -/
structure Change where
  key : Option FilterKey
  rs : Option (Nat × RsUnit F)
  ins : Option (Nat × InUnit F)
  rsp : BitVec 128

/-- The state with a change made to it. -/
def Change.apply (δ : Change) (s : State) : State :=
  { s with
    cache := cacheStep s.cache δ.key
    rs := setUnit s.rs δ.rs
    ins := setUnit s.ins δ.ins
    rsp := some δ.rsp }

/-- A change of the unit that command `i` addresses. -/
structure Change.Of (i : Instr) (δ : Change) : Prop where
  rs : ∀ p, δ.rs = some p → resamplerCommand i = true ∧ p.1 = unitOf i
  ins : ∀ p, δ.ins = some p → resamplerCommand i = false ∧ p.1 = unitOf i

/-! ### Two changes in either order -/

section commute
variable {α : Type} {l : List α}

theorem setUnit_getElem?_of_ne {p : Option (Nat × α)} {k : Nat} (h : ∀ q, p = some q → q.1 ≠ k) :
    (setUnit l p)[k]? = l[k]? := by
  cases p with
  | none => rfl
  | some q => exact List.getElem?_set_ne (h q rfl)

theorem setUnit_comm {p q : Option (Nat × α)} (h : ∀ a b, p = some a → q = some b → a.1 ≠ b.1) :
    setUnit (setUnit l p) q = setUnit (setUnit l q) p := by
  cases p with
  | none => rfl
  | some a =>
    cases q with
    | none => rfl
    | some b => exact List.set_comm _ _ (h a b rfl rfl)

/-- What the cache step leaves at every key (R24, R146). -/
theorem cacheStep_find? {c : Cache F} (hc : CacheSound params c) (key : Option FilterKey) (k : FilterKey) :
    (cacheStep c key).find? k = if key = some k then some (tableOfKey params k) else c.find? k := by
  cases key with
  | none => rw [if_neg nofun, cacheStep]
  | some k' =>
    rw [cacheStep]
    by_cases hk : k' = k
    · subst hk
      rw [if_pos rfl, lookupOrBuild_find?_same params k' hc.coherent]
    · rw [if_neg (by simpa using hk), lookupOrBuild_find?_other params (Ne.symm hk)]

/-- The form of the cache, and what its entries are, after any cache step. -/
theorem cacheStep_form {c : Cache F} (hform : c.wf = true) (key : Option FilterKey) :
    (cacheStep c key).wf = true := by
  cases key with
  | none => exact hform
  | some k =>
    rw [cacheStep, lookupOrBuild]
    split
    · exact hform
    · exact Cache.wf_insert hform

/-- Two cache steps can be made in either order. -/
theorem cacheStep_comm {c : Cache F} {k k' : Option FilterKey} (hc : CacheSound params c)
    (hk : CacheSound params (cacheStep c k)) (hk' : CacheSound params (cacheStep c k')) :
    cacheStep (cacheStep c k) k' = cacheStep (cacheStep c k') k := by
  refine Cache.ext_of_find? (cacheStep_form hk.form k') (cacheStep_form hk'.form k) fun q => ?_
  rw [cacheStep_find? hk, cacheStep_find? hk', cacheStep_find? hc, cacheStep_find? hc]
  split <;> split <;> rfl

end commute

/-! ## A command's change -/

/-- Command `i` reads the same from both states. -/
structure ReadsSame (i : Instr) (s s' : State) : Prop where
  faultReg : s'.faultReg = s.faultReg
  tt : s'.tt = s.tt
  rs : resamplerCommand i = true → s'.rs[unitOf i]? = s.rs[unitOf i]?
  ins : resamplerCommand i = false → s'.ins[unitOf i]? = s.ins[unitOf i]?
  table : resamplerCommand i = true → ∀ unit, s.rs[unitOf i]? = some unit → unit.cfgv = true →
    s'.cache.find? (unitKey unit) = s.cache.find? (unitKey unit)

section change
variable {i : Instr} {s s' t : State}

theorem ReadsSame.halted (h : ReadsSame i s s') : s'.halted = s.halted := by
  rw [State.Over.halted, State.Over.halted, h.faultReg]

theorem ReadsSame.unitPresent_iff (h : ReadsSame i s s') : unitPresent i s' ↔ unitPresent i s := by
  cases hi : resamplerCommand i with
  | true =>
    have hlength : s'.rs.length ≤ unitOf i ↔ s.rs.length ≤ unitOf i := by
      rw [← List.getElem?_eq_none_iff, h.rs hi, List.getElem?_eq_none_iff]
    rw [unitPresent, unitPresent, if_pos hi, if_pos hi]
    omega
  | false =>
    have hlength : s'.ins.length ≤ unitOf i ↔ s.ins.length ≤ unitOf i := by
      rw [← List.getElem?_eq_none_iff, h.ins hi, List.getElem?_eq_none_iff]
    rw [unitPresent, unitPresent, if_neg (by simp [hi]), if_neg (by simp [hi])]
    omega

/-- The filtering step reads the cache at the unit's key only (R162). -/
theorem fir_congr {c c' : Cache F} {unit : RsUnit F} (h : c'.find? (unitKey unit) = c.find? (unitKey unit)) :
    fir params c' unit = fir params c unit := by
  rw [fir, fir, h]

theorem inputUnit_congr {c c' : Cache F} {unit : RsUnit F} (h : c'.find? (unitKey unit) = c.find? (unitKey unit))
    (x : F) : inputUnit params c' unit x = inputUnit params c unit x := by
  rw [inputUnit, inputUnit]
  cases hpush : pushSample params unit x with
  | none => rfl
  | some pushed =>
    have hkey : unitKey pushed = unitKey unit := by
      obtain ⟨-, rfl⟩ := pushSample_some hpush
      rfl
    rw [← hkey] at h
    cases advanceAcc params unit with
    | none => rfl
    | some a => simp only [fir_congr h]

/-- The effect of an `RS` command is the same but for the cache, on which it makes the same cache step. -/
theorem exists_key_rsEffect {c : Cache F} {unit : RsUnit F} {e : RsEffect}
    (he : rsEffect params i c unit = .ok e) :
    ∃ key, e.cache = cacheStep c key ∧
      ∀ c' : Cache F, (unit.cfgv = true → c'.find? (unitKey unit) = c.find? (unitKey unit)) →
        rsEffect params i c' unit = .ok { e with cache := cacheStep c' key } := by
  cases i with
  | inConfig | inSetfc | inSetv | inSolve =>
    obtain rfl := Except.ok.inj he
    exact ⟨none, rfl, fun _ _ => rfl⟩
  | rsConfig u fclk fs fpass =>
    simp only [rsEffect] at he ⊢
    cases hd : designFilter params (realOf params.num fclk) (realOf params.num fs) (realOf params.num fpass) with
    | error code =>
      simp only [hd] at he
      obtain rfl := Except.ok.inj he
      exact ⟨none, rfl, fun _ _ => rfl⟩
    | ok d =>
      simp only [hd] at he
      obtain rfl := Except.ok.inj he
      exact ⟨some (designKey params d), rfl, fun _ _ => rfl⟩
  | rsOutput | rsReset =>
    simp only [rsEffect] at he ⊢
    split at he <;> obtain rfl := Except.ok.inj he
    next hc => exact ⟨none, rfl, fun _ _ => if_pos hc⟩
    next hc => exact ⟨none, rfl, fun _ _ => if_neg hc⟩
  | rsInput u x =>
    simp only [rsEffect] at he ⊢
    cases hc : unit.cfgv with
    | false =>
      simp only [hc] at he
      obtain rfl := Except.ok.inj he
      exact ⟨none, rfl, fun _ _ => rfl⟩
    | true =>
      simp only [hc, Bool.not_true, Bool.false_eq_true, if_false] at he ⊢
      cases hin : inputUnit params c unit (realOf params.num x) with
      | error f =>
        simp only [hin] at he
        cases he
      | ok unit' =>
        simp only [hin] at he
        obtain rfl := Except.ok.inj he
        exact ⟨none, rfl, fun c' hfind => by simp only [inputUnit_congr (hfind trivial), hin]; rfl⟩

/-- A command that neither faults nor meets a halted core makes the same change to every state from which it reads
the same. -/
theorem exists_change (hh : s.halted = false) (ht : t.halted = false) (h : exec i s = .next t) :
    ∃ δ : Change, δ.Of i ∧ t = δ.apply s ∧ ∀ s', ReadsSame i s s' → exec i s' = .next (δ.apply s') := by
  cases exec_ends h with
  | halted hh' => exact absurd hh (by simp [hh'])
  | raised =>
    have hset := faultFlag_faultRegOf (unitOf i) ‹FaultCode›
    exact absurd (hset.symm.trans ht) (by decide)
  | absent _ hu =>
    refine ⟨⟨none, none, none, responseOf .eIllegal 0 s.faultReg 0⟩, ⟨nofun, nofun⟩, rfl, fun s' hs' => ?_⟩
    rw [exec_eq_execWith, execWith_absent (hs'.halted.trans hh) (mt hs'.unitPresent_iff.mp hu), ← hs'.faultReg]
    rfl
  | @rs unit e hi _ hu he =>
    obtain ⟨key, hcache, hsame⟩ := exists_key_rsEffect he
    refine ⟨⟨key, some (unitOf i, { e.unit with err := codeBits e.code }), none,
      responseOf e.code (rsStatus { e.unit with err := codeBits e.code }) s.faultReg
        (if e.code = .ok then e.value else 0)⟩,
      ⟨fun p hp => Option.some.inj hp ▸ ⟨hi, rfl⟩, nofun⟩, ?_, fun s' hs' => ?_⟩
    · rw [rsWrite, hcache]
      rfl
    · rw [exec_eq_execWith, execWith_rsUnit hi (hs'.halted.trans hh) ((hs'.rs hi).trans hu),
        hsame _ (hs'.table hi unit hu), ← hs'.faultReg]
      rfl
  | @written unit unit' code value hi _ hn he =>
    refine ⟨⟨none, none, some (unitOf i, { unit' with err := codeBits code }),
      responseOf code (inStatus { unit' with err := codeBits code }) s.faultReg
        (if code = .ok then value else 0)⟩,
      ⟨nofun, fun p hp => Option.some.inj hp ▸ ⟨hi, rfl⟩⟩, rfl, fun s' hs' => ?_⟩
    rw [exec_eq_execWith, execWith_inUnit hi (hs'.halted.trans hh) ((hs'.ins hi).trans hn), hs'.tt, he,
      ← hs'.faultReg]
    rfl

/-- Another unit's change alters nothing that a command reads from a sound state. -/
theorem readsSame_apply {j : Instr} {δ : Change} (hs : s.Sound params) (hδ : δ.Of j) (hij : differentUnits i j) :
    ReadsSame i s (δ.apply s) where
  faultReg := rfl
  tt := rfl
  rs := fun hi => setUnit_getElem?_of_ne fun p hp heq => by
    obtain ⟨hj, hunit⟩ := hδ.rs p hp
    rcases hij with hclass | hne
    · exact hclass (hi.trans hj.symm)
    · exact hne (heq.symm.trans hunit)
  ins := fun hi => setUnit_getElem?_of_ne fun p hp heq => by
    obtain ⟨hj, hunit⟩ := hδ.ins p hp
    rcases hij with hclass | hne
    · exact hclass (hi.trans hj.symm)
    · exact hne (heq.symm.trans hunit)
  table := fun _ unit hu hc => by
    have htable := (hs.resamplers unit (List.mem_of_getElem? hu)).table hc
    change (cacheStep s.cache δ.key).find? (unitKey unit) = _
    rw [cacheStep_find? hs.cache, htable, ite_self]

/-- Reading the same is symmetric. -/
theorem ReadsSame.symm (h : ReadsSame i s s') : ReadsSame i s' s :=
  ⟨h.faultReg.symm, h.tt.symm, fun hi => (h.rs hi).symm, fun hi => (h.ins hi).symm,
    fun hi unit hu hc => (h.table hi unit ((h.rs hi).symm.trans hu) hc).symm⟩

/-- Changes of different units can be made in either order, but for the response at the port. -/
theorem apply_comm {j : Instr} {δ δ' : Change} (hδ : δ.Of i) (hδ' : δ'.Of j) (hij : differentUnits i j)
    (hc : CacheSound params s.cache) (hc1 : CacheSound params (δ.apply s).cache)
    (hc2 : CacheSound params (δ'.apply s).cache) :
    (δ.apply (δ'.apply s)).quiet = (δ'.apply (δ.apply s)).quiet := by
  have hrs : setUnit (setUnit s.rs δ'.rs) δ.rs = setUnit (setUnit s.rs δ.rs) δ'.rs :=
    setUnit_comm fun p q hp hq heq => by
      obtain ⟨hj, hpunit⟩ := hδ'.rs p hp
      obtain ⟨hi, hqunit⟩ := hδ.rs q hq
      rcases hij with hclass | hne
      · exact hclass (hi.trans hj.symm)
      · exact hne (by rw [← hpunit, ← hqunit, heq])
  have hins : setUnit (setUnit s.ins δ'.ins) δ.ins = setUnit (setUnit s.ins δ.ins) δ'.ins :=
    setUnit_comm fun p q hp hq heq => by
      obtain ⟨hj, hpunit⟩ := hδ'.ins p hp
      obtain ⟨hi, hqunit⟩ := hδ.ins q hq
      rcases hij with hclass | hne
      · exact hclass (hi.trans hj.symm)
      · exact hne (by rw [← hpunit, ← hqunit, heq])
  have hcache : cacheStep (cacheStep s.cache δ'.key) δ.key = cacheStep (cacheStep s.cache δ.key) δ'.key :=
    cacheStep_comm hc hc2 hc1
  simp only [State.Over.quiet, Change.apply, hrs, hins, hcache]

end change

theorem differentUnits_symm {i j : Instr} (h : differentUnits i j) : differentUnits j i :=
  h.imp Ne.symm Ne.symm

/-- A halted core answers two commands in either order. -/
theorem halted_commute {s a ab : State} {i j : Instr} (hh : s.halted = true) (ha : exec i s = .next a)
    (hab : exec j a = .next ab) :
    ∃ b ba, exec j s = .next b ∧ exec i b = .next ba ∧ ba.quiet = ab.quiet ∧ b.rsp = ab.rsp ∧ ba.rsp = a.rsp := by
  have hagain (k l : Instr) : exec l (s.answerHalted (addressedStatus k s)) =
      .next { s with rsp := some (responseOf .eHalted (addressedStatus l s) s.faultReg 0) } := by
    have hstatus : addressedStatus l (s.answerHalted (addressedStatus k s)) = addressedStatus l s :=
      addressedStatus_congr rfl rfl
    rw [exec_of_halted (s := s.answerHalted (addressedStatus k s)) hh, answerHalted_eq, hstatus]
    rfl
  rw [exec_of_halted hh] at ha
  obtain rfl := Host.Outcome.next.inj ha
  rw [hagain] at hab
  obtain rfl := Host.Outcome.next.inj hab
  refine ⟨_, _, exec_of_halted hh j, hagain j i, ?_, ?_, ?_⟩
  · simp only [State.Over.quiet]
  · rw [answerHalted_rsp]
  · rw [answerHalted_rsp]

/-- Settles O23: the two changes, made in the other order, each on a state from which its command reads the same. -/
theorem differentUnitsCommute : Obligations.DifferentUnitsCommute := by
  intro s a ab i j hs hij ha hab hcase
  cases hh : s.halted with
  | true => exact halted_commute hh ha hab
  | false =>
    have hrunning : ab.halted = false := hcase.resolve_right (by simp [hh])
    have hah : a.halted = false := by
      cases haHalted : a.halted with
      | false => rfl
      | true =>
        rw [exec_of_halted haHalted] at hab
        obtain rfl := Host.Outcome.next.inj hab
        exact absurd (haHalted.symm.trans hrunning) (by decide)
    obtain ⟨δ, hδ, rfl, hsame⟩ := exists_change hh hah ha
    obtain ⟨δ', hδ', rfl, hsame'⟩ := exists_change hah hrunning hab
    have hb := hsame' s (readsSame_apply hs hδ (differentUnits_symm hij)).symm
    have hba := hsame _ (readsSame_apply hs hδ' hij)
    have hsound {k : Instr} {t : State} (h : exec k s = .next t) : t.Sound params :=
      (exec_ends h).sound params_num rfl params_ringHalf_pos hs
    exact ⟨_, _, hb, hba, apply_comm hδ hδ' hij hs.cache (hsound ha).cache (hsound hb).cache, rfl, rfl⟩

end Sys2Proof.Machine
